-- ==== Sys2Proof/Word.lean ====
section
/-! DEFINITION. The word types of the CoAP codec block: a byte (R62) and a nibble (R12). -/

namespace Sys2Proof

/-- A byte is 8 bits, the only addressable unit of a buffer or array (R62). -/
abbrev Byte := BitVec 8

/-- A nibble: a 4-bit field, half of the option header byte (R12). -/
abbrev Nibble := BitVec 4

end Sys2Proof
end

