-- ==== Sys2Proof/Config.lean ====
section
/-! DEFINITION. What one realisation of the block fixes (the parameters of 00_scope.md R8) and the values
the spec leaves open (never-written bytes, 70_reset_and_hazards.md R283). -/

namespace Sys2Proof.Config

/-- The parameters of R8. A state carries them (log entry 4), so statements hold for every legal choice. -/
structure Params where
  /-- `RX_MAX`: capacity of RXBUF and largest legal RXLEN. -/
  rxMax : Nat
  /-- `TX_MAX`: capacity of TXBUF. -/
  txMax : Nat
  /-- `PATH_MAX`: capacity of PATHBUF and largest legal PATHLEN. -/
  pathMax : Nat
  /-- `CURW`: width in bits of every cursor, offset and length register. -/
  curW : Nat
  deriving DecidableEq, Repr

/-- The constraints of R8's table, column "Constraint". -/
def Params.legal (p : Params) : Bool :=
  decide (4 ≤ p.rxMax) && decide (p.rxMax ≤ 2047)
    && decide (13 + p.pathMax + p.pathMax / 13 ≤ p.txMax) && decide (p.txMax ≤ 2047)
    && decide (p.pathMax ≤ 2047)
    && decide (p.rxMax < 2 ^ p.curW) && decide (p.txMax < 2 ^ p.curW) && decide (p.pathMax < 2 ^ p.curW)

/-- R8's defaults, which the spec uses in every example. -/
def Params.default : Params := { rxMax := 1500, txMax := 1500, pathMax := 1024, curW := 11 }

/-- The FREE VALUE of a never-written buffer byte (R72, R283; log entries 2, 3): draw number, byte-space id, index.
It has no body: nothing can be proved of its value. -/
opaque freeByte : Nat → Nat → Nat → Byte

end Sys2Proof.Config
end

