-- ==== Sys2Proof/Syntax.lean ====
section
/-! DEFINITION. The instructions: one constructor per mnemonic of spec/opcode_table.json (30_encoding.md R123).
Commands are what the host gives; wire items are what MSGDEC and UVDEC walk, MSGENC emits and FMT formats (D1).
Rows of one mnemonic that differ only because one mask cannot say a range share a constructor (R123). -/

namespace Sys2Proof

/-- The instructions of the CoAP codec block. -/
inductive Instr where
  /-- UVENC (R133). -/
  | uvenc
  /-- UVDEC (R135). -/
  | uvdec
  /-- MSGENC (R150). -/
  | msgenc
  /-- MSGDEC (R170). -/
  | msgdec
  /-- FMT (R210). -/
  | fmt
  /-- CLEAR (R227). -/
  | clear
  /-- BADCMD: any other value written to CMD (R119, R226). -/
  | badcmd (opcode : BitVec 8)
  /-- HDR: a header word that is accepted, version 1 and token length 0 to 8 (R92, R175). -/
  | hdr (typ : BitVec 2) (tkl : BitVec 4) (code : BitVec 8) (mid : BitVec 16)
  /-- HDR.BADVER: a header word whose version is 0, 2 or 3 (R173). -/
  | hdrBadver (ver : BitVec 2) (typ : BitVec 2) (tkl : BitVec 4) (code : BitVec 8) (mid : BitVec 16)
  /-- HDR.BADTKL: version 1 and token length 9 to 15 (R174). -/
  | hdrBadtkl (typ : BitVec 2) (tkl : BitVec 4) (code : BitVec 8) (mid : BitVec 16)
  /-- GETHDR: the only header MSGENC emits (R94, R152). -/
  | gethdr (tkl : BitVec 4) (mid : BitVec 16)
  /-- MARK: the byte 0xFF at an option header position (R104, R179). -/
  | mark
  /-- OPT.DRSVD: option header byte 0xF0 to 0xFE, delta nibble 15 (R103, R181). -/
  | optDrsvd (ln : Nibble)
  /-- OPT.LRSVD: option header byte with length nibble 15 and another delta nibble (R103, R183). -/
  | optLrsvd (dn : Nibble)
  /-- OPT: a well-formed option header byte (R97, R180). -/
  | opt (dn ln : Nibble)
  /-- NIB.LIT: nibble 0 to 12 (R98, R131). -/
  | nibLit (nib : Nibble)
  /-- NIB.EXT8: nibble 13. -/
  | nibExt8
  /-- NIB.EXT16: nibble 14. -/
  | nibExt16
  /-- NIB.RSVD: nibble 15. -/
  | nibRsvd
  /-- EXT8: the one extension byte of a nibble 13 (R99). -/
  | ext8 (e : Byte)
  /-- EXT16: the two extension bytes of a nibble 14, first byte more significant (R99). -/
  | ext16 (h l : Byte)
  /-- CODE: the code byte as FMT reads it (R108, R210). -/
  | code (cls : BitVec 3) (detail : BitVec 5)
  /-- TOKEN: the `tkl` token bytes (R95). -/
  | token (bytes : List Byte)
  /-- VALUE: the `length` value bytes of an option (R102). -/
  | value (bytes : List Byte)
  /-- PAYLOAD: every byte after MARK (R105). -/
  | payload (bytes : List Byte)
  deriving DecidableEq, Repr

end Sys2Proof
end

