-- ==== Sys2Proof/Machine/State.lean ====
section
/-! DEFINITION. The state of the CoAP codec block (10_state.md), as plain data, and the state after reset (R57).
Cursor, offset and length registers, CURW bits wide, are natural numbers (log entry 5): the spec's arithmetic on
them is on mathematical integers (R10) and R58 shows that no stored value exceeds its width, which is an invariant
of this model and not a truncation hidden in it. -/

namespace Sys2Proof.Machine

/-! ## The parts -/

/-- The error kinds that occur (60_exceptions.md R240); codes 6, 7 and 11 to 15 are never produced. -/
inductive ErrKind where
  | truncatedBuffer
  | invalidVersion
  | invalidTokenLength
  | truncatedExtension
  | reservedNibble
  | badCommand
  | badParam
  | uvarRange
  deriving DecidableEq, Repr

/-- A buffer: the bytes that have been written, by rising index. An index not listed has NEVER BEEN WRITTEN and
holds no value (R55). -/
abbrev Memory := List Host.Cell

/-- One record of the option trace (R44). -/
structure OptionEvent where
  /-- The option's number (32 bits). -/
  num : Nat
  /-- The index in RXBUF of the first byte of its value (CURW bits). -/
  off : Nat
  /-- The length of its value in bytes (17 bits). -/
  length : Nat
  deriving DecidableEq, Repr

/-- Which wire item a running UVDEC takes next. -/
inductive UvStage where
  /-- The nibble in UV_NIB. -/
  | nibble
  /-- Its extension: EXT16 if `wide`, else EXT8. -/
  | ext (wide : Bool)
  deriving DecidableEq, Repr

/-- The transient state of UVDEC (R56). -/
structure UvRun where
  stage : UvStage
  cur : Nat
  deriving DecidableEq, Repr

/-- Which wire item a running MSGENC emits next. -/
inductive EncStage where
  | header
  | token
  /-- The head of the segment loop. -/
  | options
  /-- The length extension: EXT16 if `wide`, else EXT8. -/
  | ext (wide : Bool)
  | value
  deriving DecidableEq, Repr

/-- The transient state of MSGENC (R56): `rp`, `wp`, `prev`, and the segment's `start` of R150. -/
structure EncRun where
  stage : EncStage
  rp : Nat
  wp : Nat
  prev : Nat
  start : Nat
  deriving DecidableEq, Repr

/-- Which wire item a running MSGDEC takes next: the stages of R190, the Option stage cut at each item of R96. -/
inductive DecStage where
  | header
  | token
  /-- The head of the option loop (R178). -/
  | option
  /-- The delta nibble of an option header byte that has been consumed. -/
  | delta (dn ln : Nibble)
  /-- The delta extension. -/
  | deltaExt (wide : Bool) (ln : Nibble)
  /-- The length nibble. -/
  | length (ln : Nibble)
  /-- The length extension. -/
  | lengthExt (wide : Bool)
  /-- The option's value. -/
  | value
  | payload
  deriving DecidableEq, Repr

/-- The transient state of MSGDEC (R56), with the fields captured from HDR and TOKEN (R190). -/
structure DecRun where
  stage : DecStage
  cur : Nat
  last : Nat
  cnt : Nat
  delta : Nat
  length : Nat
  ver : BitVec 2
  typ : BitVec 2
  tkl : BitVec 4
  code : BitVec 8
  mid : BitVec 16
  token : List Byte
  deriving DecidableEq, Repr

/-- What the engine is doing. Between host transactions it is idle (R225, R57). -/
inductive Engine where
  | idle
  | uvdec (u : UvRun)
  | msgenc (e : EncRun)
  | msgdec (d : DecRun)
  /-- FMT has no transient state (R56); it is about to take its code byte. -/
  | fmt
  deriving DecidableEq, Repr

/-- What the host can do to the block: the four transactions of R220, and reset (R280). -/
inductive HostTxn where
  /-- ReadReg(no), R221. -/
  | readReg (no : BitVec 6)
  /-- WriteReg(no, v), R221. -/
  | writeReg (no : BitVec 6) (v : Nat)
  /-- ReadBuf(id, idx), R222. -/
  | readBuf (id idx : Nat)
  /-- WriteBuf(id, idx, b), R222. -/
  | writeBuf (id idx : Nat) (b : Byte)
  /-- The platform's reset, R280. -/
  | reset
  deriving DecidableEq, Repr

/-! ## The state -/

/-- The state of the block. The first group is configuration; the last group is the model's own (INVENTORY.md). -/
structure State where
  /-- The parameters of R8; no step changes them. -/
  cfg : Config.Params
  /-- 0 CMD (R22). -/
  cmd : BitVec 8
  /-- 1 STATUS (R23). -/
  status : BitVec 8
  /-- 2 ERRKIND (R24). -/
  errKind : BitVec 4
  /-- 3 ERRPOS (R25). -/
  errPos : Nat
  /-- 4 UV_VAL (R26). -/
  uvVal : BitVec 32
  /-- 5 UV_NIB (R27). -/
  uvNib : BitVec 4
  /-- 6 UV_EXTLEN (R28). -/
  uvExtLen : BitVec 2
  /-- 7 UV_CUR (R29). -/
  uvCur : Nat
  /-- 8 ENC_TKL (R41). -/
  encTkl : BitVec 4
  /-- 9 MIDSRC (R42). -/
  midSrc : BitVec 16
  /-- 10 PATHLEN (R43). -/
  pathLen : Nat
  /-- 11 TXLEN (R45). -/
  txLen : Nat
  /-- 12 MIDOUT (R46). -/
  midOut : BitVec 16
  /-- 13 RXLEN (R30). -/
  rxLen : Nat
  /-- 14 DEC_VER (R31). -/
  decVer : BitVec 2
  /-- 15 DEC_TYPE (R32). -/
  decType : BitVec 2
  /-- 16 DEC_TKL (R33). -/
  decTkl : BitVec 4
  /-- 17 DEC_CODE (R34). -/
  decCode : BitVec 8
  /-- 18 DEC_MID (R35). -/
  decMid : BitVec 16
  /-- 19 PAY_OFF (R36). -/
  payOff : Nat
  /-- 20 PAY_LEN (R37). -/
  payLen : Nat
  /-- 21 OPT_LAST (R38). -/
  optLast : BitVec 32
  /-- 22 OPT_CNT (R39). -/
  optCnt : Nat
  /-- 23 FMT_CODE (R47). -/
  fmtCode : BitVec 8
  /-- 24 FMT_CLASS (R48). -/
  fmtClass : BitVec 3
  /-- 25 FMT_DETAIL (R49). -/
  fmtDetail : BitVec 5
  /-- Array 3 TOKSRC (R50). -/
  tokSrc : Vector Byte 8
  /-- Array 4 TOKOUT (R51). -/
  tokOut : Vector Byte 8
  /-- Array 5 DEC_TOKEN (R52). -/
  decToken : Vector Byte 8
  /-- Array 6 UVEXT (R53). -/
  uvExt : Vector Byte 2
  /-- Array 7 FMTSTR (R54). -/
  fmtStr : Vector Byte 4
  /-- Buffer 0 RXBUF (R55). -/
  rx : Memory
  /-- Buffer 1 TXBUF (R55). -/
  tx : Memory
  /-- Buffer 2 PATHBUF (R55). -/
  path : Memory
  /-- The option trace (R44). -/
  trace : List OptionEvent
  /-- The transient state (R56). -/
  engine : Engine
  /-- MODEL'S OWN: the payload by value, as R188 and R291 ask of a model (log entry 9). -/
  payload : List Byte
  /-- MODEL'S OWN: the host transactions still to come, oldest first (log entry 1). -/
  host : List HostTxn
  /-- MODEL'S OWN: what the last host transaction returned; none for a write (log entry 1). -/
  reply : Option Nat
  /-- MODEL'S OWN: how often the content of never-written bytes has been drawn anew, once a reset (log entry 3). -/
  draws : Nat
  deriving DecidableEq, Repr

/-- Eight bytes 0. -/
def zero8 : Vector Byte 8 := #v[0, 0, 0, 0, 0, 0, 0, 0]

/-- The state after reset (R57, R280): registers, arrays and trace 0 or empty, buffers never written, no command
running; the parameters at the defaults of R8, nothing asked by the host yet. -/
def State.reset : State where
  cfg := Config.Params.default
  cmd := 0
  status := 0
  errKind := 0
  errPos := 0
  uvVal := 0
  uvNib := 0
  uvExtLen := 0
  uvCur := 0
  encTkl := 0
  midSrc := 0
  pathLen := 0
  txLen := 0
  midOut := 0
  rxLen := 0
  decVer := 0
  decType := 0
  decTkl := 0
  decCode := 0
  decMid := 0
  payOff := 0
  payLen := 0
  optLast := 0
  optCnt := 0
  fmtCode := 0
  fmtClass := 0
  fmtDetail := 0
  tokSrc := zero8
  tokOut := zero8
  decToken := zero8
  uvExt := #v[0, 0]
  fmtStr := #v[0, 0, 0, 0]
  rx := []
  tx := []
  path := []
  trace := []
  engine := .idle
  payload := []
  host := []
  reply := none
  draws := 0

/-! ## Stops -/

/-- Why the machine stops. The spec's own failures never stop it: they are reported in STATUS, ERRKIND and ERRPOS
and the block goes on (R255). Both faults need a parameter set that breaks R8 (log entry 13). -/
inductive Fault where
  /-- MSGENC would write a byte at or beyond TX_MAX. Raised by MSGENC and its emitted items. Safe: R162 shows it
  cannot happen under the constraints of R8. -/
  | txOverflow
  /-- MSGENC would call UvarEncode above 65804, where it is undefined (R134). Raised by MSGENC. Safe: R161 shows it
  cannot happen under the constraints of R8. -/
  | uvarUndefined
  deriving DecidableEq, Repr

/-- Why an instruction has no meaning here. -/
inductive Refusal where
  /-- Not modelled yet: raised by exec's arm of that mnemonic only. Safe. -/
  | notModelled (mnemonic : String)
  /-- A wire item given where the running command does not take or emit such an item, or while none runs: raised by
  the wire items. Safe: the transient state it would act on does not exist (R56), and the step never does it. -/
  | itemOutOfPlace
  deriving DecidableEq, Repr

end Sys2Proof.Machine
end

