-- ==== Sys2Proof/Machine/Flags.lean ====
section
/-! DEFINITION. STATUS and ERRKIND: every flag computation (10_state.md R23, R24; 60_exceptions.md R240, R255, R259). -/

namespace Sys2Proof.Machine

/-- The code of an error kind in ERRKIND (R240). -/
def ErrKind.code : ErrKind → BitVec 4
  | .truncatedBuffer => 1#4
  | .invalidVersion => 2#4
  | .invalidTokenLength => 3#4
  | .truncatedExtension => 4#4
  | .reservedNibble => 5#4
  | .badCommand => 8#4
  | .badParam => 9#4
  | .uvarRange => 10#4

/-- The four valid flags (R23). -/
inductive ValidFlag where
  | uvv
  | encv
  | decv
  | fmtv
  deriving DecidableEq, Repr

/-- STATUS.DONE is bit 0 (R23). -/
def doneBit : Nat := 0

/-- STATUS.ERR is bit 1 (R23). -/
def errBit : Nat := 1

/-- The STATUS bit of a valid flag (R23). -/
def ValidFlag.bit : ValidFlag → Nat
  | .uvv => 4
  | .encv => 5
  | .decv => 6
  | .fmtv => 7

/-- STATUS with one bit set. -/
def setBit (v : BitVec 8) (i : Nat) : BitVec 8 := v ||| (1#8 <<< i)

/-- STATUS with one bit cleared. -/
def clearBit (v : BitVec 8) (i : Nat) : BitVec 8 := v &&& ~~~(1#8 <<< i)

/-- STATUS after a success: DONE 1, ERR 0, the unit's flag 1, all other bits unchanged (R259). -/
def statusSucceed (f : ValidFlag) (v : BitVec 8) : BitVec 8 :=
  setBit (clearBit (setBit v doneBit) errBit) f.bit

/-- STATUS after a failure: DONE 1, ERR 1, the unit's flag (none for BadCommand) 0, other bits unchanged (R255). -/
def statusFail (f : Option ValidFlag) (v : BitVec 8) : BitVec 8 :=
  match f with
  | some f => clearBit (setBit (setBit v doneBit) errBit) f.bit
  | none => setBit (setBit v doneBit) errBit

/-- STATUS.DONE. -/
def State.done (s : State) : Bool := s.status.getLsbD doneBit

/-- STATUS.ERR. -/
def State.err (s : State) : Bool := s.status.getLsbD errBit

/-- A valid flag of STATUS. -/
def State.valid (s : State) (f : ValidFlag) : Bool := s.status.getLsbD f.bit

end Sys2Proof.Machine
end

