-- ==== Sys2Proof/WellFormed.lean ====
section
/-! DEFINITION. Which operand values each instruction's encoding admits. -/

namespace Sys2Proof

/-- The operands of `i` are ones its row of the table encodes (30_encoding.md R92 to R105, R118, R119). -/
def Instr.wf : Instr → Bool
  | .uvenc => true
  | .uvdec => true
  | .msgenc => true
  | .msgdec => true
  | .fmt => true
  | .clear => true
  | .badcmd v => decide (v.toNat = 0 ∨ 6 < v.toNat)
  | .hdr _ tkl _ _ => decide (tkl.toNat ≤ 8)
  | .hdrBadver ver _ _ _ _ => decide (ver ≠ 1#2)
  | .hdrBadtkl _ tkl _ _ => decide (8 < tkl.toNat)
  | .gethdr tkl _ => decide (tkl.toNat ≤ 8)
  | .mark => true
  | .optDrsvd ln => decide (ln ≠ 15#4)
  | .optLrsvd dn => decide (dn ≠ 15#4)
  | .opt dn ln => decide (dn ≠ 15#4 ∧ ln ≠ 15#4)
  | .nibLit nib => decide (nib.toNat ≤ 12)
  | .nibExt8 => true
  | .nibExt16 => true
  | .nibRsvd => true
  | .ext8 _ => true
  | .ext16 _ _ => true
  | .code _ _ => true
  | .token bytes => decide (bytes.length ≤ 8)
  | .value bytes => decide (bytes.length ≤ 65804)
  | .payload _ => true

end Sys2Proof
end

