-- ==== Sys2Proof/Decode.lean ====
section
/-! DEFINITION. Decoding and encoding (30_encoding.md). A byte has no meaning by itself: "the only context a byte's
meaning depends on is its position in the grammar of rule R90" (R111). So the decoder is given the SLOT the bytes
stand in, and it is total on any bytes: it answers an instruction and the bytes left, or rejects by name. -/

namespace Sys2Proof

/-! ## Bit fields and byte order -/

/-- `b[7:4]`, the high nibble (R10). -/
def hiNibble (b : Byte) : Nibble := b.extractLsb' 4 4

/-- `b[3:0]`, the low nibble (R10). -/
def loNibble (b : Byte) : Nibble := b.extractLsb' 0 4

/-- `hi<<4 | lo` (R96, R97). -/
def joinNibbles (hi lo : Nibble) : Byte := hi ++ lo

/-- `be16(h, l)`: two bytes in network byte order, the first more significant (R10, R60). -/
def be16 (h l : Byte) : BitVec 16 := h ++ l

/-- The more significant byte of a 16-bit value (R60). -/
def highByte (w : BitVec 16) : Byte := w.extractLsb' 8 8

/-- The less significant byte of a 16-bit value (R60). -/
def lowByte (w : BitVec 16) : Byte := w.extractLsb' 0 8

/-- The first header byte, `(version<<6) | (type<<4) | token_length` (R92). -/
def packFirst (ver typ : BitVec 2) (tkl : BitVec 4) : Byte := (ver ++ typ) ++ tkl

/-- `ver`, bits 7:6 of the first header byte (R92). -/
def verOf (b0 : Byte) : BitVec 2 := b0.extractLsb' 6 2

/-- `type`, bits 5:4 of the first header byte (R92). -/
def typOf (b0 : Byte) : BitVec 2 := b0.extractLsb' 4 2

/-- `tkl`, bits 3:0 of the first header byte (R92). -/
def tklOf (b0 : Byte) : BitVec 4 := b0.extractLsb' 0 4

/-- `class`, bits 7:5 of a code byte (R108). -/
def classOf (c : Byte) : BitVec 3 := c.extractLsb' 5 3

/-- `detail`, bits 4:0 of a code byte (R108). -/
def detailOf (c : Byte) : BitVec 5 := c.extractLsb' 0 5

/-- `class<<5 | detail` (R108). -/
def packCode (cls : BitVec 3) (detail : BitVec 5) : Byte := cls ++ detail

/-! ## One decoder per format -/

/-- CMD8: the opcode written to CMD (R118, R119). -/
def decodeCmd (v : BitVec 8) : Instr :=
  match v.toNat with
  | 1 => .uvenc
  | 2 => .uvdec
  | 3 => .msgenc
  | 4 => .msgdec
  | 5 => .fmt
  | 6 => .clear
  | _ => .badcmd v

/-- HDR32: a received header; the version is looked at before the token length (R92, R93). -/
def decodeHdr (b0 b1 b2 b3 : Byte) : Instr :=
  if verOf b0 = 1#2 then
    if 8 < (tklOf b0).toNat then .hdrBadtkl (typOf b0) (tklOf b0) b1 (be16 b2 b3)
    else .hdr (typOf b0) (tklOf b0) b1 (be16 b2 b3)
  else .hdrBadver (verOf b0) (typOf b0) (tklOf b0) b1 (be16 b2 b3)

/-- A header word has the shape of R94: version 1, type 0, token length 0 to 8, code 0x01. -/
def isGetHdr (b0 b1 : Byte) : Bool :=
  decide (verOf b0 = 1#2) && decide (typOf b0 = 0#2) && decide ((tklOf b0).toNat ≤ 8) && decide (b1 = 1#8)

/-- OPTH8: the byte at an option header position, by the four tests of R103 in their order. -/
def decodeOpth (b : Byte) : Instr :=
  if b = 0xFF#8 then .mark
  else if hiNibble b = 15#4 then .optDrsvd (loNibble b)
  else if loNibble b = 15#4 then .optLrsvd (hiNibble b)
  else .opt (hiNibble b) (loNibble b)

/-- NIB4: the class of a nibble (R98). -/
def decodeNibble (n : Nibble) : Instr :=
  match n.toNat with
  | 13 => .nibExt8
  | 14 => .nibExt16
  | 15 => .nibRsvd
  | _ => .nibLit n

/-! ## The decoder -/

/-- Where the bytes to be decoded stand: the position that gives them their meaning (R111). -/
inductive Slot where
  /-- Written to CMD (R118). -/
  | cmd
  /-- At index 0 of a received datagram (R92). -/
  | header
  /-- At index 0 of an emitted datagram (R94). -/
  | getHeader
  /-- Where an option header byte is expected (R103). -/
  | optionHead
  /-- A nibble given to UvarDecode (R131), as a byte whose high half is 0. -/
  | nibble
  /-- The extension of a nibble 13 (R99). -/
  | ext8
  /-- The extension of a nibble 14 (R99). -/
  | ext16
  /-- FMT_CODE (R108). -/
  | code
  /-- A token of `n` bytes (R95). -/
  | token (n : Nat)
  /-- An option value of `n` bytes (R102). -/
  | value (n : Nat)
  /-- After MARK (R105). -/
  | payload
  deriving DecidableEq, Repr

/-- Why bytes are rejected. -/
inductive Reject where
  /-- Fewer bytes than the slot's format has. -/
  | tooShort
  /-- Not a nibble: the high half of the byte is not 0. -/
  | notNibble
  /-- Not a header MSGENC emits (R94). -/
  | notGetHeader
  /-- A token of more than 8 bytes (R95). -/
  | tokenTooLong
  /-- An option value of more than 65804 bytes (R100). -/
  | valueTooLong
  deriving DecidableEq, Repr

/-- What the decoder answers. -/
inductive Decoded where
  /-- The instruction, and the bytes after it. -/
  | ok (i : Instr) (rest : List Byte)
  /-- No instruction stands here. -/
  | rejected (why : Reject)
  deriving DecidableEq, Repr

/-- The first `n` bytes as one run, or too few. -/
def takeRun (n : Nat) (bs : List Byte) (mk : List Byte → Instr) : Decoded :=
  if bs.length < n then .rejected .tooShort else .ok (mk (bs.take n)) (bs.drop n)

/-- The decoder, total on any bytes in any slot. -/
def decode (slot : Slot) (bs : List Byte) : Decoded :=
  match slot with
  | .cmd =>
    match bs with
    | v :: rest => .ok (decodeCmd v) rest
    | _ => .rejected .tooShort
  | .header =>
    match bs with
    | b0 :: b1 :: b2 :: b3 :: rest => .ok (decodeHdr b0 b1 b2 b3) rest
    | _ => .rejected .tooShort
  | .getHeader =>
    match bs with
    | b0 :: b1 :: b2 :: b3 :: rest =>
      if isGetHdr b0 b1 then .ok (.gethdr (tklOf b0) (be16 b2 b3)) rest else .rejected .notGetHeader
    | _ => .rejected .tooShort
  | .optionHead =>
    match bs with
    | b :: rest => .ok (decodeOpth b) rest
    | _ => .rejected .tooShort
  | .nibble =>
    match bs with
    | b :: rest => if hiNibble b = 0#4 then .ok (decodeNibble (loNibble b)) rest else .rejected .notNibble
    | _ => .rejected .tooShort
  | .ext8 =>
    match bs with
    | e :: rest => .ok (.ext8 e) rest
    | _ => .rejected .tooShort
  | .ext16 =>
    match bs with
    | h :: l :: rest => .ok (.ext16 h l) rest
    | _ => .rejected .tooShort
  | .code =>
    match bs with
    | c :: rest => .ok (.code (classOf c) (detailOf c)) rest
    | _ => .rejected .tooShort
  | .token n => if 8 < n then .rejected .tokenTooLong else takeRun n bs .token
  | .value n => if 65804 < n then .rejected .valueTooLong else takeRun n bs .value
  | .payload => .ok (.payload bs) []

/-! ## The encoder -/

/-- The bytes of an instruction, from the encoding tables of 30_encoding.md. -/
def encode : Instr → List Byte
  | .uvenc => [1#8]
  | .uvdec => [2#8]
  | .msgenc => [3#8]
  | .msgdec => [4#8]
  | .fmt => [5#8]
  | .clear => [6#8]
  | .badcmd v => [v]
  | .hdr typ tkl code mid => [packFirst 1#2 typ tkl, code, highByte mid, lowByte mid]
  | .hdrBadver ver typ tkl code mid => [packFirst ver typ tkl, code, highByte mid, lowByte mid]
  | .hdrBadtkl typ tkl code mid => [packFirst 1#2 typ tkl, code, highByte mid, lowByte mid]
  | .gethdr tkl mid => [packFirst 1#2 0#2 tkl, 1#8, highByte mid, lowByte mid]
  | .mark => [0xFF#8]
  | .optDrsvd ln => [joinNibbles 15#4 ln]
  | .optLrsvd dn => [joinNibbles dn 15#4]
  | .opt dn ln => [joinNibbles dn ln]
  | .nibLit nib => [joinNibbles 0#4 nib]
  | .nibExt8 => [0x0D#8]
  | .nibExt16 => [0x0E#8]
  | .nibRsvd => [0x0F#8]
  | .ext8 e => [e]
  | .ext16 h l => [h, l]
  | .code cls detail => [packCode cls detail]
  | .token bytes => bytes
  | .value bytes => bytes
  | .payload bytes => bytes

/-- The slot an instruction's bytes stand in. -/
def slotOf : Instr → Slot
  | .uvenc => .cmd
  | .uvdec => .cmd
  | .msgenc => .cmd
  | .msgdec => .cmd
  | .fmt => .cmd
  | .clear => .cmd
  | .badcmd _ => .cmd
  | .hdr _ _ _ _ => .header
  | .hdrBadver _ _ _ _ _ => .header
  | .hdrBadtkl _ _ _ _ => .header
  | .gethdr _ _ => .getHeader
  | .mark => .optionHead
  | .optDrsvd _ => .optionHead
  | .optLrsvd _ => .optionHead
  | .opt _ _ => .optionHead
  | .nibLit _ => .nibble
  | .nibExt8 => .nibble
  | .nibExt16 => .nibble
  | .nibRsvd => .nibble
  | .ext8 _ => .ext8
  | .ext16 _ _ => .ext16
  | .code _ _ => .code
  | .token bytes => .token bytes.length
  | .value bytes => .value bytes.length
  | .payload _ => .payload

/-! ## The words of the opcode table -/

/-- Byte number `k` of a word whose bit 0 is its least significant bit. -/
def byteAt (w k : Nat) : Byte := BitVec.ofNat 8 (w >>> (8 * k))

/-- The first instruction in `bs`, where the slot has one. -/
def firstInstr (slot : Slot) (bs : List Byte) : Option Instr :=
  match decode slot bs with
  | .ok i _ => some i
  | .rejected _ => none

/-- A 32-bit word as its four bytes in wire order, B[0] first (R92). -/
def headerBytes (w : Nat) : List Byte := [byteAt w 3, byteAt w 2, byteAt w 1, byteAt w 0]

/-- A 32-bit word: the row with more fixed bits first, so GETHDR before HDR (log entry 10). -/
def decodeWord32 (w : Nat) : Option Instr :=
  match decode .getHeader (headerBytes w) with
  | .ok i _ => some i
  | .rejected _ => firstInstr .header (headerBytes w)

/-- The slot a bare 8-bit word is read in: below 0x08 a command opcode, 0x08 to 0x0F a nibble, above an option header
byte. Nothing in such a word says its slot, so this is the model's choice (log entry 10). -/
def slotOfByte (b : Byte) : Slot :=
  if b.toNat < 0x08 then .cmd else if b.toNat < 0x10 then .nibble else .optionHead

/-- The instruction the decoder reads from a word of `nbits` bits: 4 bits a nibble, 8 bits by `slotOfByte`, 16 bits an
EXT16, 32 bits a header word (log entry 10). -/
def decodeTableWord (nbits w : Nat) : Option Instr :=
  if nbits = 4 then firstInstr .nibble [BitVec.ofNat 8 (w % 16)]
  else if nbits = 8 then firstInstr (slotOfByte (byteAt w 0)) [byteAt w 0]
  else if nbits = 16 then firstInstr .ext16 [byteAt w 1, byteAt w 0]
  else if nbits = 32 then decodeWord32 w
  else none

end Sys2Proof
end

