-- ==== Sys2Proof/Machine/Operands.lean ====
section
/-! DEFINITION. The operand forms: the extended value (30_encoding.md R98 to R101, 40_uvar.md R130, R131), the
path and its segments (41_encoder.md R154), and the header checks (42_decoder.md R173, R174, R176). -/

namespace Sys2Proof.Machine

/-! ## Nibble classes and the extended value -/

/-- The four classes of a nibble (R98). -/
inductive NibClass where
  | lit
  | ext8
  | ext16
  | rsvd
  deriving DecidableEq, Repr

/-- The class of a nibble (R98). -/
def nibClass (nib : Nibble) : NibClass :=
  match nib.toNat with
  | 13 => .ext8
  | 14 => .ext16
  | 15 => .rsvd
  | _ => .lit

/-- How many extension bytes a class has (R98). -/
def NibClass.extBytes : NibClass → Nat
  | .lit => 0
  | .ext8 => 1
  | .ext16 => 2
  | .rsvd => 0

/-- `ExtValue(nib, e0, e1)`: the value of a nibble and the bytes after it (R100). -/
def extValue (nib : Nibble) (e0 e1 : Byte) : Option Nat :=
  match nibClass nib with
  | .lit => some nib.toNat
  | .ext8 => some (13 + e0.toNat)
  | .ext16 => some (269 + (be16 e0 e1).toNat)
  | .rsvd => none

/-- `UvarEncode(n)` (R130): the nibble and the extension bytes; undefined (none) above 65804 (R134). -/
def uvarEncode (n : Nat) : Option (Nibble × List Byte) :=
  if n < 13 then some (BitVec.ofNat 4 n, [])
  else if n < 269 then some (13#4, [BitVec.ofNat 8 (n - 13)])
  else if n ≤ 65804 then some (14#4, [highByte (BitVec.ofNat 16 (n - 269)), lowByte (BitVec.ofNat 16 (n - 269))])
  else none

/-- `UvarDecode(nib, S, cur, end)` (R131, R139): the value and the new cursor, or the error kind. `rd` reads `S`,
`fin` is `end`; a failure is raised at the cursor of the call, which has not moved. -/
def uvarDecode (nib : Nibble) (rd : Nat → Byte) (cur fin : Nat) : Except ErrKind (Nat × Nat) :=
  match nibClass nib with
  | .lit => .ok (nib.toNat, cur)
  | .ext8 =>
    if fin - cur < 1 then .error .truncatedExtension
    else .ok (13 + (rd cur).toNat, cur + 1)
  | .ext16 =>
    if fin - cur < 2 then .error .truncatedExtension
    else .ok (269 + (be16 (rd cur) (rd (cur + 1))).toNat, cur + 2)
  | .rsvd => .error .reservedNibble

/-- An option as bytes (R96): header byte, delta extension, length extension, value, each extended value in its one
encoding (R101). None where UvarEncode is undefined (R134). -/
def optionItem (delta : Nat) (value : List Byte) : Option (List Byte) :=
  match uvarEncode delta, uvarEncode value.length with
  | some (dn, dext), some (ln, lext) => some (joinNibbles dn ln :: (dext ++ lext ++ value))
  | _, _ => none

/-! ## Runs of bytes -/

/-- The `n` bytes `rd` gives from index `start` on. -/
def bytesFrom (rd : Nat → Byte) (start n : Nat) : List Byte :=
  (List.range n).map fun i => rd (start + i)

/-- A token in an array of eight bytes, 0 beyond its length (R51, R52). -/
def pad8 (bs : List Byte) : Vector Byte 8 :=
  #v[bs.getD 0 0, bs.getD 1 0, bs.getD 2 0, bs.getD 3 0, bs.getD 4 0, bs.getD 5 0, bs.getD 6 0, bs.getD 7 0]

/-- Extension bytes in an array of two bytes, 0 beyond their number (R53). -/
def pad2 (bs : List Byte) : Vector Byte 2 := #v[bs.getD 0 0, bs.getD 1 0]

/-! ## The path -/

/-- The path separator, the byte 0x2F (R154; the spec's G2). -/
def separator : Byte := 0x2F#8

/-- The segments of `bs`, `acc` being the bytes of the one begun (R154). -/
def segmentsFrom (acc : List Byte) : List Byte → List (List Byte)
  | [] => if acc = [] then [] else [acc]
  | b :: bs =>
    if b = separator then
      if acc = [] then segmentsFrom [] bs else acc :: segmentsFrom [] bs
    else segmentsFrom (acc ++ [b]) bs

/-- The segments of a path: split at the separator, empty pieces discarded (R154). -/
def segments (bs : List Byte) : List (List Byte) := segmentsFrom [] bs

/-- R150's read index moved over separators, from `rp`; `n` bounds the moves. -/
def skipSeparators (rd : Nat → Byte) (fin : Nat) : Nat → Nat → Nat
  | 0, rp => rp
  | n + 1, rp => if rp < fin ∧ rd rp = separator then skipSeparators rd fin n (rp + 1) else rp

/-- R150's read index moved over the bytes of a segment, from `rp`; `n` bounds the moves. -/
def segmentEnd (rd : Nat → Byte) (fin : Nat) : Nat → Nat → Nat
  | 0, rp => rp
  | n + 1, rp => if rp < fin ∧ rd rp ≠ separator then segmentEnd rd fin n (rp + 1) else rp

/-! ## Header checks -/

/-- The three checks made after the header is unpacked, in the order of R173, R174, R176. -/
def headerCheck (ver : BitVec 2) (tkl : BitVec 4) (len : Nat) : Option ErrKind :=
  if ver ≠ 1#2 then some .invalidVersion
  else if 8 < tkl.toNat then some .invalidTokenLength
  else if len - 4 < tkl.toNat then some .truncatedBuffer
  else none

end Sys2Proof.Machine
end

