-- ==== Sys2Proof/Machine/Ops.lean ====
section
/-! DEFINITION. The named operations over buffers and registers: reading and writing a buffer, the free values of
never-written bytes, the end of a successful command (R259), and the end of a failed one: `raise`, this block's
taking of an exception (R255 to R258). There is no return from one: "There is nothing to return from" (R260). -/

namespace Sys2Proof.Machine

/-- What an instruction answers. -/
abbrev Outcome := Host.Outcome State Fault Refusal

/-! ## Buffers -/

/-- The byte written at index `a`, none if it has never been written (R55). -/
def Memory.read : Memory → Nat → Option Byte
  | [], _ => none
  | (k, b) :: rest, a => if k = a then some b else Memory.read rest a

/-- Writes byte `a`, which is then written (R222). -/
def Memory.write : Memory → Nat → Byte → Memory
  | [], a, v => [(a, v)]
  | (k, b) :: rest, a, v =>
    if a < k then (a, v) :: (k, b) :: rest
    else if a = k then (a, v) :: rest
    else (k, b) :: Memory.write rest a v

/-- Writes consecutive bytes from index `a` on. -/
def Memory.writeBytes (m : Memory) (a : Nat) : List Byte → Memory
  | [] => m
  | b :: bs => Memory.writeBytes (m.write a b) (a + 1) bs

/-- Every index listed in `m` is above `lo`. -/
def Memory.above (lo : Nat) : Memory → Bool
  | [] => true
  | (k, _) :: rest => decide (lo < k) && Memory.above lo rest

/-- The canonical form: indexes strictly rising. No entry equals what an unlisted index reads as, since an unlisted
index holds no value. -/
def Memory.wf : Memory → Bool
  | [] => true
  | (k, _) :: rest => Memory.above k rest && Memory.wf rest

/-- Every index listed in `m` is below `cap`. -/
def Memory.below (cap : Nat) : Memory → Bool
  | [] => true
  | (k, _) :: rest => decide (k < cap) && Memory.below cap rest

/-! ## Bytes as a command reads them -/

/-- A byte of buffer `id` as every read returns it: the byte written, or a free value that stands until the byte is
written or the block is reset (R283, R65; log entries 2, 3). -/
def byteOr (m : Memory) (draw id i : Nat) : Byte :=
  match m.read i with
  | some b => b
  | none => Config.freeByte draw id i

/-- RXBUF[i] as a command reads it. -/
def State.rxByte (s : State) (i : Nat) : Byte := byteOr s.rx s.draws 0 i

/-- PATHBUF[i] as a command reads it. -/
def State.pathByte (s : State) (i : Nat) : Byte := byteOr s.path s.draws 2 i

/-! ## The end of a command -/

/-- `succeed(flag)` (R259): the result registers have been written by the command's own rule. -/
def succeed (f : ValidFlag) (s : State) : State :=
  { s with status := statusSucceed f s.status, errKind := 0, errPos := 0, engine := .idle }

/-- The command that fails, with what of its walk stays visible. -/
inductive Failing where
  | uvenc
  | uvdec
  | msgenc
  /-- MSGDEC, with `last` and `cnt` at the moment of the failure (R258). -/
  | msgdec (last cnt : Nat)
  /-- A CMD value that is no command: no unit (R226). -/
  | none
  deriving DecidableEq, Repr

/-- The valid flag of the failing command's own unit; none for BadCommand (R255). -/
def Failing.flag : Failing → Option ValidFlag
  | .uvenc => some .uvv
  | .uvdec => some .uvv
  | .msgenc => some .encv
  | .msgdec _ _ => some .decv
  | .none => Option.none

/-- The result registers of the failing unit (R256, R257, R258, R226). -/
def zeroResults (c : Failing) (s : State) : State :=
  match c with
  | .uvenc => { s with uvNib := 0, uvExtLen := 0, uvExt := #v[0, 0] }
  | .uvdec => { s with uvVal := 0, uvExtLen := 0, uvExt := #v[0, 0] }
  | .msgenc => { s with txLen := 0, midOut := 0, tokOut := zero8 }
  | .msgdec last cnt =>
    { s with
      decVer := 0, decType := 0, decTkl := 0, decCode := 0, decMid := 0, payOff := 0, payLen := 0,
      decToken := zero8, payload := [], optLast := BitVec.ofNat 32 last, optCnt := cnt }
  | .none => s

/-- `raise Kind(pos)` (R255): taking an exception. Control goes nowhere: the block is ready for the next host
transaction. -/
def raise (c : Failing) (k : ErrKind) (pos : Nat) (s : State) : State :=
  { zeroResults c s with
    status := statusFail c.flag s.status, errKind := k.code, errPos := pos, engine := .idle }

/-- A wire item that the running command does not expect (log entry 7). -/
def outOfPlace : Outcome := .refused .itemOutOfPlace

end Sys2Proof.Machine
end

