-- ==== Sys2Proof/Machine/Control.lean ====
section
/-! DEFINITION. Control (44_control.md): the command CLEAR and the illegal command. -/

namespace Sys2Proof.Machine

/-- The block with every register and array at its reset value and the trace empty, the buffers as they are in `s`
(R227). What is not the block's (parameters, the host's list, reply, draws) is kept. -/
def clearedRegisters (s : State) : State :=
  { State.reset with
    cfg := s.cfg, rx := s.rx, tx := s.tx, path := s.path, host := s.host, reply := s.reply, draws := s.draws }

/-- CLEAR (R227). -/
def execClear (s : State) : Outcome := .next (clearedRegisters s)

/-- BADCMD (R226): BadCommand, and nothing else changes. -/
def execBadcmd (_opcode : BitVec 8) (s : State) : Outcome := .next (raise .none .badCommand 0 s)

end Sys2Proof.Machine
end

