-- ==== Sys2Proof/Machine/Formatter.lean ====
section
/-! DEFINITION. StatusFormatter (43_status_formatter.md): the command FMT and its code byte CODE. -/

namespace Sys2Proof.Machine

/-- The four characters of "class.detail" (R211; the digits and the period are the spec's G3). -/
def formatString (cls : BitVec 3) (detail : BitVec 5) : Vector Byte 4 :=
  #v[BitVec.ofNat 8 (0x30 + cls.toNat), 0x2E#8, BitVec.ofNat 8 (0x30 + detail.toNat / 10),
    BitVec.ofNat 8 (0x30 + detail.toNat % 10)]

/-- The results of formatting a code (R210). -/
def formatCode (cls : BitVec 3) (detail : BitVec 5) (s : State) : State :=
  succeed .fmtv { s with fmtClass := cls, fmtDetail := detail, fmtStr := formatString cls detail }

/-- FMT (R210): formats FMT_CODE; it cannot fail (R213). -/
def execFmt (s : State) : Outcome := .next (formatCode (classOf s.fmtCode) (detailOf s.fmtCode) s)

/-- CODE (R108, R210): the code byte of the FMT that runs. -/
def execCode (cls : BitVec 3) (detail : BitVec 5) (s : State) : Outcome :=
  match s.engine with
  | .fmt => .next (formatCode cls detail s)
  | _ => outOfPlace

end Sys2Proof.Machine
end

