-- ==== Sys2Proof/Machine/Uvar.lean ====
section
/-! DEFINITION. UvarCodec (40_uvar.md): the commands UVENC and UVDEC, and the wire items that UvarDecode takes one
at a time, the nibble classes NIB.* (R131). An item acts on the transient state of the UVDEC or MSGDEC that runs. -/

namespace Sys2Proof.Machine

/-! ## The commands -/

/-- UVENC (R133, R134, R256). -/
def execUvenc (s : State) : Outcome :=
  match uvarEncode s.uvVal.toNat with
  | none => .next (raise .uvenc .uvarRange 0 s)
  | some (nib, ext) =>
    .next (succeed .uvv { s with uvNib := nib, uvExtLen := BitVec.ofNat 2 ext.length, uvExt := pad2 ext })

/-- The result registers of a UVDEC that read `value` from the bytes `ext` and left its cursor at `cur` (R135). -/
def finishUvdec (value cur : Nat) (ext : List Byte) (s : State) : State :=
  succeed .uvv
    { s with
      uvVal := BitVec.ofNat 32 value, uvExtLen := BitVec.ofNat 2 ext.length, uvExt := pad2 ext, uvCur := cur }

/-- The operands of UVDEC are legal (R136). -/
def uvdecLegal (s : State) : Bool := decide (s.rxLen ≤ s.cfg.rxMax) && decide (s.uvCur ≤ s.rxLen)

/-- UVDEC (R135, R136, R256): it decodes from RXBUF and the end index is RXLEN. -/
def execUvdec (s : State) : Outcome :=
  if uvdecLegal s then
    match uvarDecode s.uvNib s.rxByte s.uvCur s.rxLen with
    | .error k => .next (raise .uvdec k s.uvCur s)
    | .ok (value, cur) =>
      .next (finishUvdec value cur (bytesFrom s.rxByte s.uvCur (cur - s.uvCur)) s)
  else .next (raise .uvdec .badParam 0 s)

/-! ## The items of UvarDecode -/

/-- Where a running UvarDecode stands: at its nibble or at its extension, with the cursor. -/
inductive UvarPos where
  | nibble (cur : Nat)
  | ext (wide : Bool) (cur : Nat)
  | nowhere
  deriving DecidableEq, Repr

/-- The UvarDecode that runs in `s`: UVDEC's, or MSGDEC's for a delta or a length (R138). -/
def uvarPos (s : State) : UvarPos :=
  match s.engine with
  | .uvdec u =>
    match u.stage with
    | .nibble => .nibble u.cur
    | .ext wide => .ext wide u.cur
  | .msgdec d =>
    match d.stage with
    | .delta _ _ => .nibble d.cur
    | .length _ => .nibble d.cur
    | .deltaExt wide _ => .ext wide d.cur
    | .lengthExt wide => .ext wide d.cur
    | _ => .nowhere
  | _ => .nowhere

/-- UvarDecode ends with `value`, its cursor at `cur` and `ext` the bytes consumed. UVDEC writes its results (R135);
MSGDEC goes on to the length nibble (R183), or to the value with `last` increased by the delta (R184). -/
def deliver (value cur : Nat) (ext : List Byte) (s : State) : State :=
  match s.engine with
  | .uvdec _ => finishUvdec value cur ext s
  | .msgdec d =>
    match d.stage with
    | .delta _ ln => { s with engine := .msgdec { d with delta := value, cur := cur, stage := .length ln } }
    | .deltaExt _ ln => { s with engine := .msgdec { d with delta := value, cur := cur, stage := .length ln } }
    | _ => { s with engine := .msgdec { d with length := value, cur := cur, last := d.last + d.delta, stage := .value } }
  | _ => s

/-- The nibble is of class EXT8 or EXT16 and enough bytes remain: its extension comes next. -/
def awaitExt (wide : Bool) (s : State) : State :=
  match s.engine with
  | .uvdec u => { s with engine := .uvdec { u with stage := .ext wide } }
  | .msgdec d =>
    match d.stage with
    | .delta _ ln => { s with engine := .msgdec { d with stage := .deltaExt wide ln } }
    | _ => { s with engine := .msgdec { d with stage := .lengthExt wide } }
  | _ => s

/-- UvarDecode fails at the cursor `cur` (R131): the command that called it ends by `raise`. -/
def uvarRaise (k : ErrKind) (cur : Nat) (s : State) : State :=
  match s.engine with
  | .msgdec d => raise (.msgdec d.last d.cnt) k cur s
  | _ => raise .uvdec k cur s

/-- NIB.LIT (R131): the value is the nibble, no byte is consumed. -/
def execNibLit (nib : Nibble) (s : State) : Outcome :=
  match uvarPos s with
  | .nibble cur => .next (deliver nib.toNat cur [] s)
  | _ => outOfPlace

/-- NIB.EXT8 (R131): at least one byte must remain. -/
def execNibExt8 (s : State) : Outcome :=
  match uvarPos s with
  | .nibble cur =>
    if s.rxLen - cur < 1 then .next (uvarRaise .truncatedExtension cur s) else .next (awaitExt false s)
  | _ => outOfPlace

/-- NIB.EXT16 (R131): at least two bytes must remain. -/
def execNibExt16 (s : State) : Outcome :=
  match uvarPos s with
  | .nibble cur =>
    if s.rxLen - cur < 2 then .next (uvarRaise .truncatedExtension cur s) else .next (awaitExt true s)
  | _ => outOfPlace

/-- NIB.RSVD (R131, R139): ReservedNibble, whatever follows. -/
def execNibRsvd (s : State) : Outcome :=
  match uvarPos s with
  | .nibble cur => .next (uvarRaise .reservedNibble cur s)
  | _ => outOfPlace

end Sys2Proof.Machine
end

