-- ==== Sys2Proof/Machine/Decoder.lean ====
section
/-! DEFINITION. MessageDecoder (42_decoder.md): the command MSGDEC as the pseudocode of R170, and its wire items one
at a time, the step relation of R190. -/

namespace Sys2Proof.Machine

/-! ## The command -/

/-- What the option walk carries from one option to the next (R56, R190). -/
structure WalkState where
  cur : Nat
  last : Nat
  cnt : Nat
  trace : List OptionEvent
  deriving DecidableEq, Repr

/-- How the option stage ends: by MARK or the end of the buffer, or by a failure at `pos`. -/
inductive Walked where
  | reached (w : WalkState)
  | failed (k : ErrKind) (pos : Nat) (w : WalkState)
  deriving DecidableEq, Repr

/-- The option loop of R170 (R178 to R187); `n` bounds the options still to be walked, and every option consumes at
least one byte (R187). -/
def walkOptions (rd : Nat → Byte) (len : Nat) : Nat → WalkState → Walked
  | 0, w => .reached w
  | n + 1, w =>
    if w.cur < len then
      if rd w.cur = 0xFF#8 then .reached { w with cur := w.cur + 1 }
      else
        match uvarDecode (hiNibble (rd w.cur)) rd (w.cur + 1) len with
        | .error k => .failed k (w.cur + 1) w
        | .ok (delta, c1) =>
          match uvarDecode (loNibble (rd w.cur)) rd c1 len with
          | .error k => .failed k c1 w
          | .ok (length, c2) =>
            if len - c2 < length then .failed .truncatedBuffer c2 { w with last := w.last + delta }
            else
              walkOptions rd len n
                { cur := c2 + length, last := w.last + delta, cnt := w.cnt + 1,
                  trace := w.trace ++ [{ num := w.last + delta, off := c2, length := length }] }
    else .reached w

/-- The option walk over the whole datagram, from the index after the token. -/
def walkFrom (rd : Nat → Byte) (len start : Nat) : Walked :=
  walkOptions rd len len { cur := start, last := 0, cnt := 0, trace := [] }

/-- MSGDEC fails at `pos` with the walk at `w` (R258). -/
def failMsgdec (k : ErrKind) (pos : Nat) (w : WalkState) (s : State) : State :=
  raise (.msgdec w.last w.cnt) k pos { s with trace := w.trace }

/-- The header fields and the token, as captured. -/
structure Captured where
  ver : BitVec 2
  typ : BitVec 2
  tkl : BitVec 4
  code : BitVec 8
  mid : BitVec 16
  token : List Byte
  deriving DecidableEq, Repr

/-- The Payload stage (R188) and the results of a successful MSGDEC (R170). -/
def finishMsgdec (h : Captured) (w : WalkState) (payload : List Byte) (s : State) : State :=
  succeed .decv
    { s with
      decVer := h.ver, decType := h.typ, decTkl := h.tkl, decCode := h.code, decMid := h.mid,
      decToken := pad8 h.token, payOff := w.cur, payLen := s.rxLen - w.cur, payload := payload,
      optLast := BitVec.ofNat 32 w.last, optCnt := w.cnt, trace := w.trace }

/-- The state of the walk before the first option. -/
def WalkState.empty : WalkState := { cur := 0, last := 0, cnt := 0, trace := [] }

/-- The datagram RXBUF[0 .. RXLEN) decoded (R170, from the header stage on). -/
def decodeDatagram (s : State) : State :=
  if s.rxLen < 4 then failMsgdec .truncatedBuffer 0 .empty s
  else
    let b0 := s.rxByte 0
    match headerCheck (verOf b0) (tklOf b0) s.rxLen with
    | some k => failMsgdec k 4 .empty s
    | none =>
      match walkFrom s.rxByte s.rxLen (4 + (tklOf b0).toNat) with
      | .failed k pos w => failMsgdec k pos w s
      | .reached w =>
        finishMsgdec
          { ver := verOf b0, typ := typOf b0, tkl := tklOf b0, code := s.rxByte 1,
            mid := be16 (s.rxByte 2) (s.rxByte 3), token := bytesFrom s.rxByte 4 (tklOf b0).toNat }
          w (bytesFrom s.rxByte w.cur (s.rxLen - w.cur)) s

/-- MSGDEC (R170, R171, R258). -/
def execMsgdec (s : State) : Outcome :=
  if s.rxLen ≤ s.cfg.rxMax then .next (decodeDatagram s)
  else .next (raise (.msgdec 0 0) .badParam 0 { s with trace := [] })

/-! ## The same machine, one item at a time (R190) -/

/-- MSGDEC before its first item: (Header, 0, 0, 0, empty) of R190. -/
def DecRun.start : DecRun where
  stage := .header
  cur := 0
  last := 0
  cnt := 0
  delta := 0
  length := 0
  ver := 0
  typ := 0
  tkl := 0
  code := 0
  mid := 0
  token := []

/-- MSGDEC ends by a failure while it runs (R190's Fail, R258). -/
def failRun (k : ErrKind) (pos : Nat) (d : DecRun) (s : State) : State :=
  raise (.msgdec d.last d.cnt) k pos s

/-- A header word taken (R175): the three checks, then the token comes next with the cursor at 4. -/
def takeHeader (ver typ : BitVec 2) (tkl : BitVec 4) (code : BitVec 8) (mid : BitVec 16) (s : State) : Outcome :=
  match s.engine with
  | .msgdec d =>
    match d.stage with
    | .header =>
      match headerCheck ver tkl s.rxLen with
      | some k => .next (failRun k 4 d s)
      | none =>
        .next
          { s with
            engine := .msgdec { d with stage := .token, cur := 4, ver := ver, typ := typ, tkl := tkl, code := code, mid := mid } }
    | _ => outOfPlace
  | _ => outOfPlace

/-- HDR (R175). -/
def execHdr (typ : BitVec 2) (tkl : BitVec 4) (code : BitVec 8) (mid : BitVec 16) (s : State) : Outcome :=
  takeHeader 1#2 typ tkl code mid s

/-- HDR.BADVER (R173): InvalidVersion at 4. -/
def execHdrBadver (ver typ : BitVec 2) (tkl : BitVec 4) (code : BitVec 8) (mid : BitVec 16) (s : State) : Outcome :=
  takeHeader ver typ tkl code mid s

/-- HDR.BADTKL (R174): InvalidTokenLength at 4. -/
def execHdrBadtkl (typ : BitVec 2) (tkl : BitVec 4) (code : BitVec 8) (mid : BitVec 16) (s : State) : Outcome :=
  takeHeader 1#2 typ tkl code mid s

/-- TOKEN taken (R177): copied, the cursor moves past it, the option loop begins. -/
def takeToken (bytes : List Byte) (d : DecRun) (s : State) : Outcome :=
  match d.stage with
  | .token =>
    .next { s with engine := .msgdec { d with stage := .option, token := bytes, cur := d.cur + bytes.length } }
  | _ => outOfPlace

/-- MARK (R179): consumed, and the option loop ends. -/
def execMark (s : State) : Outcome :=
  match s.engine with
  | .msgdec d =>
    match d.stage with
    | .option => .next { s with engine := .msgdec { d with stage := .payload, cur := d.cur + 1 } }
    | _ => outOfPlace
  | _ => outOfPlace

/-- An option header byte taken (R180): consumed, and its delta nibble comes next (R182). -/
def takeOptionHead (dn ln : Nibble) (d : DecRun) (s : State) : Outcome :=
  match d.stage with
  | .option => .next { s with engine := .msgdec { d with stage := .delta dn ln, cur := d.cur + 1 } }
  | _ => outOfPlace

/-- OPT.DRSVD (R181): the byte is consumed and ReservedNibble is raised at the cursor after it. -/
def execOptDrsvd (_ln : Nibble) (s : State) : Outcome :=
  match s.engine with
  | .msgdec d =>
    match d.stage with
    | .option => .next (failRun .reservedNibble (d.cur + 1) d s)
    | _ => outOfPlace
  | _ => outOfPlace

/-- OPT.LRSVD (R182, R183): the delta is decoded first; the length nibble 15 then raises ReservedNibble. -/
def execOptLrsvd (dn : Nibble) (s : State) : Outcome :=
  match s.engine with
  | .msgdec d => takeOptionHead dn 15#4 d s
  | _ => outOfPlace

/-- VALUE taken (R185, R186): the value must fit; then it is skipped, unread, and the option is accepted. -/
def takeValue (d : DecRun) (s : State) : Outcome :=
  match d.stage with
  | .value =>
    if s.rxLen - d.cur < d.length then .next (failRun .truncatedBuffer d.cur d s)
    else
      .next
        { s with
          trace := s.trace ++ [{ num := d.last, off := d.cur, length := d.length }],
          engine := .msgdec { d with stage := .option, cur := d.cur + d.length, cnt := d.cnt + 1 } }
  | _ => outOfPlace

/-- PAYLOAD (R188): every byte from the cursor on; MSGDEC ends in success. -/
def execPayload (bytes : List Byte) (s : State) : Outcome :=
  match s.engine with
  | .msgdec d =>
    match d.stage with
    | .payload =>
      .next
        (finishMsgdec
          { ver := d.ver, typ := d.typ, tkl := d.tkl, code := d.code, mid := d.mid, token := d.token }
          { cur := d.cur, last := d.last, cnt := d.cnt, trace := s.trace } bytes s)
    | _ => outOfPlace
  | _ => outOfPlace

end Sys2Proof.Machine
end

