-- ==== Sys2Proof/Machine/Encoder.lean ====
section
/-! DEFINITION. MessageEncoder (41_encoder.md): the command MSGENC, and the emission of its wire items one at a time
into TXBUF. -/

namespace Sys2Proof.Machine

/-! ## The command -/

/-- One Uri-Path option (R155): its delta is 11 minus the previous option number `prev` (R156). -/
def optionBytes (prev : Nat) (seg : List Byte) : Option (List Byte) := optionItem (11 - prev) seg

/-- The options of the segments in order (R155); the previous option number is 11 after the first (R156). -/
def optionsBytes (prev : Nat) : List (List Byte) → Option (List Byte)
  | [] => some []
  | seg :: rest =>
    match optionBytes prev seg, optionsBytes 11 rest with
    | some a, some b => some (a ++ b)
    | _, _ => none

/-- The packet: header (R152), token (R153), one option per segment (R155), no MARK and no PAYLOAD (R157). -/
def packetBytes (tkl : BitVec 4) (mid : BitVec 16) (token pathBytes : List Byte) : Option (List Byte) :=
  match optionsBytes 0 (segments pathBytes) with
  | some opts => some (encode (.gethdr tkl mid) ++ token ++ opts)
  | none => none

/-- The token bytes MSGENC uses, TOKSRC[0 .. ENC_TKL) (R50). -/
def State.tokenSource (s : State) : List Byte := s.tokSrc.toList.take s.encTkl.toNat

/-- The path, PATHBUF[0 .. PATHLEN) (R43). -/
def State.pathBytes (s : State) : List Byte := bytesFrom s.pathByte 0 s.pathLen

/-- The operands of MSGENC are legal (R151). -/
def msgencLegal (s : State) : Bool := decide (s.encTkl.toNat ≤ 8) && decide (s.pathLen ≤ s.cfg.pathMax)

/-- The result registers of a MSGENC that emitted `n` bytes (R158). -/
def finishMsgenc (n : Nat) (s : State) : State :=
  succeed .encv { s with txLen := n, midOut := s.midSrc, tokOut := pad8 s.tokenSource }

/-- MSGENC (R150, R151, R257). -/
def execMsgenc (s : State) : Outcome :=
  if msgencLegal s then
    match packetBytes s.encTkl s.midSrc s.tokenSource s.pathBytes with
    | none => .fault .uvarUndefined
    | some packet =>
      if packet.length ≤ s.cfg.txMax then
        .next (finishMsgenc packet.length { s with tx := s.tx.writeBytes 0 packet })
      else .fault .txOverflow
  else .next (raise .msgenc .badParam 0 s)

/-! ## Emission, one item at a time -/

/-- Emits `bs` at the write index and goes on as `e` says (R150's `MemWrite(TX, wp, …); wp = wp + …`). -/
def emitBytes (bs : List Byte) (e : EncRun) (s : State) : Outcome :=
  if e.wp + bs.length ≤ s.cfg.txMax then
    .next { s with tx := s.tx.writeBytes e.wp bs, engine := .msgenc { e with wp := e.wp + bs.length } }
  else .fault .txOverflow

/-- The next segment from read index `rp` on: its first index and the index after it; both PATHLEN if there is
none (R150, R154). -/
def nextSegment (s : State) (rp : Nat) : Nat × Nat :=
  let start := skipSeparators s.pathByte s.pathLen s.pathLen rp
  (start, segmentEnd s.pathByte s.pathLen s.pathLen start)

/-- What follows an option header byte with length nibble `ln`: the length extension, or the value (R96, R99). -/
def afterOptionHead (ln : Nibble) : EncStage :=
  match nibClass ln with
  | .ext8 => .ext false
  | .ext16 => .ext true
  | _ => .value

/-- GETHDR (R94, R152): the four header bytes. -/
def execGethdr (tkl : BitVec 4) (mid : BitVec 16) (s : State) : Outcome :=
  match s.engine with
  | .msgenc e =>
    match e.stage with
    | .header => emitBytes (encode (.gethdr tkl mid)) { e with stage := .token } s
    | _ => outOfPlace
  | _ => outOfPlace

/-- TOKEN emitted (R153). -/
def emitToken (bytes : List Byte) (e : EncRun) (s : State) : Outcome :=
  match e.stage with
  | .token => emitBytes bytes { e with stage := .options } s
  | _ => outOfPlace

/-- An option header byte emitted; the read index moves past the segment it stands for (R150, R155). -/
def emitOptionHead (dn ln : Nibble) (e : EncRun) (s : State) : Outcome :=
  match e.stage with
  | .options =>
    emitBytes [joinNibbles dn ln]
      { e with stage := afterOptionHead ln, start := (nextSegment s e.rp).1, rp := (nextSegment s e.rp).2 } s
  | _ => outOfPlace

/-- A length extension emitted (R155). -/
def emitExt (wide : Bool) (bytes : List Byte) (e : EncRun) (s : State) : Outcome :=
  match e.stage with
  | .ext w => if w = wide then emitBytes bytes { e with stage := .value } s else outOfPlace
  | _ => outOfPlace

/-- The segment's raw bytes emitted (R155); the previous option number is then 11 (R156). -/
def emitValue (bytes : List Byte) (e : EncRun) (s : State) : Outcome :=
  match e.stage with
  | .value => emitBytes bytes { e with stage := .options, prev := 11 } s
  | _ => outOfPlace

end Sys2Proof.Machine
end

