-- ==== Sys2Proof/Machine/Items.lean ====
section
/-! DEFINITION. The wire items that a running MSGDEC or UVDEC takes AND a running MSGENC emits: OPT, EXT8, EXT16, TOKEN,
VALUE. Which of the two is decided by the command that runs. -/

namespace Sys2Proof.Machine

/-- OPT: taken by MSGDEC (R180) or emitted by MSGENC (R155). -/
def execOpt (dn ln : Nibble) (s : State) : Outcome :=
  match s.engine with
  | .msgdec d => takeOptionHead dn ln d s
  | .msgenc e => emitOptionHead dn ln e s
  | _ => outOfPlace

/-- EXT8: taken by UvarDecode (R131), value 13 + e, or emitted by MSGENC as a length extension (R155). -/
def execExt8 (e : Byte) (s : State) : Outcome :=
  match s.engine with
  | .msgenc run => emitExt false [e] run s
  | _ =>
    match uvarPos s with
    | .ext false cur => .next (deliver (13 + e.toNat) (cur + 1) [e] s)
    | _ => outOfPlace

/-- EXT16: taken by UvarDecode (R131), value 269 + be16(h, l), or emitted by MSGENC as a length extension (R155). -/
def execExt16 (h l : Byte) (s : State) : Outcome :=
  match s.engine with
  | .msgenc run => emitExt true [h, l] run s
  | _ =>
    match uvarPos s with
    | .ext true cur => .next (deliver (269 + (be16 h l).toNat) (cur + 2) [h, l] s)
    | _ => outOfPlace

/-- TOKEN: taken by MSGDEC (R177) or emitted by MSGENC (R153). -/
def execToken (bytes : List Byte) (s : State) : Outcome :=
  match s.engine with
  | .msgdec d => takeToken bytes d s
  | .msgenc e => emitToken bytes e s
  | _ => outOfPlace

/-- VALUE: skipped by MSGDEC, its bytes not looked at (R186), or emitted by MSGENC (R155). -/
def execValue (bytes : List Byte) (s : State) : Outcome :=
  match s.engine with
  | .msgdec d => takeValue d s
  | .msgenc e => emitValue bytes e s
  | _ => outOfPlace

end Sys2Proof.Machine
end

