-- ==== Sys2Proof/Machine/Dispatch.lean ====
section
/-! DEFINITION. One arm per instruction, each a direct call of its meaning. -/

namespace Sys2Proof.Machine

def exec (i : Instr) (s : State) : Host.Outcome State Fault Refusal :=
  match i with
  -- commands
  | .uvenc => Sys2Proof.Machine.execUvenc s
  | .uvdec => Sys2Proof.Machine.execUvdec s
  | .msgenc => Sys2Proof.Machine.execMsgenc s
  | .msgdec => Sys2Proof.Machine.execMsgdec s
  | .fmt => Sys2Proof.Machine.execFmt s
  | .clear => Sys2Proof.Machine.execClear s
  | .badcmd opcode => Sys2Proof.Machine.execBadcmd opcode s
  -- header words
  | .hdr typ tkl code mid => Sys2Proof.Machine.execHdr typ tkl code mid s
  | .hdrBadver ver typ tkl code mid => Sys2Proof.Machine.execHdrBadver ver typ tkl code mid s
  | .hdrBadtkl typ tkl code mid => Sys2Proof.Machine.execHdrBadtkl typ tkl code mid s
  | .gethdr tkl mid => Sys2Proof.Machine.execGethdr tkl mid s
  -- option header position
  | .mark => Sys2Proof.Machine.execMark s
  | .optDrsvd ln => Sys2Proof.Machine.execOptDrsvd ln s
  | .optLrsvd dn => Sys2Proof.Machine.execOptLrsvd dn s
  | .opt dn ln => Sys2Proof.Machine.execOpt dn ln s
  -- nibbles and extensions
  | .nibLit nib => Sys2Proof.Machine.execNibLit nib s
  | .nibExt8 => Sys2Proof.Machine.execNibExt8 s
  | .nibExt16 => Sys2Proof.Machine.execNibExt16 s
  | .nibRsvd => Sys2Proof.Machine.execNibRsvd s
  | .ext8 e => Sys2Proof.Machine.execExt8 e s
  | .ext16 h l => Sys2Proof.Machine.execExt16 h l s
  -- code byte and runs of bytes
  | .code cls detail => Sys2Proof.Machine.execCode cls detail s
  | .token bytes => Sys2Proof.Machine.execToken bytes s
  | .value bytes => Sys2Proof.Machine.execValue bytes s
  | .payload bytes => Sys2Proof.Machine.execPayload bytes s

end Sys2Proof.Machine
end

