-- ==== Sys2Proof/Machine/Fetch.lean ====
section
/-! DEFINITION. Fetching: the wire item a running command takes or emits next (42_decoder.md R178, "this hardware's
fetch"; R190; R70), and one step of a running command. The bytes are read through the cursor and given to the decoder
together with the slot they stand in. -/

namespace Sys2Proof.Machine

/-! ## A command before its first item -/

/-- UVDEC begun: the cursor starts at UV_CUR (R56). -/
def startUvdec (s : State) : State := { s with engine := .uvdec { stage := .nibble, cur := s.uvCur } }

/-- MSGENC begun: `rp`, `wp` and `prev` start at 0 (R56). -/
def startMsgenc (s : State) : State :=
  { s with engine := .msgenc { stage := .header, rp := 0, wp := 0, prev := 0, start := 0 } }

/-- MSGDEC begun: (Header, 0, 0, 0, empty) of R190; the option trace is emptied (R44). -/
def startMsgdec (s : State) : State := { s with engine := .msgdec .start, trace := [] }

/-- FMT begun. -/
def startFmt (s : State) : State := { s with engine := .fmt }

/-! ## What comes next -/

/-- What a running command does next. -/
inductive Fetched where
  /-- It takes the item these bytes are, in this slot. -/
  | bytes (slot : Slot) (bs : List Byte)
  /-- It emits this item. -/
  | emit (i : Instr)
  /-- No header can be read: fewer than 4 bytes (R172). -/
  | headerShort
  /-- The option loop has reached the end of the buffer (R178). -/
  | optionsEnd
  /-- Every segment has been emitted (R157). -/
  | packetEnd
  /-- UvarEncode is undefined on the segment's length (R134). -/
  | undefinedLength
  /-- No command runs. -/
  | nothing
  deriving DecidableEq, Repr

/-- What a running UVDEC takes next (R131, R135). -/
def fetchUvdec (u : UvRun) (s : State) : Fetched :=
  match u.stage with
  | .nibble => .bytes .nibble [joinNibbles 0#4 s.uvNib]
  | .ext false => .bytes .ext8 [s.rxByte u.cur]
  | .ext true => .bytes .ext16 [s.rxByte u.cur, s.rxByte (u.cur + 1)]

/-- What a running MSGDEC takes next (R190). -/
def fetchMsgdec (d : DecRun) (s : State) : Fetched :=
  match d.stage with
  | .header => if s.rxLen < 4 then .headerShort else .bytes .header (bytesFrom s.rxByte 0 4)
  | .token => .bytes (.token d.tkl.toNat) (bytesFrom s.rxByte d.cur d.tkl.toNat)
  | .option => if d.cur < s.rxLen then .bytes .optionHead [s.rxByte d.cur] else .optionsEnd
  | .delta dn _ => .bytes .nibble [joinNibbles 0#4 dn]
  | .length ln => .bytes .nibble [joinNibbles 0#4 ln]
  | .deltaExt false _ => .bytes .ext8 [s.rxByte d.cur]
  | .deltaExt true _ => .bytes .ext16 [s.rxByte d.cur, s.rxByte (d.cur + 1)]
  | .lengthExt false => .bytes .ext8 [s.rxByte d.cur]
  | .lengthExt true => .bytes .ext16 [s.rxByte d.cur, s.rxByte (d.cur + 1)]
  | .value =>
    .bytes (.value (min d.length (s.rxLen - d.cur))) (bytesFrom s.rxByte d.cur (min d.length (s.rxLen - d.cur)))
  | .payload => .bytes .payload (bytesFrom s.rxByte d.cur (s.rxLen - d.cur))

/-- The option header byte MSGENC emits for the segment from `start` to `stop` (R155, R156). -/
def optionHeadItem (prev start stop : Nat) : Fetched :=
  match uvarEncode (11 - prev), uvarEncode (stop - start) with
  | some (dn, _), some (ln, _) => .emit (.opt dn ln)
  | _, _ => .undefinedLength

/-- The length extension MSGENC emits for a segment of `n` bytes (R155). -/
def lengthExtItem (n : Nat) : Fetched :=
  match uvarEncode n with
  | some (_, [e]) => .emit (.ext8 e)
  | some (_, [h, l]) => .emit (.ext16 h l)
  | _ => .undefinedLength

/-- What a running MSGENC emits next (R150). -/
def fetchMsgenc (e : EncRun) (s : State) : Fetched :=
  match e.stage with
  | .header => .emit (.gethdr s.encTkl s.midSrc)
  | .token => .emit (.token s.tokenSource)
  | .options =>
    if (nextSegment s e.rp).1 < s.pathLen then
      optionHeadItem e.prev (nextSegment s e.rp).1 (nextSegment s e.rp).2
    else .packetEnd
  | .ext _ => lengthExtItem (e.rp - e.start)
  | .value => .emit (.value (bytesFrom s.pathByte e.start (e.rp - e.start)))

/-- What the running command does next. -/
def fetch (s : State) : Fetched :=
  match s.engine with
  | .idle => .nothing
  | .uvdec u => fetchUvdec u s
  | .msgenc e => fetchMsgenc e s
  | .msgdec d => fetchMsgdec d s
  | .fmt => .bytes .code [s.fmtCode]

/-- MSGDEC's stages that take no item: a header that cannot be read (R172), and the move to the Payload stage
(R190). -/
def endOptions (s : State) : State :=
  match s.engine with
  | .msgdec d => { s with engine := .msgdec { d with stage := .payload } }
  | _ => s

/-- A datagram too short for a header (R172). -/
def shortHeader (s : State) : State :=
  match s.engine with
  | .msgdec d => failRun .truncatedBuffer 0 d s
  | _ => s

/-- MSGENC after its last segment: the results (R158). -/
def endPacket (s : State) : State :=
  match s.engine with
  | .msgenc e => finishMsgenc e.wp s
  | _ => s

/-- One step of the running command: the next item is fetched, decoded and executed. -/
def engineStep (s : State) : Outcome :=
  match fetch s with
  | .bytes slot bs =>
    match decode slot bs with
    | .ok i _ => exec i s
    | .rejected _ => outOfPlace
  | .emit i => exec i s
  | .headerShort => .next (shortHeader s)
  | .optionsEnd => .next (endOptions s)
  | .packetEnd => .next (endPacket s)
  | .undefinedLength => .fault .uvarUndefined
  | .nothing => .next s

end Sys2Proof.Machine
end

