-- ==== Sys2Proof/Machine/HostPort.lean ====
section
/-! DEFINITION. The host transactions (44_control.md R220 to R224) and reset (R280), and the reference bus map (20_memory.md R67)
as a translation of bus accesses into transactions. -/

namespace Sys2Proof.Machine

/-! ## Register space -/

/-- `ReadReg(no)`: the value of a register, 0 for a reserved number (R21, R221, R223). -/
def readRegister (s : State) (no : BitVec 6) : Nat :=
  match no.toNat with
  | 0 => s.cmd.toNat
  | 1 => s.status.toNat
  | 2 => s.errKind.toNat
  | 3 => s.errPos
  | 4 => s.uvVal.toNat
  | 5 => s.uvNib.toNat
  | 6 => s.uvExtLen.toNat
  | 7 => s.uvCur
  | 8 => s.encTkl.toNat
  | 9 => s.midSrc.toNat
  | 10 => s.pathLen
  | 11 => s.txLen
  | 12 => s.midOut.toNat
  | 13 => s.rxLen
  | 14 => s.decVer.toNat
  | 15 => s.decType.toNat
  | 16 => s.decTkl.toNat
  | 17 => s.decCode.toNat
  | 18 => s.decMid.toNat
  | 19 => s.payOff
  | 20 => s.payLen
  | 21 => s.optLast.toNat
  | 22 => s.optCnt
  | 23 => s.fmtCode.toNat
  | 24 => s.fmtClass.toNat
  | 25 => s.fmtDetail.toNat
  | _ => 0

/-- The width of a register in bits (R21); 0 for a reserved number. -/
def registerWidth (p : Config.Params) (no : BitVec 6) : Nat :=
  match no.toNat with
  | 0 => 8
  | 1 => 8
  | 2 => 4
  | 3 => p.curW
  | 4 => 32
  | 5 => 4
  | 6 => 2
  | 7 => p.curW
  | 8 => 4
  | 9 => 16
  | 10 => p.curW
  | 11 => p.curW
  | 12 => 16
  | 13 => p.curW
  | 14 => 2
  | 15 => 2
  | 16 => 4
  | 17 => 8
  | 18 => 16
  | 19 => p.curW
  | 20 => p.curW
  | 21 => 32
  | 22 => p.curW
  | 23 => 8
  | 24 => 3
  | 25 => 5
  | _ => 0

/-- The access of a register (R21): the host may write it and the write stores (`RW`). -/
def writable (no : BitVec 6) : Bool :=
  match no.toNat with
  | 4 => true
  | 5 => true
  | 7 => true
  | 8 => true
  | 9 => true
  | 10 => true
  | 13 => true
  | 23 => true
  | _ => false

/-- A value cut to CURW bits; R221 gives a write the register's width, so nothing is lost (log entry 5). -/
def State.fit (s : State) (v : Nat) : Nat := v % 2 ^ s.cfg.curW

/-- `WriteReg(no, v)` for `no` other than CMD: a RW register stores the value, any other number ignores it (R221,
R223). -/
def writeRegister (s : State) (no : BitVec 6) (v : Nat) : State :=
  match no.toNat with
  | 4 => { s with uvVal := BitVec.ofNat 32 v }
  | 5 => { s with uvNib := BitVec.ofNat 4 v }
  | 7 => { s with uvCur := s.fit v }
  | 8 => { s with encTkl := BitVec.ofNat 4 v }
  | 9 => { s with midSrc := BitVec.ofNat 16 v }
  | 10 => { s with pathLen := s.fit v }
  | 13 => { s with rxLen := s.fit v }
  | 23 => { s with fmtCode := BitVec.ofNat 8 v }
  | _ => s

/-! ## Byte space -/

/-- The capacity of a byte space (R222); an id above 7 has none (R72). -/
def capacity (p : Config.Params) (id : Nat) : Nat :=
  match id with
  | 0 => p.rxMax
  | 1 => p.txMax
  | 2 => p.pathMax
  | 3 => 8
  | 4 => 8
  | 5 => 8
  | 6 => 2
  | 7 => 4
  | _ => 0

/-- The byte at `idx` of byte space `id`; none if it is a buffer byte never written (R55). -/
def byteAtSpace (s : State) (id idx : Nat) : Option Byte :=
  match id with
  | 0 => s.rx.read idx
  | 1 => s.tx.read idx
  | 2 => s.path.read idx
  | 3 => s.tokSrc.toList[idx]?
  | 4 => s.tokOut.toList[idx]?
  | 5 => s.decToken.toList[idx]?
  | 6 => s.uvExt.toList[idx]?
  | 7 => s.fmtStr.toList[idx]?
  | _ => none

/-- `ReadBuf(id, idx)` (R222, R72): 0 outside; a never-written byte reads as the free value that a command
reads there (log entries 2, 3). No read changes anything but the reply (R65). -/
def readBuffer (s : State) (id idx : Nat) : State :=
  if idx < capacity s.cfg id then
    match byteAtSpace s id idx with
    | some b => { s with reply := some b.toNat }
    | none => { s with reply := some (Config.freeByte s.draws id idx).toNat }
  else { s with reply := some 0 }

/-- `WriteBuf(id, idx, b)` (R222): RXBUF, PATHBUF and TOKSRC store, everything else ignores. -/
def writeBuffer (s : State) (id idx : Nat) (b : Byte) : State :=
  if idx < capacity s.cfg id then
    match id with
    | 0 => { s with rx := s.rx.write idx b }
    | 2 => { s with path := s.path.write idx b }
    | 3 => { s with tokSrc := s.tokSrc.setIfInBounds idx b }
    | _ => s
  else s

/-! ## The transactions -/

/-- Reset (R280, R57): the block as after power-on. Not the block's, and kept: the parameters and the host's list
(log entry 15). The buffers have unspecified content again, so it is drawn anew (log entry 3). -/
def resetBlock (s : State) : State :=
  { State.reset with cfg := s.cfg, host := s.host, draws := s.draws + 1 }

/-- A write of `v` to CMD: stores it, then runs the command with that opcode at once and to its end (R224). -/
def writeCmd (v : BitVec 8) (s : State) : Outcome := exec (decodeCmd v) { s with cmd := v }

/-- One host transaction, or reset. -/
def perform (t : HostTxn) (s : State) : Outcome :=
  match t with
  | .readReg no => .next { s with reply := some (readRegister s no) }
  | .writeReg no v =>
    if no = 0#6 then writeCmd (BitVec.ofNat 8 v) { s with reply := none }
    else .next (writeRegister { s with reply := none } no v)
  | .readBuf id idx => .next (readBuffer s id idx)
  | .writeBuf id idx b => .next (writeBuffer { s with reply := none } id idx b)
  | .reset => .next (resetBlock s)

/-! ## The reference bus map (R67) -/

/-- What stands at an offset of the reference map. -/
inductive BusTarget where
  | register (no : BitVec 6)
  | byte (id idx : Nat)
  /-- "offsets not listed read as 0 and ignore writes". -/
  | hole
  deriving DecidableEq, Repr

/-- R67's table of byte windows: the offset of a window's first byte, and its byte space. -/
def busWindows : List (Nat × Nat) :=
  [(0x100, 3), (0x108, 4), (0x110, 5), (0x118, 6), (0x11C, 7), (0x800, 0), (0x1000, 1), (0x1800, 2)]

/-- The byte that a table of windows gives at an offset; each window is as long as its byte space. -/
def windowTarget (p : Config.Params) (off : Nat) : List (Nat × Nat) → BusTarget
  | [] => .hole
  | (base, id) :: rest =>
    if base ≤ off ∧ off < base + capacity p id then .byte id (off - base) else windowTarget p off rest

/-- R67's table. A register slot is accessed as one 32-bit word, at its first offset (log entry 17). -/
def busTarget (p : Config.Params) (off : Nat) : BusTarget :=
  if off < 0x100 then
    if off % 4 = 0 then .register (BitVec.ofNat 6 (off / 4)) else .hole
  else windowTarget p off busWindows

/-- A bus read as a transaction; a hole reads 0, as a reserved register number does (R223). -/
def busRead (p : Config.Params) (off : Nat) : HostTxn :=
  match busTarget p off with
  | .register no => .readReg no
  | .byte id idx => .readBuf id idx
  | .hole => .readReg 63#6

/-- A bus write as a transaction; a hole ignores it, as a reserved register number does (R223). DESIGN CHOICE, unsafe (log
entry 17): R67 is silent on a value above 255 written to a byte window, and its low 8 bits are stored; a word wider than
its register is a WriteReg of that word (log entry 5). -/
def busWrite (p : Config.Params) (off v : Nat) : HostTxn :=
  match busTarget p off with
  | .register no => .writeReg no v
  | .byte id idx => .writeBuf id idx (BitVec.ofNat 8 v)
  | .hole => .writeReg 63#6 v

end Sys2Proof.Machine
end

