-- ==== Sys2Proof/Machine/Step.lean ====
section
/-! DEFINITION. One step of the block. Between commands a step is one host transaction (R296), a CMD write running its
whole command (R225); with none to come the engine stays idle (R281). Inside a command, a state that only R190's
step relation has, a step is one wire item. -/

namespace Sys2Proof.Machine

/-- One step. -/
def step (s : State) : Host.Outcome State Fault Refusal :=
  match s.engine with
  | .idle =>
    match s.host with
    | [] => .next s
    | t :: rest => perform t { s with host := rest }
  | _ => engineStep s

/-- `s` with the instruction of table word `w` where the next step takes it (log entry 12): a command as a CMD write at
the head of the host's list; a header word at RXBUF[0] of a MSGDEC that begins; an option header byte at RXBUF[4] of a
MSGDEC that has taken a header without a token; GETHDR as the operands of a MSGENC that begins; a nibble in UV_NIB of a
UVDEC that begins, and an EXT16 at RXBUF[0] of one that has taken the nibble 14, both with UV_CUR 0. -/
def State.withFetchWord (s : State) (nbits w : Nat) : State :=
  match decodeTableWord nbits w with
  | none => s
  | some i =>
    match slotOf i with
    | .cmd => { s with engine := .idle, host := .writeReg 0#6 (w % 256) :: s.host }
    | .nibble =>
      { s with engine := .uvdec { stage := .nibble, cur := 0 }, uvNib := BitVec.ofNat 4 w, uvCur := 0, rxLen := max s.rxLen 2 }
    | .ext16 =>
      { s with
        engine := .uvdec { stage := .ext true, cur := 0 }, uvNib := 14#4, uvCur := 0, rxLen := max s.rxLen 2,
        rx := s.rx.writeBytes 0 [byteAt w 1, byteAt w 0] }
    | .optionHead =>
      { s with
        engine := .msgdec { DecRun.start with stage := .option, cur := 4, ver := 1 }, trace := [], rxLen := max s.rxLen 5,
        rx := s.rx.write 4 (byteAt w 0) }
    | .getHeader =>
      { s with
        engine := .msgenc { stage := .header, rp := 0, wp := 0, prev := 0, start := 0 },
        encTkl := BitVec.ofNat 4 (w / 2 ^ 24), midSrc := BitVec.ofNat 16 w }
    | _ =>
      { s with
        engine := .msgdec .start, trace := [], rxLen := max s.rxLen 4,
        rx := s.rx.writeBytes 0 (headerBytes w) }

end Sys2Proof.Machine
end

