-- ==== Sys2Proof/Machine/Listing.lean ====
section
/-! DEFINITION. The notations of 30_encoding.md section 12 as data: a datagram listing that assembles to bytes (R120, R121), a
host script that runs transactions and checks expectations (R122), and the datagram of R90's grammar. -/

namespace Sys2Proof.Machine

/-! ## Datagram listing -/

/-- A line of a datagram listing (R120, R121). An OPT line's `len` is the count of its bytes. -/
inductive ListingLine where
  | hdr (ver typ : BitVec 2) (tkl : BitVec 4) (code : BitVec 8) (mid : BitVec 16)
  | token (bytes : List Byte)
  | opt (delta : Nat) (value : List Byte)
  | optRaw (head : Byte) (ext value : List Byte)
  | mark
  | payload (bytes : List Byte)
  | uriPath (bytes : List Byte)
  | get (token : List Byte) (mid : BitVec 16) (path : List Byte)
  deriving DecidableEq, Repr

/-- What stands before a line, as URIPATH's delta asks (R121). -/
inductive LastOption where
  /-- No option yet: a URIPATH here is "the first option of the listing". -/
  | none
  /-- "the previous item is also a `URIPATH`". -/
  | uriPath
  /-- An option stands before, and the previous item is no URIPATH: R121 gives a URIPATH here no delta. -/
  | other
  deriving DecidableEq, Repr

/-- What stands before the line after one that is no option. -/
def LastOption.passItem : LastOption → LastOption
  | .none => .none
  | .uriPath => .other
  | .other => .other

/-- The bytes of one line, and what then stands before the next; none where UvarEncode is undefined, or where R121 gives
a URIPATH no delta: that such a line has no bytes, and that a GET after an option has those of R112 all the same, is the
model's choice (log entry 16). -/
def ListingLine.assemble (last : LastOption) : ListingLine → Option (List Byte × LastOption)
  | .hdr ver typ tkl code mid => some ([packFirst ver typ tkl, code, highByte mid, lowByte mid], last.passItem)
  | .token bytes => some (bytes, last.passItem)
  | .opt delta value => (optionItem delta value).map fun bs => (bs, .other)
  | .optRaw head ext value => some (head :: (ext ++ value), .other)
  | .mark => some (encode .mark, last.passItem)
  | .payload bytes => some (bytes, last.passItem)
  | .uriPath bytes =>
    match last with
    | .none => (optionItem 11 bytes).map fun bs => (bs, .uriPath)
    | .uriPath => (optionItem 0 bytes).map fun bs => (bs, .uriPath)
    | .other => Option.none
  | .get tok mid pathBytes =>
    (packetBytes (BitVec.ofNat 4 tok.length) mid tok pathBytes).map fun bs =>
      (bs, if segments pathBytes = [] then last.passItem else .uriPath)

/-- The bytes of a listing. -/
def assembleFrom (last : LastOption) : List ListingLine → Option (List Byte)
  | [] => some []
  | l :: ls =>
    match l.assemble last with
    | some (bs, last') => (assembleFrom last' ls).map fun rest => bs ++ rest
    | none => none

/-- The bytes of a listing from its first line on. -/
def assemble (ls : List ListingLine) : Option (List Byte) := assembleFrom .none ls

/-! ## Host script -/

/-- A line of a host script (R122). -/
inductive ScriptLine where
  /-- WRREG -/
  | wrReg (no : BitVec 6) (v : Nat)
  /-- WRBUF -/
  | wrBuf (id idx : Nat) (bytes : List Byte)
  /-- LOAD RX -/
  | loadRx (bytes : List Byte)
  /-- LOAD PATH -/
  | loadPath (bytes : List Byte)
  /-- CMD -/
  | cmd (opcode : Byte)
  /-- EXPECT of a register -/
  | expectReg (no : BitVec 6) (v : Nat)
  /-- EXPECT of consecutive bytes of a buffer or array -/
  | expectBuf (id idx : Nat) (bytes : List Byte)
  deriving DecidableEq, Repr

/-- WriteBuf for consecutive indexes (R122). -/
def writeBytesTxns (id idx : Nat) : List Byte → List HostTxn
  | [] => []
  | b :: bs => .writeBuf id idx b :: writeBytesTxns id (idx + 1) bs

/-- The transactions of a line that writes (R122); an EXPECT line has none here, see `runScript`. -/
def ScriptLine.txns : ScriptLine → List HostTxn
  | .wrReg no v => [.writeReg no v]
  | .wrBuf id idx bytes => writeBytesTxns id idx bytes
  | .loadRx bytes => writeBytesTxns 0 0 bytes ++ [.writeReg 13#6 bytes.length]
  | .loadPath bytes => writeBytesTxns 2 0 bytes ++ [.writeReg 10#6 bytes.length]
  | .cmd opcode => [.writeReg 0#6 opcode.toNat]
  | .expectReg _ _ => []
  | .expectBuf _ _ _ => []

/-- Performs transactions in order; none if one does not answer a next state. -/
def performAll : List HostTxn → State → Option State
  | [], s => some s
  | t :: ts, s =>
    match perform t s with
    | .next s' => performAll ts s'
    | _ => none

/-- Reads consecutive bytes and compares each reply. -/
def expectBytes (id idx : Nat) : List Byte → State → Option State
  | [], s => some s
  | b :: bs, s =>
    match perform (.readBuf id idx) s with
    | .next s' => if s'.reply = some b.toNat then expectBytes id (idx + 1) bs s' else none
    | _ => none

/-- One line of a script; none if an expectation is not met. -/
def ScriptLine.run (l : ScriptLine) (s : State) : Option State :=
  match l with
  | .expectReg no v =>
    match perform (.readReg no) s with
    | .next s' => if s'.reply = some v then some s' else none
    | _ => none
  | .expectBuf id idx bytes => expectBytes id idx bytes s
  | _ => performAll l.txns s

/-- A script: none if a line's expectation is not met. -/
def runScript : List ScriptLine → State → Option State
  | [], s => some s
  | l :: ls, s =>
    match l.run s with
    | some s' => runScript ls s'
    | none => none

/-! ## A well-formed datagram (R90) -/

/-- An option by its delta and its value (R102). -/
structure Opt where
  delta : Nat
  value : List Byte
  deriving DecidableEq, Repr

/-- Both extended values have an encoding (R100). -/
def Opt.wf (o : Opt) : Bool := decide (o.delta ≤ 65804) && decide (o.value.length ≤ 65804)

/-- A datagram by R90's grammar, with an accepted header: `payload` is none when there is no MARK. -/
structure Datagram where
  typ : BitVec 2
  code : BitVec 8
  mid : BitVec 16
  token : List Byte
  opts : List Opt
  payload : Option (List Byte)
  deriving DecidableEq, Repr

/-- The token has at most 8 bytes and every option has an encoding. -/
def Datagram.wf (d : Datagram) : Bool := decide (d.token.length ≤ 8) && d.opts.all Opt.wf

/-- The bytes of options in order. -/
def optsBytes : List Opt → List Byte
  | [] => []
  | o :: os => (optionItem o.delta o.value).getD [] ++ optsBytes os

/-- MARK and PAYLOAD, or nothing (R91). -/
def tailBytes : Option (List Byte) → List Byte
  | none => []
  | some bs => 0xFF#8 :: bs

/-- The token length field of the header (R95). -/
def Datagram.tkl (d : Datagram) : BitVec 4 := BitVec.ofNat 4 d.token.length

/-- The bytes of a datagram (R90). -/
def Datagram.bytes (d : Datagram) : List Byte :=
  encode (.hdr d.typ d.tkl d.code d.mid) ++ d.token ++ optsBytes d.opts ++ tailBytes d.payload

/-- The trace of options walked from index `cur` after option number `last` (R44, R184, R186). -/
def optsTrace (cur last : Nat) : List Opt → List OptionEvent
  | [] => []
  | o :: os =>
    let size := ((optionItem o.delta o.value).getD []).length
    { num := last + o.delta, off := cur + (size - o.value.length), length := o.value.length }
      :: optsTrace (cur + size) (last + o.delta) os

/-- The option number after the options (R102). -/
def optsLast (last : Nat) (os : List Opt) : Nat := last + (os.map Opt.delta).sum

end Sys2Proof.Machine
end

