-- ==== Sys2Proof/Safety.lean ====
section
/-! DEFINITION. The terms claims are stated in: what the machine is after reset, what it is for a buffer to hold bytes,
the request of 41_encoder.md's tables, the first failure of an option by 60_exceptions.md R251, and the invariants of
a run. -/

namespace Sys2Proof.Machine

/-! ## After reset -/

/-- R57: every register number reads 0, every array byte is 0, every buffer byte is never written, the option trace
is empty and no command runs. -/
def AfterReset (s : State) : Prop :=
  (∀ no, readRegister s no = 0) ∧
  (∀ id idx, 3 ≤ id → id ≤ 7 → idx < capacity s.cfg id → byteAtSpace s id idx = some 0) ∧
  (∀ id idx, id ≤ 2 → byteAtSpace s id idx = none) ∧
  s.trace = [] ∧ s.engine = .idle

/-! ## Buffers that hold bytes -/

/-- RXBUF[0 .. RXLEN) is `bs`, every byte of it written (R30). -/
def State.holdsDatagram (s : State) (bs : List Byte) : Prop :=
  s.rxLen = bs.length ∧ ∀ i, i < bs.length → s.rx.read i = bs[i]?

/-- The datagram, RXBUF[0 .. RXLEN), as a command reads it: a byte never written is a free value (R283). -/
def State.datagram (s : State) : List Byte := bytesFrom s.rxByte 0 s.rxLen

/-- PATHBUF[0 .. PATHLEN) is `bs`, every byte of it written (R43). -/
def State.holdsPath (s : State) (bs : List Byte) : Prop :=
  s.pathLen = bs.length ∧ ∀ i, i < bs.length → s.path.read i = bs[i]?

/-! ## The request, by the tables of R94 and R155 -/

/-- R155's table: one Uri-Path option by the segment's byte count. -/
def uriPathItem (first : Bool) (seg : List Byte) : List Byte :=
  let base := if first then 0xB0 else 0x00
  if seg.length ≤ 12 then BitVec.ofNat 8 (base + seg.length) :: seg
  else if seg.length ≤ 268 then BitVec.ofNat 8 (base + 13) :: BitVec.ofNat 8 (seg.length - 13) :: seg
  else
    BitVec.ofNat 8 (base + 14) :: BitVec.ofNat 8 ((seg.length - 269) / 256)
      :: BitVec.ofNat 8 ((seg.length - 269) % 256) :: seg

/-- One option per segment, the first with delta 11, the later ones with delta 0 (R112, R156). -/
def uriPathItems (first : Bool) : List (List Byte) → List Byte
  | [] => []
  | seg :: rest => uriPathItem first seg ++ uriPathItems false rest

/-- The request datagram (R94, R112, R152, R153, R157). -/
def requestPacket (tkl : Nat) (mid : Nat) (token : List Byte) (segs : List (List Byte)) : List Byte :=
  [BitVec.ofNat 8 (0x40 + tkl), 0x01#8, BitVec.ofNat 8 (mid / 256), BitVec.ofNat 8 (mid % 256)]
    ++ token ++ uriPathItems true segs

/-! ## The first failure of an option -/

/-- The failure of the option whose header byte is the first of `rest`, `rest` reaching to the end of the buffer: its
kind, its offset from the header byte, and the delta that has been added by then; in the order of R251's items (6),
(7), (8). None if the option is well formed, or no option stands here. -/
def optionFailure (rest : List Byte) : Option (ErrKind × Nat × Nat) :=
  match rest with
  | [] => none
  | h :: more =>
    if h = 0xFF#8 then none
    else
      let d := (nibClass (hiNibble h)).extBytes
      let l := (nibClass (loNibble h)).extBytes
      if hiNibble h = 15#4 then some (.reservedNibble, 1, 0)
      else if more.length < d then some (.truncatedExtension, 1, 0)
      else if loNibble h = 15#4 then some (.reservedNibble, 1 + d, 0)
      else if more.length < d + l then some (.truncatedExtension, 1 + d, 0)
      else
        let delta := (extValue (hiNibble h) (more.getD 0 0) (more.getD 1 0)).getD 0
        let length := (extValue (loNibble h) (more.getD d 0) (more.getD (d + 1) 0)).getD 0
        if more.length - (d + l) < length then some (.truncatedBuffer, 1 + d + l, delta) else none

/-- The valid flag of a working command's unit (R23); none for any other instruction. -/
def ownFlag : Instr → Option ValidFlag
  | .uvenc => some .uvv
  | .uvdec => some .uvv
  | .msgenc => some .encv
  | .msgdec => some .decv
  | .fmt => some .fmtv
  | _ => none

/-! ## Invariants -/

/-- Every buffer is in its canonical form and lists no index outside its capacity (R55). -/
def State.buffersOk (s : State) : Prop :=
  (Memory.wf s.rx = true ∧ Memory.below s.cfg.rxMax s.rx = true) ∧
  (Memory.wf s.tx = true ∧ Memory.below s.cfg.txMax s.tx = true) ∧
  (Memory.wf s.path = true ∧ Memory.below s.cfg.pathMax s.path = true)

/-- STATUS, ERRKIND and ERRPOS: bits 3:2 are 0 (R23), ERRKIND is a code that is produced (R240), ERR says whether it is
non-zero (R24), ERRPOS is 0 after a success and after BadCommand, BadParam and UvarRange (R25), and before DONE all
three report registers are 0 (R23, R57). -/
def State.reportOk (s : State) : Prop :=
  (s.status.getLsbD 2 = false ∧ s.status.getLsbD 3 = false) ∧
  s.errKind ∈ [0#4, 1#4, 2#4, 3#4, 4#4, 5#4, 8#4, 9#4, 10#4] ∧
  (s.err = true ↔ s.errKind ≠ 0#4) ∧
  (s.errKind ∈ [0#4, 8#4, 9#4, 10#4] → s.errPos = 0) ∧
  (s.done = false → s.status = 0#8 ∧ s.errKind = 0#4 ∧ s.errPos = 0)

/-- How many bytes an extension has. -/
def extWidth (wide : Bool) : Nat := if wide then 2 else 1

/-- A running UVDEC: its operands were legal, its cursor is UV_CUR, and an extension it waits for fits (R135). -/
def UvRun.ok (u : UvRun) (s : State) : Prop :=
  s.rxLen ≤ s.cfg.rxMax ∧ u.cur = s.uvCur ∧ u.cur ≤ s.rxLen ∧
  (match u.stage with
    | .nibble => True
    | .ext wide => u.cur + extWidth wide ≤ s.rxLen)

/-- A running MSGENC: its operands were legal, TXBUF[0 .. wp) is written, the header goes to index 0, and after it bytes
2 and 3 are the message id (R150, R152). -/
def EncRun.ok (e : EncRun) (s : State) : Prop :=
  s.encTkl.toNat ≤ 8 ∧ s.pathLen ≤ s.cfg.pathMax ∧ e.wp ≤ s.cfg.txMax ∧
  (∀ i, i < e.wp → s.tx.read i ≠ none) ∧ (e.stage = .header → e.wp = 0) ∧
  (e.stage ≠ .header →
    4 ≤ e.wp ∧ s.tx.read 2 = some (highByte s.midSrc) ∧ s.tx.read 3 = some (lowByte s.midSrc))

/-- What a running MSGDEC's cursor, option number and option count satisfy at each stage: R40's bounds, R58's bound on the
sum of deltas, at most 21935 for each byte consumed, and that every option has consumed a byte (R187). -/
def DecRun.placed (d : DecRun) (s : State) : Prop :=
  match d.stage with
  | .header => d.cur = 0 ∧ d.last = 0 ∧ d.cnt = 0
  | .token => d.cur = 4 ∧ d.last = 0 ∧ d.cnt = 0 ∧ 4 + d.tkl.toNat ≤ s.rxLen
  | .option => d.cur ≤ s.rxLen ∧ d.last ≤ 21935 * d.cur ∧ d.cnt ≤ d.cur
  | .delta _ _ => d.cur ≤ s.rxLen ∧ d.last + 21935 ≤ 21935 * d.cur ∧ d.cnt < d.cur
  | .deltaExt wide _ => d.cur + extWidth wide ≤ s.rxLen ∧ d.last + 21935 ≤ 21935 * d.cur ∧ d.cnt < d.cur
  | .length _ => d.cur ≤ s.rxLen ∧ d.last + d.delta ≤ 21935 * d.cur ∧ d.cnt < d.cur
  | .lengthExt wide => d.cur + extWidth wide ≤ s.rxLen ∧ d.last + d.delta ≤ 21935 * d.cur ∧ d.cnt < d.cur
  | .value => d.cur ≤ s.rxLen ∧ d.last ≤ 21935 * d.cur ∧ d.cnt < d.cur ∧ d.length ≤ 65804
  | .payload => d.cur ≤ s.rxLen ∧ d.last ≤ 21935 * d.cur ∧ d.cnt ≤ d.cur

/-- A running MSGDEC: RXLEN was legal; the captured header was accepted and, once past the token, so was the token;
as many options are counted as traced (R39, R170). -/
def DecRun.ok (d : DecRun) (s : State) : Prop :=
  s.rxLen ≤ s.cfg.rxMax ∧ d.cnt = s.trace.length ∧ d.placed s ∧
  (d.stage ≠ .header → d.ver = 1#2 ∧ d.tkl.toNat ≤ 8) ∧
  (d.stage ≠ .header → d.stage ≠ .token → d.token.length = d.tkl.toNat ∧ 4 ≤ d.cur)

/-- The transient state of a running command is one that its item-by-item run reaches. -/
def State.transientOk (s : State) : Prop :=
  match s.engine with
  | .idle => True
  | .fmt => True
  | .uvdec u => u.ok s
  | .msgenc e => e.ok s
  | .msgdec d => d.ok s

/-- One trace record within its widths: 32 bits, CURW bits, 17 bits (R44). -/
def OptionEvent.fits (curW : Nat) (e : OptionEvent) : Prop :=
  e.num < 2 ^ 32 ∧ e.off < 2 ^ curW ∧ e.length ≤ 65804

/-- The transient values within their widths (R56's table): `cur`, `cnt`, `rp`, `wp` and the segment's start CURW bits,
`last` 32 bits, `delta` and `length` 17 bits, `prev` 4 bits. -/
def Engine.fits (curW : Nat) : Engine → Prop
  | .idle => True
  | .fmt => True
  | .uvdec u => u.cur < 2 ^ curW
  | .msgenc e => e.rp < 2 ^ curW ∧ e.wp < 2 ^ curW ∧ e.start < 2 ^ curW ∧ e.prev < 2 ^ 4
  | .msgdec d => d.cur < 2 ^ curW ∧ d.cnt < 2 ^ curW ∧ d.last < 2 ^ 32 ∧ d.delta < 2 ^ 17 ∧ d.length < 2 ^ 17

/-- R58: under legal parameters, no CURW-bit register, no trace record and no transient value exceeds its width; so the
`last` that MSGDEC stores in OPT_LAST never wraps. -/
def State.widthsOk (s : State) : Prop :=
  s.cfg.legal = true ∧
  (s.errPos < 2 ^ s.cfg.curW ∧ s.uvCur < 2 ^ s.cfg.curW ∧ s.pathLen < 2 ^ s.cfg.curW ∧ s.txLen < 2 ^ s.cfg.curW ∧
    s.rxLen < 2 ^ s.cfg.curW ∧ s.payOff < 2 ^ s.cfg.curW ∧ s.payLen < 2 ^ s.cfg.curW ∧ s.optCnt < 2 ^ s.cfg.curW) ∧
  (∀ e ∈ s.trace, e.fits s.cfg.curW) ∧ s.engine.fits s.cfg.curW

/-- The engine is not in the middle of a MSGDEC. -/
def State.noMsgdec (s : State) : Prop :=
  match s.engine with
  | .msgdec _ => False
  | _ => True

/-- The engine is not in the middle of a MSGENC. -/
def State.noMsgenc (s : State) : Prop :=
  match s.engine with
  | .msgenc _ => False
  | _ => True

/-- MessageDecoder: with DECV 1 the version is 1 and the token length at most 8 (R31, R33), the token is padded with 0
(R52) and PAY_LEN counts the payload (R37); with DECV 0 every result is 0 (R258). OPT_CNT counts the trace (R39). -/
def State.decodeOk (s : State) : Prop :=
  (s.valid .decv = true →
    s.decVer = 1#2 ∧ s.decTkl.toNat ≤ 8 ∧ s.payload.length = s.payLen ∧
    ∀ i (h : i < 8), s.decTkl.toNat ≤ i → s.decToken[i] = 0#8) ∧
  (s.valid .decv = false →
    s.decVer = 0#2 ∧ s.decType = 0#2 ∧ s.decTkl = 0#4 ∧ s.decCode = 0#8 ∧ s.decMid = 0#16 ∧ s.payOff = 0 ∧
    s.payLen = 0 ∧ s.decToken = zero8 ∧ s.payload = []) ∧
  (s.noMsgdec → s.optCnt = s.trace.length)

/-- MessageEncoder: with ENCV 1 the packet has at least its header, is written, and carries MIDOUT in bytes 2 and 3
(R45, R46); with ENCV 0 every result register is 0 (R257). -/
def State.encodeOk (s : State) : Prop :=
  (s.valid .encv = true → s.noMsgenc →
    4 ≤ s.txLen ∧ (∀ i, i < s.txLen → s.tx.read i ≠ none) ∧
    s.tx.read 2 = some (highByte s.midOut) ∧ s.tx.read 3 = some (lowByte s.midOut)) ∧
  (s.valid .encv = false → s.txLen = 0 ∧ s.midOut = 0#16 ∧ s.tokOut = zero8)

/-- UvarCodec and StatusFormatter: UV_EXTLEN is never 3 (R28), with UVV 0 the extension registers are 0 (R256); with
FMTV 1 FMTSTR is the string of FMT_CLASS and FMT_DETAIL (R54), with FMTV 0 it has not been written (R57). -/
def State.uvarFormatOk (s : State) : Prop :=
  s.uvExtLen ≠ 3#2 ∧
  (s.valid .uvv = false → s.uvExtLen = 0#2 ∧ s.uvExt = #v[0, 0]) ∧
  (s.valid .fmtv = true → s.fmtStr = formatString s.fmtClass s.fmtDetail) ∧
  (s.valid .fmtv = false → s.fmtClass = 0#3 ∧ s.fmtDetail = 0#5 ∧ s.fmtStr = #v[0, 0, 0, 0])

end Sys2Proof.Machine
end

