-- ==== Sys2Proof/Certificates/Slice0/Obligations.lean ====
section
/-! DEFINITION. The statements for the provers. Each docstring names the rule of spec/ it formalises. A statement about
a never-written byte holds whatever its free value is (log entry 2): it speaks of bytes through `State.rxByte` and
`State.pathByte`, or supposes them written. -/

open Sys2Proof Sys2Proof.Machine

/-! ## Reset -/

/-- R57: the state after reset; parameters and the host's side are the model's own and not spoken of. -/
def Obligations.ResetStateIsAllZero : Prop := AfterReset State.reset

/-- R280: the reset transaction answers a next state with exactly the effect of R57, from any state. That the parameters
and the transactions still to come are kept is the model's choice (log entry 15). -/
def Obligations.ResetTransactionResetsTheBlock : Prop :=
  ∀ s : State, ∃ t, perform .reset s = .next t ∧ AfterReset t ∧ t.cfg = s.cfg ∧ t.host = s.host

/-- R282: the five commands straight after reset, whatever the three buffers hold, since none reads a buffer byte. An
inference the spec marks as its own. -/
def Obligations.CommandsStraightAfterReset : Prop :=
  ∀ rx path : Memory, ∀ s : State, s = { State.reset with rx := rx, path := path } →
    (∃ t, exec .uvenc s = .next t ∧ t.status = 0x11#8 ∧ t.uvNib = 0#4 ∧ t.uvExtLen = 0#2) ∧
    (∃ t, exec .uvdec s = .next t ∧ t.status = 0x11#8 ∧ t.uvVal = 0#32) ∧
    (∃ t, exec .msgenc s = .next t ∧ t.status = 0x21#8 ∧ t.txLen = 4 ∧
      t.tx = [(0, 0x40#8), (1, 0x01#8), (2, 0x00#8), (3, 0x00#8)]) ∧
    (∃ t, exec .msgdec s = .next t ∧ t.status = 0x03#8 ∧ t.errKind = 1#4 ∧ t.errPos = 0) ∧
    (∃ t, exec .fmt s = .next t ∧ t.status = 0x81#8 ∧ t.fmtStr = #v[0x30#8, 0x2E#8, 0x30#8, 0x30#8])

/-! ## How a command ends -/

/-- R259: `succeed(flag)`. -/
def Obligations.SuccessReport : Prop :=
  ∀ (f : ValidFlag) (s : State),
    (succeed f s).done = true ∧ (succeed f s).err = false ∧ (succeed f s).errKind = 0#4 ∧ (succeed f s).errPos = 0 ∧
    (succeed f s).valid f = true ∧
    (∀ g, g ≠ f → (succeed f s).valid g = s.valid g) ∧
    ((succeed f s).status.getLsbD 2 = s.status.getLsbD 2 ∧ (succeed f s).status.getLsbD 3 = s.status.getLsbD 3) ∧
    succeed f s = { s with status := (succeed f s).status, errKind := 0, errPos := 0, engine := .idle }

/-- R255 to R258, R240: what `raise` writes, the common part and each unit's results; that it touches no input register,
buffer or other unit's flag; and the codes of the eight kinds that occur. -/
def Obligations.FailureReport : Prop :=
  (∀ (c : Failing) (k : ErrKind) (pos : Nat) (s : State),
    (raise c k pos s).done = true ∧ (raise c k pos s).err = true ∧ (raise c k pos s).errKind = k.code ∧
    (raise c k pos s).errPos = pos ∧ (raise c k pos s).engine = .idle ∧
    (∀ f, c.flag = some f → (raise c k pos s).valid f = false) ∧
    (∀ g, c.flag ≠ some g → (raise c k pos s).valid g = s.valid g) ∧
    ((raise c k pos s).status.getLsbD 2 = s.status.getLsbD 2 ∧ (raise c k pos s).status.getLsbD 3 = s.status.getLsbD 3) ∧
    ((raise c k pos s).rx = s.rx ∧ (raise c k pos s).tx = s.tx ∧ (raise c k pos s).path = s.path) ∧
    ((raise c k pos s).rxLen = s.rxLen ∧ (raise c k pos s).pathLen = s.pathLen ∧ (raise c k pos s).uvCur = s.uvCur ∧
      (raise c k pos s).encTkl = s.encTkl ∧ (raise c k pos s).midSrc = s.midSrc ∧ (raise c k pos s).tokSrc = s.tokSrc ∧
      (raise c k pos s).fmtCode = s.fmtCode ∧ (raise c k pos s).cmd = s.cmd)) ∧
  (∀ (k : ErrKind) (pos : Nat) (s : State),
    ((raise .uvenc k pos s).uvNib = 0#4 ∧ (raise .uvenc k pos s).uvExtLen = 0#2 ∧
      (raise .uvenc k pos s).uvExt = #v[0, 0] ∧ (raise .uvenc k pos s).uvVal = s.uvVal) ∧
    ((raise .uvdec k pos s).uvVal = 0#32 ∧ (raise .uvdec k pos s).uvExtLen = 0#2 ∧
      (raise .uvdec k pos s).uvExt = #v[0, 0] ∧ (raise .uvdec k pos s).uvNib = s.uvNib) ∧
    ((raise .msgenc k pos s).txLen = 0 ∧ (raise .msgenc k pos s).midOut = 0#16 ∧
      (raise .msgenc k pos s).tokOut = zero8) ∧
    ∀ last cnt, ∀ t : State, t = raise (.msgdec last cnt) k pos s →
      (t.decVer = 0#2 ∧ t.decType = 0#2 ∧ t.decTkl = 0#4 ∧ t.decCode = 0#8 ∧ t.decMid = 0#16 ∧ t.payOff = 0 ∧
        t.payLen = 0 ∧ t.decToken = zero8) ∧
      t.optLast = BitVec.ofNat 32 last ∧ t.optCnt = cnt ∧ t.trace = s.trace) ∧
  ErrKind.code .truncatedBuffer = 1#4 ∧ ErrKind.code .invalidVersion = 2#4 ∧ ErrKind.code .invalidTokenLength = 3#4 ∧
  ErrKind.code .truncatedExtension = 4#4 ∧ ErrKind.code .reservedNibble = 5#4 ∧ ErrKind.code .badCommand = 8#4 ∧
  ErrKind.code .badParam = 9#4 ∧ ErrKind.code .uvarRange = 10#4

/-! ## UvarCodec -/

/-- R133 with R130's three ranges: UVENC's next state. -/
def Obligations.UvencEncodesItsValue : Prop :=
  ∀ (s : State) (n : Nat), s.uvVal.toNat = n →
    (n < 13 →
      exec .uvenc s =
        .next (succeed .uvv { s with uvNib := BitVec.ofNat 4 n, uvExtLen := 0, uvExt := #v[0, 0] })) ∧
    (13 ≤ n → n < 269 →
      exec .uvenc s =
        .next (succeed .uvv { s with uvNib := 13, uvExtLen := 1, uvExt := #v[BitVec.ofNat 8 (n - 13), 0] })) ∧
    (269 ≤ n → n ≤ 65804 →
      exec .uvenc s =
        .next
          (succeed .uvv
            { s with
              uvNib := 14, uvExtLen := 2,
              uvExt := #v[BitVec.ofNat 8 ((n - 269) / 256), BitVec.ofNat 8 ((n - 269) % 256)] }))

/-- R134, R248, R256: UVENC above 65804: exactly this failure and nothing else. -/
def Obligations.UvencRefusesLargeValues : Prop :=
  ∀ s : State, 65804 < s.uvVal.toNat →
    exec .uvenc s = .next (raise .uvenc .uvarRange 0 s) ∧
    raise .uvenc .uvarRange 0 s =
      { s with
        uvNib := 0, uvExtLen := 0, uvExt := #v[0, 0], status := statusFail (some .uvv) s.status, errKind := 10#4,
        errPos := 0, engine := .idle }

/-- R135 with R131's classes: UVDEC's next state when it succeeds. A never-written byte is a free value (log entry 2).
-/
def Obligations.UvdecDecodesAtItsCursor : Prop :=
  ∀ s : State, s.rxLen ≤ s.cfg.rxMax → s.uvCur ≤ s.rxLen →
    (s.uvNib.toNat ≤ 12 →
      exec .uvdec s =
        .next
          (succeed .uvv { s with uvVal := BitVec.ofNat 32 s.uvNib.toNat, uvExtLen := 0, uvExt := #v[0, 0] })) ∧
    (s.uvNib = 13#4 → s.uvCur + 1 ≤ s.rxLen →
      exec .uvdec s =
        .next
          (succeed .uvv
            { s with
              uvVal := BitVec.ofNat 32 (13 + (s.rxByte s.uvCur).toNat), uvExtLen := 1,
              uvExt := #v[s.rxByte s.uvCur, 0], uvCur := s.uvCur + 1 })) ∧
    (s.uvNib = 14#4 → s.uvCur + 2 ≤ s.rxLen →
      exec .uvdec s =
        .next
          (succeed .uvv
            { s with
              uvVal :=
                BitVec.ofNat 32 (269 + 256 * (s.rxByte s.uvCur).toNat + (s.rxByte (s.uvCur + 1)).toNat),
              uvExtLen := 2, uvExt := #v[s.rxByte s.uvCur, s.rxByte (s.uvCur + 1)], uvCur := s.uvCur + 2 }))

/-- R136, R131, R139, R256: when UVDEC fails, with which kind, and what it writes. -/
def Obligations.UvdecFailures : Prop :=
  ∀ s : State,
    (s.cfg.rxMax < s.rxLen ∨ s.rxLen < s.uvCur → exec .uvdec s = .next (raise .uvdec .badParam 0 s)) ∧
    (s.rxLen ≤ s.cfg.rxMax → s.uvCur ≤ s.rxLen →
      (s.uvNib = 15#4 → exec .uvdec s = .next (raise .uvdec .reservedNibble s.uvCur s)) ∧
      ((s.uvNib = 13#4 ∧ s.rxLen - s.uvCur < 1) ∨ (s.uvNib = 14#4 ∧ s.rxLen - s.uvCur < 2) →
        exec .uvdec s = .next (raise .uvdec .truncatedExtension s.uvCur s))) ∧
    ∀ k pos,
      raise .uvdec k pos s =
        { s with
          uvVal := 0, uvExtLen := 0, uvExt := #v[0, 0], status := statusFail (some .uvv) s.status, errKind := k.code,
          errPos := pos, engine := .idle }

/-- R132: the round-trip law, both directions. An inference the spec marks as its own. -/
def Obligations.UvarRoundTrip : Prop :=
  (∀ n, n ≤ 65804 →
    ∃ nib ext, uvarEncode n = some (nib, ext) ∧
      ∀ (rd : Nat → Byte) (c fin : Nat), bytesFrom rd c ext.length = ext → c + ext.length ≤ fin →
        uvarDecode nib rd c fin = .ok (n, c + ext.length)) ∧
  (∀ (nib : Nibble) (rd : Nat → Byte) (c fin n c' : Nat), uvarDecode nib rd c fin = .ok (n, c') →
    uvarEncode n = some (nib, bytesFrom rd c (c' - c)))

/-- R132 through the commands (the program P6): what UVENC leaves, placed in RXBUF, UVDEC reads back. An inference the
spec marks as its own. -/
def Obligations.UvdecReadsBackUvenc : Prop :=
  ∀ s t u : State, s.uvVal.toNat ≤ 65804 → exec .uvenc s = .next t →
    u.uvNib = t.uvNib → u.rxLen ≤ u.cfg.rxMax → u.uvCur + t.uvExtLen.toNat ≤ u.rxLen →
    (∀ i (h : i < 2), i < t.uvExtLen.toNat → u.rx.read (u.uvCur + i) = some t.uvExt[i]) →
    ∃ v, exec .uvdec u = .next v ∧ v.uvVal = s.uvVal ∧ v.uvExtLen = t.uvExtLen ∧ v.uvExt = t.uvExt ∧
      v.uvCur = u.uvCur + t.uvExtLen.toNat ∧ v.err = false

/-! ## MessageEncoder -/

/-- R154: the segments are the maximal runs without the separator 0x2F, in order: no bytes, no segment; a separator
splits; a run without separators is one segment. The separator's value is the spec's general knowledge (log entry 14). -/
def Obligations.PathSplitsAtSeparators : Prop :=
  separator = 0x2F#8 ∧
  segments [] = [] ∧
  (∀ a b, segments (a ++ separator :: b) = segments a ++ segments b) ∧
  (∀ a, a ≠ [] → separator ∉ a → segments a = [a])

/-- R150, R152 to R158, R71: MSGENC builds the request of R112 for its path, changes no other byte of TXBUF, and nothing
but its results. A written path byte is used as it was written; a never-written one is a free value (log entry 2). -/
def Obligations.MsgencBuildsTheRequest : Prop :=
  ∀ s : State, s.cfg.legal = true → s.encTkl.toNat ≤ 8 → s.pathLen ≤ s.cfg.pathMax →
    (∀ path, s.holdsPath path → s.pathBytes = path) ∧
    ∃ t packet,
      packet =
        requestPacket s.encTkl.toNat s.midSrc.toNat (s.tokSrc.toList.take s.encTkl.toNat) (segments s.pathBytes) ∧
      exec .msgenc s = .next t ∧
      (∀ i, i < packet.length → t.tx.read i = packet[i]?) ∧
      (∀ i, packet.length ≤ i → t.tx.read i = s.tx.read i) ∧
      t = succeed .encv
            { s with
              txLen := packet.length, midOut := s.midSrc,
              tokOut := Vector.ofFn fun i => if i.val < s.encTkl.toNat then s.tokSrc[i] else 0,
              tx := t.tx }

/-- R162: under the constraints of R8 MSGENC never overflows TXBUF: it always answers a next state. An inference the
spec marks as its own. -/
def Obligations.MsgencNeverOverflows : Prop :=
  ∀ s : State, s.cfg.legal = true →
    ∃ t, exec .msgenc s = .next t ∧
      (t.err = false → 4 ≤ t.txLen ∧ t.txLen ≤ 13 + s.pathLen + s.pathLen / 13 ∧ t.txLen ≤ s.cfg.txMax)

/-- R151, R257: MSGENC with an illegal operand. -/
def Obligations.MsgencRefusesIllegalOperands : Prop :=
  ∀ s : State, 8 < s.encTkl.toNat ∨ s.cfg.pathMax < s.pathLen →
    exec .msgenc s =
      .next
        { s with
          txLen := 0, midOut := 0, tokOut := zero8, status := statusFail (some .encv) s.status, errKind := 9#4,
          errPos := 0, engine := .idle }

/-! ## MessageDecoder -/

/-- R171, R258: RXLEN above RX_MAX. -/
def Obligations.MsgdecRefusesIllegalLength : Prop :=
  ∀ s : State, s.cfg.rxMax < s.rxLen →
    ∃ t, exec .msgdec s = .next t ∧ t.err = true ∧ t.errKind = 9#4 ∧ t.errPos = 0 ∧ t.valid .decv = false ∧
      t.optLast = 0#32 ∧ t.optCnt = 0 ∧ t.trace = [] ∧ t.decToken = zero8 ∧
      (t.decVer = 0#2 ∧ t.decType = 0#2 ∧ t.decTkl = 0#4 ∧ t.decCode = 0#8 ∧ t.decMid = 0#16 ∧ t.payOff = 0 ∧
        t.payLen = 0) ∧
      t.rx = s.rx ∧ t.rxLen = s.rxLen

/-- R172, R173, R174, R176, R251 (2) to (5): the failures of the header stage, in their order. A never-written header
byte is a free value (log entry 2). -/
def Obligations.MsgdecHeaderFailures : Prop :=
  ∀ s : State, s.rxLen ≤ s.cfg.rxMax →
    let ver := (s.rxByte 0).toNat / 64
    let tkl := (s.rxByte 0).toNat % 16
    let failed (k : ErrKind) (pos : Nat) :=
      exec .msgdec s = .next (raise (.msgdec 0 0) k pos { s with trace := [] })
    (s.rxLen < 4 → failed .truncatedBuffer 0) ∧
    (4 ≤ s.rxLen → ver ≠ 1 → failed .invalidVersion 4) ∧
    (4 ≤ s.rxLen → ver = 1 → 8 < tkl → failed .invalidTokenLength 4) ∧
    (4 ≤ s.rxLen → ver = 1 → tkl ≤ 8 → s.rxLen - 4 < tkl → failed .truncatedBuffer 4)

/-- R170, R175 to R188, R90, R91: MSGDEC of any well-formed datagram: its fields, token, options and payload, exactly;
under legal parameters OPT_LAST does not wrap (R58). The payload by value is the model's field (log entry 9), and a
never-written byte is a free value (log entry 2). -/
def Obligations.MsgdecDecodesWellFormedDatagrams : Prop :=
  ∀ (s : State) (d : Datagram), d.wf = true → s.datagram = d.bytes → s.rxLen ≤ s.cfg.rxMax →
    (∀ bs, s.holdsDatagram bs → s.datagram = bs) ∧
    (s.cfg.legal = true → optsLast 0 d.opts < 2 ^ 32) ∧
    exec .msgdec s =
      .next
        (succeed .decv
          { s with
            decVer := 1, decType := d.typ, decTkl := d.tkl, decCode := d.code, decMid := d.mid, decToken := pad8 d.token,
            payOff := d.bytes.length - (d.payload.getD []).length, payLen := (d.payload.getD []).length,
            payload := d.payload.getD [], optLast := BitVec.ofNat 32 (optsLast 0 d.opts), optCnt := d.opts.length,
            trace := optsTrace (4 + d.token.length) 0 d.opts })

/-- R181 to R186, R241, R244, R245, R251 (6) to (8), R258: the first failing option ends MSGDEC with its kind and
position, and the diagnostics of the options before it; under legal parameters OPT_LAST does not wrap (R58). A
never-written byte is a free value (log entry 2). -/
def Obligations.MsgdecOptionFailures : Prop :=
  ∀ (s : State) (d : Datagram) (rest : List Byte) (k : ErrKind) (off delta : Nat),
    d.wf = true → d.payload = none → s.datagram = d.bytes ++ rest → s.rxLen ≤ s.cfg.rxMax →
    optionFailure rest = some (k, off, delta) →
    (s.cfg.legal = true → optsLast 0 d.opts + delta < 2 ^ 32) ∧
    exec .msgdec s =
      .next
        (raise (.msgdec (optsLast 0 d.opts + delta) d.opts.length) k (d.bytes.length + off)
          { s with trace := optsTrace (4 + d.token.length) 0 d.opts })

/-- R196: MSGDEC is total, and its outcome is a full result or one of the five decode failures. An inference the spec
marks as its own; the payload by value is the model's field (log entry 9). -/
def Obligations.MsgdecIsTotal : Prop :=
  ∀ s : State, s.rxLen ≤ s.cfg.rxMax →
    ∃ t, exec .msgdec s = .next t ∧ t.engine = .idle ∧ t.done = true ∧
      ((t.err = false ∧ t.valid .decv = true ∧ t.errKind = 0#4 ∧ t.decVer = 1#2 ∧ t.decTkl.toNat ≤ 8 ∧
          4 + t.decTkl.toNat ≤ t.payOff ∧ t.payOff + t.payLen = s.rxLen ∧ t.payload.length = t.payLen) ∨
        (t.err = true ∧ t.valid .decv = false ∧ t.errKind ∈ [1#4, 2#4, 3#4, 4#4, 5#4] ∧ t.errPos ≤ s.rxLen)) ∧
      t.optCnt = t.trace.length

/-- R63, R196: MSGDEC and UVDEC read no byte of RXBUF at or beyond RXLEN, MSGENC none of PATHBUF at or beyond PATHLEN: other
bytes there change nothing of the outcome but themselves. -/
def Obligations.CommandsReadInsideTheirBounds : Prop :=
  ∀ (s t : State) (m : Memory),
    ((∀ a, a < s.rxLen → m.read a = s.rx.read a) →
      (exec .msgdec s = .next t → exec .msgdec { s with rx := m } = .next { t with rx := m }) ∧
      (exec .uvdec s = .next t → exec .uvdec { s with rx := m } = .next { t with rx := m })) ∧
    ((∀ a, a < s.pathLen → m.read a = s.path.read a) → exec .msgenc s = .next t →
      exec .msgenc { s with path := m } = .next { t with path := m })

/-- TP1's "Header round-trip" and "Path segment round-trip" (95_test_vectors.md S4, S5): the packet of a MSGENC, as the datagram
of any block, decodes to version 1, type 0, code 0x01, the same token and message id, one Uri-Path option per segment. -/
def Obligations.EncodedRequestDecodes : Prop :=
  ∀ s t r : State, s.cfg.legal = true → exec .msgenc s = .next t → t.err = false →
    r.rxLen = t.txLen → r.rxLen ≤ r.cfg.rxMax → (∀ a, a < t.txLen → r.rx.read a = t.tx.read a) →
    ∃ u, exec .msgdec r = .next u ∧ u.err = false ∧ u.valid .decv = true ∧ u.decVer = 1#2 ∧ u.decType = 0#2 ∧
      u.decCode = 0x01#8 ∧ u.decTkl = s.encTkl ∧ u.decMid = s.midSrc ∧ u.decToken = t.tokOut ∧ u.payLen = 0 ∧
      u.trace.map (fun e => e.num) = (segments s.pathBytes).map (fun _ => 11) ∧
      u.trace.map (fun e => e.length) = (segments s.pathBytes).map List.length

/-! ## StatusFormatter and control -/

/-- R210, R211: FMT's next state; the four characters are the digits of class and detail. -/
def Obligations.FmtFormatsTheCode : Prop :=
  ∀ s : State,
    exec .fmt s =
      .next
        (succeed .fmtv
          { s with
            fmtClass := BitVec.ofNat 3 (s.fmtCode.toNat / 32), fmtDetail := BitVec.ofNat 5 (s.fmtCode.toNat % 32),
            fmtStr :=
              #v[BitVec.ofNat 8 (0x30 + s.fmtCode.toNat / 32), 0x2E#8,
                BitVec.ofNat 8 (0x30 + s.fmtCode.toNat % 32 / 10), BitVec.ofNat 8 (0x30 + s.fmtCode.toNat % 32 % 10)] })

/-- R212: all 256 codes give distinct strings. An inference the spec marks as its own. -/
def Obligations.FormattedCodesAreDistinct : Prop :=
  ∀ s t s' t' : State, exec .fmt s = .next s' → exec .fmt t = .next t' → s'.fmtStr = t'.fmtStr → s.fmtCode = t.fmtCode

/-- R227: CLEAR. That parameters and pending transactions are kept is the model's (log entry 15). -/
def Obligations.ClearRestoresAllButBuffers : Prop :=
  ∀ s : State, ∃ t, exec .clear s = .next t ∧
    (∀ no, readRegister t no = 0) ∧
    (∀ id idx, 3 ≤ id → id ≤ 7 → idx < capacity t.cfg id → byteAtSpace t id idx = some 0) ∧
    t.trace = [] ∧ t.rx = s.rx ∧ t.tx = s.tx ∧ t.path = s.path ∧ t.engine = .idle ∧ t.cfg = s.cfg ∧ t.host = s.host

/-- R226, R119: a value that is no command. -/
def Obligations.BadCommandChangesOnlyTheReport : Prop :=
  ∀ (v : BitVec 8) (s : State), v.toNat = 0 ∨ 6 < v.toNat →
    decodeCmd v = .badcmd v ∧
    ∃ t, exec (.badcmd v) s = .next t ∧ t.done = true ∧ t.err = true ∧ t.errKind = 8#4 ∧ t.errPos = 0 ∧
      (∀ f, t.valid f = s.valid f) ∧
      t = { s with status := t.status, errKind := 8#4, errPos := 0, engine := .idle }

/-- R250: which command can raise which kind, 0 being no failure. An inference the spec marks as its own. -/
def Obligations.KindsEachCommandRaises : Prop :=
  ∀ s t : State,
    (exec .uvenc s = .next t → t.errKind ∈ [0#4, 10#4]) ∧
    (exec .uvdec s = .next t → t.errKind ∈ [0#4, 4#4, 5#4, 9#4]) ∧
    (exec .msgenc s = .next t → t.errKind ∈ [0#4, 9#4]) ∧
    (exec .msgdec s = .next t → t.errKind ∈ [0#4, 1#4, 2#4, 3#4, 4#4, 5#4, 9#4]) ∧
    (exec .fmt s = .next t → t.errKind = 0#4) ∧
    (exec .clear s = .next t → t.errKind = 0#4) ∧
    (∀ v, exec (.badcmd v) s = .next t → t.errKind = 8#4)

/-! ## The wire items, one at a time -/

/-- R175, R173, R174, R176 as R190's Header lines: a header word taken by a MSGDEC that begins. Running a command item
by item, cut finer than R190, is the model's (log entries 6, 8). -/
def Obligations.HeaderItems : Prop :=
  ∀ (s : State) (d : DecRun) (ver typ : BitVec 2) (tkl : BitVec 4) (code : BitVec 8) (mid : BitVec 16),
    s.engine = .msgdec d → d.stage = .header →
    (tkl.toNat ≤ 8 → 4 + tkl.toNat ≤ s.rxLen →
      exec (.hdr typ tkl code mid) s =
        .next
          { s with
            engine :=
              .msgdec { d with stage := .token, cur := 4, ver := 1, typ := typ, tkl := tkl, code := code, mid := mid } }) ∧
    (tkl.toNat ≤ 8 → s.rxLen < 4 + tkl.toNat → 4 ≤ s.rxLen →
      exec (.hdr typ tkl code mid) s = .next (raise (.msgdec d.last d.cnt) .truncatedBuffer 4 s)) ∧
    (ver ≠ 1#2 →
      exec (.hdrBadver ver typ tkl code mid) s = .next (raise (.msgdec d.last d.cnt) .invalidVersion 4 s)) ∧
    (8 < tkl.toNat →
      exec (.hdrBadtkl typ tkl code mid) s = .next (raise (.msgdec d.last d.cnt) .invalidTokenLength 4 s))

/-- R152, R94: GETHDR emitted by a MSGENC that begins. Running a command item by item is the model's reading of R190
(log entry 6). -/
def Obligations.RequestHeaderItem : Prop :=
  ∀ (s : State) (e : EncRun) (tkl : BitVec 4) (mid : BitVec 16),
    s.engine = .msgenc e → e.stage = .header → tkl.toNat ≤ 8 → e.wp + 4 ≤ s.cfg.txMax →
    exec (.gethdr tkl mid) s =
      .next
        { s with
          tx :=
            s.tx.writeBytes e.wp
              [BitVec.ofNat 8 (0x40 + tkl.toNat), 0x01, BitVec.ofNat 8 (mid.toNat / 256), BitVec.ofNat 8 (mid.toNat % 256)],
          engine := .msgenc { e with stage := .token, wp := e.wp + 4 } }

/-- R177, R153: TOKEN taken by MSGDEC, emitted by MSGENC. Running a command item by item is the model's reading of
R190 (log entry 6). -/
def Obligations.TokenItem : Prop :=
  ∀ (s : State) (bytes : List Byte),
    (∀ d, s.engine = .msgdec d → d.stage = .token →
      exec (.token bytes) s =
        .next { s with engine := .msgdec { d with stage := .option, token := bytes, cur := d.cur + bytes.length } }) ∧
    (∀ e, s.engine = .msgenc e → e.stage = .token → e.wp + bytes.length ≤ s.cfg.txMax →
      exec (.token bytes) s =
        .next
          { s with
            tx := s.tx.writeBytes e.wp bytes, engine := .msgenc { e with stage := .options, wp := e.wp + bytes.length } })

/-- R179 to R183, R103: the items at an option header position, taken by MSGDEC. Running a command item by item, cut
finer than R190, is the model's (log entries 6, 8). -/
def Obligations.OptionHeadItems : Prop :=
  ∀ (s : State) (d : DecRun) (dn ln : Nibble), s.engine = .msgdec d → d.stage = .option →
    exec .mark s = .next { s with engine := .msgdec { d with stage := .payload, cur := d.cur + 1 } } ∧
    exec (.opt dn ln) s = .next { s with engine := .msgdec { d with stage := .delta dn ln, cur := d.cur + 1 } } ∧
    exec (.optLrsvd dn) s = .next { s with engine := .msgdec { d with stage := .delta dn 15, cur := d.cur + 1 } } ∧
    exec (.optDrsvd ln) s = .next (raise (.msgdec d.last d.cnt) .reservedNibble (d.cur + 1) s)

/-- R155, R150: an option header byte emitted by MSGENC; the read index moves past the next segment, and what is emitted
next is what the length nibble's class asks (R99). Running a command item by item is the model's reading of R190 (log
entry 6). -/
def Obligations.EmittedOptionHeadItem : Prop :=
  ∀ (s : State) (e : EncRun) (dn ln : Nibble), s.engine = .msgenc e → e.stage = .options → e.wp + 1 ≤ s.cfg.txMax →
    ∃ r, exec (.opt dn ln) s = .next { s with
          tx := s.tx.write e.wp (BitVec.ofNat 8 (16 * dn.toNat + ln.toNat)), engine := .msgenc r } ∧
      r.wp = e.wp + 1 ∧ r.prev = e.prev ∧ (r.start, r.rp) = nextSegment s e.rp ∧
      (ln.toNat ≤ 12 → r.stage = .value) ∧ (ln = 13#4 → r.stage = .ext false) ∧ (ln = 14#4 → r.stage = .ext true)

/-- R131 in UVDEC: the nibble classes and the extensions, item by item. Running a command item by item is the model's
reading of R190 (log entry 6). -/
def Obligations.UvdecItems : Prop :=
  ∀ (s : State) (u : UvRun), s.engine = .uvdec u →
    (u.stage = .nibble →
      (∀ nib : Nibble, nib.toNat ≤ 12 →
        exec (.nibLit nib) s =
          .next
            (succeed .uvv
              { s with
                uvVal := BitVec.ofNat 32 nib.toNat, uvExtLen := 0, uvExt := #v[0, 0], uvCur := u.cur })) ∧
      (u.cur + 1 ≤ s.rxLen → exec .nibExt8 s = .next { s with engine := .uvdec { u with stage := .ext false } }) ∧
      (s.rxLen - u.cur < 1 → exec .nibExt8 s = .next (raise .uvdec .truncatedExtension u.cur s)) ∧
      (u.cur + 2 ≤ s.rxLen → exec .nibExt16 s = .next { s with engine := .uvdec { u with stage := .ext true } }) ∧
      (s.rxLen - u.cur < 2 → exec .nibExt16 s = .next (raise .uvdec .truncatedExtension u.cur s)) ∧
      exec .nibRsvd s = .next (raise .uvdec .reservedNibble u.cur s)) ∧
    (u.stage = .ext false → ∀ e : Byte,
      exec (.ext8 e) s =
        .next
          (succeed .uvv
            { s with
              uvVal := BitVec.ofNat 32 (13 + e.toNat), uvExtLen := 1, uvExt := #v[e, 0], uvCur := u.cur + 1 })) ∧
    (u.stage = .ext true → ∀ h l : Byte,
      exec (.ext16 h l) s =
        .next
          (succeed .uvv
            { s with
              uvVal := BitVec.ofNat 32 (269 + 256 * h.toNat + l.toNat), uvExtLen := 2, uvExt := #v[h, l],
              uvCur := u.cur + 2 }))

/-- R131, R181 to R184 in MSGDEC: the delta's nibble and extension, then the length's; the option number grows when
both have been decoded. Running a command item by item, cut finer than R190, is the model's (log entries 6, 8). -/
def Obligations.MsgdecUvarItems : Prop :=
  ∀ (s : State) (d : DecRun), s.engine = .msgdec d →
    (∀ dn ln, d.stage = .delta dn ln →
      (∀ nib : Nibble, nib.toNat ≤ 12 →
        exec (.nibLit nib) s = .next { s with engine := .msgdec { d with delta := nib.toNat, stage := .length ln } }) ∧
      (d.cur + 1 ≤ s.rxLen → exec .nibExt8 s = .next { s with engine := .msgdec { d with stage := .deltaExt false ln } }) ∧
      (d.cur + 2 ≤ s.rxLen → exec .nibExt16 s = .next { s with engine := .msgdec { d with stage := .deltaExt true ln } })) ∧
    (∀ ln, d.stage = .length ln →
      (∀ nib : Nibble, nib.toNat ≤ 12 →
        exec (.nibLit nib) s =
          .next { s with engine := .msgdec { d with length := nib.toNat, last := d.last + d.delta, stage := .value } }) ∧
      (d.cur + 1 ≤ s.rxLen → exec .nibExt8 s = .next { s with engine := .msgdec { d with stage := .lengthExt false } }) ∧
      (d.cur + 2 ≤ s.rxLen → exec .nibExt16 s = .next { s with engine := .msgdec { d with stage := .lengthExt true } })) ∧
    ((∃ dn ln, d.stage = .delta dn ln) ∨ (∃ ln, d.stage = .length ln) →
      (s.rxLen - d.cur < 1 →
        exec .nibExt8 s = .next (raise (.msgdec d.last d.cnt) .truncatedExtension d.cur s)) ∧
      (s.rxLen - d.cur < 2 →
        exec .nibExt16 s = .next (raise (.msgdec d.last d.cnt) .truncatedExtension d.cur s)) ∧
      exec .nibRsvd s = .next (raise (.msgdec d.last d.cnt) .reservedNibble d.cur s)) ∧
    (∀ ln, d.stage = .deltaExt false ln → ∀ e : Byte,
      exec (.ext8 e) s =
        .next { s with engine := .msgdec { d with delta := 13 + e.toNat, cur := d.cur + 1, stage := .length ln } }) ∧
    (∀ ln, d.stage = .deltaExt true ln → ∀ h l : Byte,
      exec (.ext16 h l) s =
        .next
          { s with
            engine := .msgdec { d with delta := 269 + 256 * h.toNat + l.toNat, cur := d.cur + 2, stage := .length ln } }) ∧
    (d.stage = .lengthExt false → ∀ e : Byte,
      exec (.ext8 e) s =
        .next
          { s with
            engine :=
              .msgdec { d with length := 13 + e.toNat, cur := d.cur + 1, last := d.last + d.delta, stage := .value } }) ∧
    (d.stage = .lengthExt true → ∀ h l : Byte,
      exec (.ext16 h l) s =
        .next
          { s with
            engine :=
              .msgdec
                { d with
                  length := 269 + 256 * h.toNat + l.toNat, cur := d.cur + 2, last := d.last + d.delta, stage := .value } })

/-- R155: the length extension and the segment's bytes emitted by MSGENC; then 11 is the previous option (R156).
Running a command item by item is the model's reading of R190 (log entry 6). -/
def Obligations.EmittedExtensionAndValueItems : Prop :=
  ∀ (s : State) (e : EncRun), s.engine = .msgenc e →
    (e.stage = .ext false → e.wp + 1 ≤ s.cfg.txMax → ∀ x : Byte,
      exec (.ext8 x) s =
        .next { s with tx := s.tx.write e.wp x, engine := .msgenc { e with stage := .value, wp := e.wp + 1 } }) ∧
    (e.stage = .ext true → e.wp + 2 ≤ s.cfg.txMax → ∀ h l : Byte,
      exec (.ext16 h l) s =
        .next
          { s with
            tx := (s.tx.write e.wp h).write (e.wp + 1) l, engine := .msgenc { e with stage := .value, wp := e.wp + 2 } }) ∧
    (e.stage = .value → ∀ bytes : List Byte, e.wp + bytes.length ≤ s.cfg.txMax →
      exec (.value bytes) s =
        .next
          { s with
            tx := s.tx.writeBytes e.wp bytes,
            engine := .msgenc { e with stage := .options, wp := e.wp + bytes.length, prev := 11 } })

/-- R185, R186, R188, R189: VALUE in MSGDEC must fit; then the option is accepted and its bytes, whatever they are,
are skipped. PAYLOAD ends MSGDEC in success, the results being what it captured. Item-by-item running and the payload
by value are the model's (log entries 6, 9). -/
def Obligations.ValueAndPayloadItems : Prop :=
  ∀ (s : State) (d : DecRun) (bytes : List Byte), s.engine = .msgdec d →
    (d.stage = .value → d.length ≤ s.rxLen - d.cur →
      exec (.value bytes) s =
        .next
          { s with
            trace := s.trace ++ [{ num := d.last, off := d.cur, length := d.length }],
            engine := .msgdec { d with stage := .option, cur := d.cur + d.length, cnt := d.cnt + 1 } }) ∧
    (d.stage = .value → s.rxLen - d.cur < d.length →
      exec (.value bytes) s = .next (raise (.msgdec d.last d.cnt) .truncatedBuffer d.cur s)) ∧
    (d.stage = .payload →
      exec (.payload bytes) s =
        .next
          (succeed .decv
            { s with
              decVer := d.ver, decType := d.typ, decTkl := d.tkl, decCode := d.code, decMid := d.mid,
              decToken := pad8 d.token, payOff := d.cur, payLen := s.rxLen - d.cur, payload := bytes,
              optLast := BitVec.ofNat 32 d.last, optCnt := d.cnt }))

/-- R210, R108: CODE, the code byte of the FMT that runs. Running a command item by item is the model's reading of
R190 (log entry 6). -/
def Obligations.CodeItem : Prop :=
  ∀ (s : State) (cls : BitVec 3) (detail : BitVec 5), s.engine = .fmt →
    exec (.code cls detail) s =
      .next
        (succeed .fmtv
          { s with
            fmtClass := cls, fmtDetail := detail,
            fmtStr :=
              #v[BitVec.ofNat 8 (0x30 + cls.toNat), 0x2E#8, BitVec.ofNat 8 (0x30 + detail.toNat / 10),
                BitVec.ofNat 8 (0x30 + detail.toNat % 10)] })

/-! ## A step -/

/-- A step runs the decoded instruction: the command of a CMD write (R224), and the item at the running command's
cursor (R178, R190) or the item it emits. The list of transactions and the running of single items are the model's
(log entries 1, 6). -/
def Obligations.StepRunsTheDecodedInstruction : Prop :=
  (∀ (s : State) (v : BitVec 8) (rest : List HostTxn),
    s.engine = .idle → s.host = .writeReg 0 v.toNat :: rest →
    step s = exec (decodeCmd v) { s with host := rest, reply := none, cmd := v }) ∧
  (∀ (s : State) (slot : Slot) (bs more : List Byte) (i : Instr),
    fetch s = .bytes slot bs → decode slot bs = .ok i more → step s = exec i s) ∧
  (∀ (s : State) (i : Instr), fetch s = .emit i → step s = exec i s)

/-- R172, R178, R70, R95, R98, R105: what a running MSGDEC fetches at each stage: the bytes at its cursor, as many as the
item has, or the nibble of the option header byte it has taken; of a value that does not fit, the bytes that are left.
Running a command item by item, cut finer than R190, and the bytes of such a value are the model's (log entries 6, 8,
19). -/
def Obligations.FetchReadsTheDatagramAtTheCursor : Prop :=
  ∀ (s : State) (d : DecRun), s.engine = .msgdec d →
    (d.stage = .header → 4 ≤ s.rxLen →
      fetch s = .bytes .header [s.rxByte 0, s.rxByte 1, s.rxByte 2, s.rxByte 3]) ∧
    (d.stage = .option → d.cur < s.rxLen → fetch s = .bytes .optionHead [s.rxByte d.cur]) ∧
    (d.stage = .option → s.rxLen ≤ d.cur →
      step s = .next { s with engine := .msgdec { d with stage := .payload } }) ∧
    (∀ dn ln, d.stage = .delta dn ln → fetch s = .bytes .nibble [BitVec.ofNat 8 dn.toNat]) ∧
    (∀ ln, d.stage = .length ln → fetch s = .bytes .nibble [BitVec.ofNat 8 ln.toNat]) ∧
    (∀ ln, d.stage = .deltaExt false ln → fetch s = .bytes .ext8 [s.rxByte d.cur]) ∧
    (∀ ln, d.stage = .deltaExt true ln → fetch s = .bytes .ext16 [s.rxByte d.cur, s.rxByte (d.cur + 1)]) ∧
    (d.stage = .lengthExt false → fetch s = .bytes .ext8 [s.rxByte d.cur]) ∧
    (d.stage = .lengthExt true → fetch s = .bytes .ext16 [s.rxByte d.cur, s.rxByte (d.cur + 1)]) ∧
    (d.stage = .token → fetch s = .bytes (.token d.tkl.toNat) (bytesFrom s.rxByte d.cur d.tkl.toNat)) ∧
    (∀ n, n = min d.length (s.rxLen - d.cur) → d.stage = .value →
      fetch s = .bytes (.value n) (bytesFrom s.rxByte d.cur n)) ∧
    (d.stage = .payload → fetch s = .bytes .payload (bytesFrom s.rxByte d.cur (s.rxLen - d.cur))) ∧
    (d.stage = .header → s.rxLen < 4 →
      step s = .next (raise (.msgdec d.last d.cnt) .truncatedBuffer 0 s))

/-- R281, R225: with nothing asked, the idle engine stays idle; while a command runs, no host transaction is taken and
nothing is returned to the host. That both are one step function is the model's (log entries 1, 6). -/
def Obligations.EngineAndHostTakeTurns : Prop :=
  (∀ s : State, s.engine = .idle → s.host = [] → step s = .next s) ∧
  (∀ s t : State, s.engine ≠ .idle → step s = .next t → t.host = s.host ∧ t.reply = s.reply ∧ t.cfg = s.cfg)

/-- R190 [derived in the spec]: MSGDEC run item by item ends in the state of the whole command. How items are cut is
the model's (log entries 6, 8). -/
def Obligations.MsgdecItemRunEqualsCommand : Prop :=
  ∀ s t : State, s.rxLen ≤ s.cfg.rxMax → exec .msgdec s = .next t →
    ∃ k, k ≤ 6 * s.rxLen + 8 ∧ Sys2Proof.core.run k (startMsgdec s) = .next t

/-- R131, R135: UVDEC and FMT run item by item end in the state of the whole command. Running a command item by item
is the model's reading of R190 (log entry 6). -/
def Obligations.UvdecAndFmtItemRunsEqualCommands : Prop :=
  (∀ s t : State, s.rxLen ≤ s.cfg.rxMax → s.uvCur ≤ s.rxLen → exec .uvdec s = .next t →
    ∃ k, k ≤ 2 ∧ Sys2Proof.core.run k (startUvdec s) = .next t) ∧
  (∀ s t : State, exec .fmt s = .next t → Sys2Proof.core.run 1 (startFmt s) = .next t)

/-- R150, R154: MSGENC's emission item by item, scanning the path with its read index, ends in the state of the whole
command, which splits the path. Running a command item by item is the model's reading of R190 (log entry 6). -/
def Obligations.MsgencItemRunEqualsCommand : Prop :=
  ∀ s t : State, s.cfg.legal = true → s.encTkl.toNat ≤ 8 → s.pathLen ≤ s.cfg.pathMax → exec .msgenc s = .next t →
    ∃ k, k ≤ 3 * s.pathLen + 3 ∧ Sys2Proof.core.run k (startMsgenc s) = .next t

/-! ## Invariants -/

/-- R55: every step keeps the buffers canonical and inside their capacities. -/
def Obligations.StepKeepsBuffersCanonical : Prop :=
  ∀ s t : State, s.buffersOk → step s = .next t → t.buffersOk

/-- R23, R24, R25, R240: every step keeps STATUS, ERRKIND and ERRPOS legal and in agreement: ERRPOS is 0 after a success,
after BadCommand, BadParam and UvarRange, and before DONE. -/
def Obligations.StepKeepsReportLegal : Prop :=
  ∀ s t : State, s.reportOk → step s = .next t → t.reportOk

/-- R40, R187, R190: every step keeps the transient state of a running command consistent: the cursor never passes
RXLEN. The stages are the model's (log entry 8). -/
def Obligations.StepKeepsTransientState : Prop :=
  ∀ s t : State, s.transientOk → step s = .next t → t.transientOk

/-- R58, R56: every step keeps every stored value within its register's width, and every transient value of a running
command within R56's, so that the 32-bit OPT_LAST never wraps. An inference the spec marks as its own; a wider WriteReg
value keeps its low bits (log entry 5). -/
def Obligations.StepKeepsWidths : Prop :=
  ∀ s t : State, s.widthsOk → s.transientOk → step s = .next t → t.widthsOk

/-- R31, R33, R37, R39, R45, R46, R52, R256 to R258: every step keeps the results in agreement with the valid flags. The
payload by value is the model's field (log entry 9). -/
def Obligations.StepKeepsResultsValid : Prop :=
  ∀ s t : State, s.transientOk → s.decodeOk → s.encodeOk → s.uvarFormatOk → step s = .next t →
    t.decodeOk ∧ t.encodeOk ∧ t.uvarFormatOk

/-- All the invariants hold after reset. The parameters there are R8's defaults (log entry 4). -/
def Obligations.InvariantsHoldAtReset : Prop :=
  State.reset.buffersOk ∧ State.reset.reportOk ∧ State.reset.transientOk ∧ State.reset.widthsOk ∧
  State.reset.decodeOk ∧ State.reset.encodeOk ∧ State.reset.uvarFormatOk

/-! ## Frames -/

/-- R229, R228: what each working command changes at most; every other field, and so every other unit's results, inputs
and buffers, is as before; of STATUS, only DONE, ERR and the unit's own valid flag. -/
def Obligations.CommandFrames : Prop :=
  ∀ s t : State,
    (exec .uvenc s = .next t →
      t = { s with
            uvNib := t.uvNib, uvExtLen := t.uvExtLen, uvExt := t.uvExt, status := t.status, errKind := t.errKind,
            errPos := t.errPos, engine := t.engine }) ∧
    (exec .uvdec s = .next t →
      t = { s with
            uvVal := t.uvVal, uvExtLen := t.uvExtLen, uvExt := t.uvExt, uvCur := t.uvCur, status := t.status,
            errKind := t.errKind, errPos := t.errPos, engine := t.engine }) ∧
    (exec .msgenc s = .next t →
      (t = { s with
            txLen := t.txLen, midOut := t.midOut, tokOut := t.tokOut, tx := t.tx, status := t.status,
            errKind := t.errKind, errPos := t.errPos, engine := t.engine }) ∧
      ∀ a, t.txLen ≤ a → t.tx.read a = s.tx.read a) ∧
    (exec .msgdec s = .next t →
      t = { s with
            decVer := t.decVer, decType := t.decType, decTkl := t.decTkl, decCode := t.decCode, decMid := t.decMid,
            decToken := t.decToken, payOff := t.payOff, payLen := t.payLen, payload := t.payload,
            optLast := t.optLast, optCnt := t.optCnt, trace := t.trace, status := t.status, errKind := t.errKind,
            errPos := t.errPos, engine := t.engine }) ∧
    (exec .fmt s = .next t →
      t = { s with
            fmtClass := t.fmtClass, fmtDetail := t.fmtDetail, fmtStr := t.fmtStr, status := t.status,
            errKind := t.errKind, errPos := t.errPos, engine := t.engine }) ∧
    (exec .uvenc s = .next t ∨ exec .uvdec s = .next t →
      ∀ i, i ≠ 0 → i ≠ 1 → i ≠ 4 → t.status.getLsbD i = s.status.getLsbD i) ∧
    (exec .msgenc s = .next t → ∀ i, i ≠ 0 → i ≠ 1 → i ≠ 5 → t.status.getLsbD i = s.status.getLsbD i) ∧
    (exec .msgdec s = .next t → ∀ i, i ≠ 0 → i ≠ 1 → i ≠ 6 → t.status.getLsbD i = s.status.getLsbD i) ∧
    (exec .fmt s = .next t → ∀ i, i ≠ 0 → i ≠ 1 → i ≠ 7 → t.status.getLsbD i = s.status.getLsbD i)

/-- R228: no command depends on STATUS, ERRKIND or ERRPOS: with another report before it, it does the same and leaves the
same report, its own valid flag included; every other STATUS bit is the one it was given. -/
def Obligations.NoCommandDependsOnTheReport : Prop :=
  ∀ (i : Instr) (s t : State) (status : BitVec 8) (kind : BitVec 4) (pos : Nat),
    i ∈ [.uvenc, .uvdec, .msgenc, .msgdec, .fmt] → exec i s = .next t →
    ∃ t', exec i { s with status := status, errKind := kind, errPos := pos } = .next t' ∧
      t' = { t with status := t'.status } ∧ t'.done = t.done ∧ t'.err = t.err ∧
      (∀ f, ownFlag i = some f → t'.valid f = t.valid f) ∧
      ∀ n, n ≠ doneBit → n ≠ errBit → (∀ f, ownFlag i = some f → n ≠ f.bit) →
        t'.status.getLsbD n = status.getLsbD n ∧ t.status.getLsbD n = s.status.getLsbD n

/-- The frame of every wire item in every command that takes or emits it: registers other than its command's results,
input registers, RXBUF and PATHBUF are as before; TXBUF changes only from the write index of a running MSGENC on, by
the item's own bytes. Running a command item by item is the model's reading of R190 (log entry 6). -/
def Obligations.WireItemFrames : Prop :=
  ∀ (s t : State) (i : Instr), slotOf i ≠ .cmd → exec i s = .next t →
    (t.cmd = s.cmd ∧ t.uvNib = s.uvNib ∧ t.encTkl = s.encTkl ∧ t.midSrc = s.midSrc ∧ t.pathLen = s.pathLen ∧
      t.rxLen = s.rxLen ∧ t.fmtCode = s.fmtCode ∧ t.tokSrc = s.tokSrc ∧ t.txLen = s.txLen ∧ t.midOut = s.midOut ∧
      t.tokOut = s.tokOut) ∧
    (t.rx = s.rx ∧ t.path = s.path ∧ t.cfg = s.cfg ∧ t.host = s.host ∧ t.reply = s.reply) ∧
    (s.noMsgenc → t.tx = s.tx) ∧
    (∀ e, s.engine = .msgenc e →
      (∀ a, a < e.wp ∨ e.wp + (encode i).length ≤ a → t.tx.read a = s.tx.read a) ∧
      (∀ j, j < (encode i).length → t.tx.read (e.wp + j) = (encode i)[j]?)) ∧
    ((∀ u, s.engine ≠ .uvdec u) → t.uvVal = s.uvVal ∧ t.uvExtLen = s.uvExtLen ∧ t.uvCur = s.uvCur ∧ t.uvExt = s.uvExt) ∧
    (s.noMsgdec →
      (t.decVer = s.decVer ∧ t.decType = s.decType ∧ t.decTkl = s.decTkl ∧ t.decCode = s.decCode ∧ t.decMid = s.decMid ∧
        t.decToken = s.decToken ∧ t.payOff = s.payOff ∧ t.payLen = s.payLen ∧ t.payload = s.payload ∧
        t.optLast = s.optLast ∧ t.optCnt = s.optCnt ∧ t.trace = s.trace)) ∧
    (s.engine ≠ .fmt → t.fmtClass = s.fmtClass ∧ t.fmtDetail = s.fmtDetail ∧ t.fmtStr = s.fmtStr)

/-- R228, R56: while a wire item leaves its command running, no register and no flag changes at all: the only writes
before a command's end are TXBUF bytes and the option trace. Running a command item by item is the model's reading of
R190 (log entry 6). -/
def Obligations.NoPartialResultIsVisible : Prop :=
  ∀ (s t : State) (i : Instr), slotOf i ≠ .cmd → exec i s = .next t → t.engine ≠ .idle →
    t = { s with tx := t.tx, trace := t.trace, engine := t.engine }

/-! ## Host transactions -/

/-- R221: a write to a RW register stores any value of the register's width, and changes no other register, no byte
and nothing else; a write to any other register but CMD changes nothing. The reply is the model's (log entry 1). -/
def Obligations.RegisterWrites : Prop :=
  ∀ (s : State) (no : BitVec 6) (v : Nat), no ≠ 0#6 → v < 2 ^ registerWidth s.cfg no ∨ writable no = false →
    ∃ t, perform (.writeReg no v) s = .next t ∧
      (writable no = true → readRegister t no = v) ∧
      (writable no = false → readRegister t no = readRegister s no) ∧
      (∀ no', no' ≠ no → readRegister t no' = readRegister s no') ∧
      (∀ id idx, byteAtSpace t id idx = byteAtSpace s id idx) ∧
      t.trace = s.trace ∧ t.engine = s.engine ∧ t.cfg = s.cfg ∧ t.host = s.host

/-- R221, R223, R65: a register read returns the register, 0 for a reserved number, and changes nothing; a write to a
reserved number changes nothing. The reply is the model's (log entry 1). -/
def Obligations.ReservedRegistersAndReads : Prop :=
  ∀ (s : State) (no : BitVec 6),
    perform (.readReg no) s = .next { s with reply := some (readRegister s no) } ∧
    (26 ≤ no.toNat → readRegister s no = 0 ∧ ∀ v, perform (.writeReg no v) s = .next { s with reply := none })

/-- R222, R72, R65: reading and writing byte spaces, inside and outside their capacities. A read changes nothing but the
reply and is idempotent; a never-written byte reads as the byte that a command reads there, and as the same byte
whatever instruction runs in between, while it stays never written. An unspecified byte is a free value, and the reply,
none after a write, is the model's (log entries 1, 2, 3). -/
def Obligations.BufferTransactions : Prop :=
  ∀ (s : State) (id idx : Nat) (b : Byte),
    (7 < id ∨ capacity s.cfg id ≤ idx →
      perform (.readBuf id idx) s = .next { s with reply := some 0 } ∧
      perform (.writeBuf id idx b) s = .next { s with reply := none }) ∧
    (∀ x, idx < capacity s.cfg id → byteAtSpace s id idx = some x →
      perform (.readBuf id idx) s = .next { s with reply := some x.toNat }) ∧
    (idx < capacity s.cfg id → byteAtSpace s id idx = none →
      ∃ x : Byte, perform (.readBuf id idx) s = .next { s with reply := some x.toNat } ∧
        (id = 0 → x = s.rxByte idx) ∧ (id = 2 → x = s.pathByte idx)) ∧
    (∀ t, perform (.readBuf id idx) s = .next t →
      t = { s with reply := t.reply } ∧ perform (.readBuf id idx) t = .next t ∧
      ∀ (i : Instr) (u : State), exec i s = .next u → byteAtSpace u id idx = byteAtSpace s id idx →
        perform (.readBuf id idx) u = .next { u with reply := t.reply }) ∧
    (id ∈ [0, 2, 3] → idx < capacity s.cfg id →
      ∃ t, perform (.writeBuf id idx b) s = .next t ∧ byteAtSpace t id idx = some b ∧
        (∀ id' idx', id' ≠ id ∨ idx' ≠ idx → byteAtSpace t id' idx' = byteAtSpace s id' idx') ∧
        t = { s with rx := t.rx, path := t.path, tokSrc := t.tokSrc, reply := none }) ∧
    (id ∉ [0, 2, 3] → perform (.writeBuf id idx b) s = .next { s with reply := none })

/-- R67 (informative in the spec): the reference bus map has every register and every byte window at R67's own offsets,
reaches every byte of the byte spaces, and a hole reads 0 and ignores a write. That a register slot answers only at its
first offset and the reply are the model's (log entries 17, 1). -/
def Obligations.BusMapReachesTheBlock : Prop :=
  ∀ p : Config.Params, p.legal = true →
    (∀ no : BitVec 6, busTarget p (4 * no.toNat) = .register no) ∧
    (∀ base id idx,
      (base, id) ∈
        [(0x100, 3), (0x108, 4), (0x110, 5), (0x118, 6), (0x11C, 7), (0x800, 0), (0x1000, 1), (0x1800, 2)] →
      idx < capacity p id → busTarget p (base + idx) = .byte id idx) ∧
    (∀ id idx, idx < capacity p id → ∃ off, busTarget p off = .byte id idx) ∧
    (∀ off id idx, busTarget p off = .byte id idx → idx < capacity p id) ∧
    (∀ (s : State) (off v : Nat), busTarget p off = .hole →
      perform (busRead p off) s = .next { s with reply := some 0 } ∧
      perform (busWrite p off v) s = .next { s with reply := none })

/-! ## Decoding -/

/-- The words of 30_encoding.md written out by hand: R92, R97 to R99, R104, R108, R118. The slot of a bare word is the
model's choice (log entry 10). -/
def Obligations.WordsDecodeToTheirInstructions : Prop :=
  decodeTableWord 8 0b00000100 = some .msgdec ∧
  decodeTableWord 8 0b00000111 = some (.badcmd 7) ∧
  decodeTableWord 32 0b01100010010001010001001000110100 = some (.hdr 2 2 0x45 0x1234) ∧
  decodeTableWord 32 0b01000010000000010001001000110100 = some (.gethdr 2 0x1234) ∧
  decode .optionHead [0b10110001] = .ok (.opt 11 1) [] ∧
  decode .optionHead [0b11111111] = .ok .mark [] ∧
  decode .nibble [0b00001101] = .ok .nibExt8 [] ∧
  decode .ext16 [0b00000010, 0b11110011] = .ok (.ext16 0x02 0xF3) [] ∧
  decode .code [0b01000101] = .ok (.code 2 5) []

/-- Decode and encode agree: every well-formed instruction of every family is decoded from its own bytes in its slot,
whatever follows (nothing follows a PAYLOAD, R105). -/
def Obligations.DecodeOfEncodeIsTheInstruction : Prop :=
  ∀ (i : Instr) (rest : List Byte), i.wf = true → (slotOf i = .payload → rest = []) →
    decode (slotOf i) (encode i ++ rest) = .ok i rest

/-- The other direction: what the decoder answers is well formed, belongs in the slot, and encodes to the bytes it was
read from. So no two instructions share bytes in one slot, and no reserved encoding falls to a neighbour. -/
def Obligations.EncodeOfDecodeIsTheBytes : Prop :=
  ∀ (slot : Slot) (bs rest : List Byte) (i : Instr), decode slot bs = .ok i rest →
    i.wf = true ∧ slotOf i = slot ∧ encode i ++ rest = bs
end

