-- ==== Sys2Proof/Laws/Bits.lean ====
section
/-! SUPPORT. Bit fields and byte order: each field reads back what was packed. -/

namespace Sys2Proof.Machine

/-- The first byte is the more significant one (R60). -/
theorem be16_toNat (h l : Byte) : (be16 h l).toNat = 256 * h.toNat + l.toNat := by
  show (h ++ l).toNat = _
  rw [BitVec.toNat_append, ← Nat.shiftLeft_add_eq_or_of_lt l.isLt, Nat.shiftLeft_eq]; omega

/-- Splitting a 16-bit value and assembling it gives it back. -/
theorem be16_highByte_lowByte (w : BitVec 16) : be16 (highByte w) (lowByte w) = w := by
  apply BitVec.eq_of_toNat_eq
  rw [be16_toNat]
  simp [highByte, lowByte, Nat.shiftRight_eq_div_pow]; omega

/-- The first byte of an assembled value. -/
theorem highByte_be16 (h l : Byte) : highByte (be16 h l) = h := by
  apply BitVec.eq_of_toNat_eq
  simp [highByte, be16_toNat, Nat.shiftRight_eq_div_pow]; omega

/-- The second byte of an assembled value. -/
theorem lowByte_be16 (h l : Byte) : lowByte (be16 h l) = l := by
  apply BitVec.eq_of_toNat_eq
  simp [lowByte, be16_toNat]; omega

/-- The high nibble of a joined byte. -/
theorem hiNibble_join (a b : Nibble) : hiNibble (joinNibbles a b) = a := by revert a b; decide

/-- The low nibble of a joined byte. -/
theorem loNibble_join (a b : Nibble) : loNibble (joinNibbles a b) = b := by revert a b; decide

/-- Two nibbles make the byte 0xFF only if both are 15 (R103, R104). -/
theorem join_eq_mark (a b : Nibble) : joinNibbles a b = 0xFF#8 ↔ a = 15#4 ∧ b = 15#4 := by revert a b; decide

/-- A byte is its two nibbles joined. -/
theorem join_nibbles (b : Byte) : joinNibbles (hiNibble b) (loNibble b) = b := by revert b; decide

/-- The version of a packed first header byte (R92). -/
theorem verOf_pack (v t : BitVec 2) (k : BitVec 4) : verOf (packFirst v t k) = v := by revert v t k; decide

/-- Its type. -/
theorem typOf_pack (v t : BitVec 2) (k : BitVec 4) : typOf (packFirst v t k) = t := by revert v t k; decide

/-- Its token length. -/
theorem tklOf_pack (v t : BitVec 2) (k : BitVec 4) : tklOf (packFirst v t k) = k := by revert v t k; decide

end Sys2Proof.Machine
end

