-- ==== Sys2Proof/Laws/Bytes.lean ====
section
/-! SUPPORT. Runs of bytes, and bytes that stand at an index. -/

namespace Sys2Proof.Machine

/-- No bytes. -/
@[simp] theorem bytesFrom_zero (rd : Nat → Byte) (c : Nat) : bytesFrom rd c 0 = [] := rfl

/-- The first byte, then the rest. -/
theorem bytesFrom_succ (rd : Nat → Byte) (c n : Nat) : bytesFrom rd c (n + 1) = rd c :: bytesFrom rd (c + 1) n := by
  simp only [bytesFrom, List.range_succ_eq_map, List.map_cons, List.map_map, Nat.add_zero, List.cons.injEq, true_and]
  apply List.map_congr_left; intro a _; simp [Nat.add_assoc, Nat.add_comm 1]

/-- As many as asked for. -/
@[simp] theorem bytesFrom_length (rd : Nat → Byte) (c n : Nat) : (bytesFrom rd c n).length = n := by simp [bytesFrom]

/-- A run depends on its own bytes only. -/
theorem bytesFrom_congr {rd rd' : Nat → Byte} {c n : Nat} (h : ∀ i, c ≤ i → i < c + n → rd i = rd' i) :
    bytesFrom rd c n = bytesFrom rd' c n := by
  apply List.map_congr_left; intro a ha; simp at ha; exact h _ (by omega) (by omega)

/-- A run cut in two. -/
theorem bytesFrom_add (rd : Nat → Byte) (c m n : Nat) : bytesFrom rd c (m + n) = bytesFrom rd c m ++ bytesFrom rd (c + m) n := by
  induction m generalizing c with
  | zero => simp
  | succ m ih => rw [Nat.add_right_comm, bytesFrom_succ, bytesFrom_succ, ih]; simp [Nat.add_assoc, Nat.add_comm 1]

/-- Byte `i` of a run. -/
theorem bytesFrom_getElem? (rd : Nat → Byte) (c n i : Nat) (h : i < n) : (bytesFrom rd c n)[i]? = some (rd (c+i)) := by
  simp [bytesFrom, h]

/-- Byte `i` of a padded token: 0 beyond its length (R51, R52). -/
theorem pad8_getElem (bs : List Byte) (i : Nat) (h : i < 8) : (pad8 bs)[i] = bs.getD i 0 := by
  interval_cases i <;> rfl

/-- The bytes at `c` are `bs`, inside `fin`. -/
def HoldsAt (rd : Nat → Byte) (c fin : Nat) (bs : List Byte) : Prop := bytesFrom rd c bs.length = bs ∧ c + bs.length ≤ fin

/-- Bytes that stand at an index, cut in two. -/
theorem HoldsAt.append {rd c fin as bs} (h : HoldsAt rd c fin (as ++ bs)) : HoldsAt rd c fin as ∧ HoldsAt rd (c + as.length) fin bs := by
  obtain ⟨h1, h2⟩ := h
  rw [List.length_append] at h1 h2
  rw [bytesFrom_add] at h1
  have := List.append_inj h1 (by simp)
  exact ⟨⟨this.1, by omega⟩, ⟨this.2, by omega⟩⟩

/-- The first of the bytes that stand at an index. -/
theorem HoldsAt.cons {rd c fin b bs} (h : HoldsAt rd c fin (b :: bs)) : rd c = b ∧ c < fin ∧ HoldsAt rd (c + 1) fin bs := by
  obtain ⟨h1, h2⟩ := h
  simp only [List.length_cons, bytesFrom_succ, List.cons.injEq] at h1
  simp at h2
  exact ⟨h1.1, by omega, h1.2, by omega⟩

end Sys2Proof.Machine
end

