-- ==== Sys2Proof/Laws/Uvar.lean ====
section
/-! SUPPORT. UvarEncode and UvarDecode: everything each can answer. -/

namespace Sys2Proof.Machine

/-- The four classes of a nibble (R98). -/
theorem nibClass_cases (nib : Nibble) : (nib.toNat ≤ 12 ∧ nibClass nib = .lit) ∨ nib = 13#4 ∨ nib = 14#4 ∨ nib = 15#4 := by
  revert nib; decide

/-- The cases of UvarEncode. -/
theorem uvarEncode_cases {n : Nat} {nib : Nibble} {ext : List Byte} (h : uvarEncode n = some (nib, ext)) :
    (n < 13 ∧ nib.toNat = n ∧ nibClass nib = .lit ∧ ext = []) ∨
    (13 ≤ n ∧ n < 269 ∧ nib = 13#4 ∧ ∃ e : Byte, ext = [e] ∧ 13 + e.toNat = n) ∨
    (269 ≤ n ∧ n ≤ 65804 ∧ nib = 14#4 ∧ ∃ a b : Byte, ext = [a, b] ∧ 269 + (be16 a b).toNat = n) := by
  unfold uvarEncode at h
  split at h
  · rename_i hn
    simp only [Option.some.injEq, Prod.mk.injEq] at h
    obtain ⟨rfl, rfl⟩ := h
    left; refine ⟨hn, by simp; omega, ?_, rfl⟩
    interval_cases n <;> rfl
  · split at h
    · simp only [Option.some.injEq, Prod.mk.injEq] at h
      obtain ⟨rfl, rfl⟩ := h
      right; left; exact ⟨by omega, by omega, rfl, _, rfl, by simp; omega⟩
    · split at h
      · simp only [Option.some.injEq, Prod.mk.injEq] at h
        obtain ⟨rfl, rfl⟩ := h
        right; right; exact ⟨by omega, by omega, rfl, _, _, rfl, by rw [be16_highByte_lowByte]; simp; omega⟩
      · simp at h

/-- UvarEncode is defined up to 65804 (R130, R134). -/
theorem uvarEncode_isSome {n : Nat} (h : n ≤ 65804) : ∃ nib ext, uvarEncode n = some (nib, ext) := by
  unfold uvarEncode; rw [if_pos h]; split
  · exact ⟨_, _, rfl⟩
  · split
    · exact ⟨_, _, rfl⟩
    · exact ⟨_, _, rfl⟩

/-- The cases of UvarDecode that succeed. -/
theorem uvarDecode_cases {nib : Nibble} {rd : Nat → Byte} {c fin n c' : Nat} (h : uvarDecode nib rd c fin = .ok (n, c')) :
    (nib.toNat ≤ 12 ∧ nibClass nib = .lit ∧ n = nib.toNat ∧ c' = c) ∨
    (nib = 13#4 ∧ c + 1 ≤ fin ∧ n = 13 + (rd c).toNat ∧ c' = c + 1) ∨
    (nib = 14#4 ∧ c + 2 ≤ fin ∧ n = 269 + (be16 (rd c) (rd (c + 1))).toNat ∧ c' = c + 2) := by
  rcases nibClass_cases nib with ⟨h1, h2⟩ | rfl | rfl | rfl
  · simp [uvarDecode, h2] at h; left; exact ⟨h1, h2, h.1.symm, h.2.symm⟩
  · simp [uvarDecode, nibClass] at h
    split at h <;> simp at h
    right; left; exact ⟨rfl, by omega, h.1.symm, h.2.symm⟩
  · simp [uvarDecode, nibClass] at h
    split at h <;> simp at h
    right; right; exact ⟨rfl, by omega, h.1.symm, h.2.symm⟩
  · simp [uvarDecode, nibClass] at h

/-- UvarDecode by the number of extension bytes of the class (R131, R139). -/
theorem uvarDecode_eq (nib : Nibble) (rd c fin) :
    uvarDecode nib rd c fin =
      if nib = 15#4 then .error .reservedNibble
      else if fin - c < (nibClass nib).extBytes then .error .truncatedExtension
      else .ok ((extValue nib (rd c) (rd (c + 1))).getD 0, c + (nibClass nib).extBytes) := by
  rcases nibClass_cases nib with ⟨h1, h2⟩ | rfl | rfl | rfl
  · have : nib ≠ 15#4 := by rintro rfl; simp at h1
    simp [uvarDecode, h2, this, extValue, NibClass.extBytes]
  · simp [uvarDecode, nibClass, extValue, NibClass.extBytes]
  · simp [uvarDecode, nibClass, extValue, NibClass.extBytes]
  · simp [uvarDecode, nibClass]

/-- The two ways UvarDecode fails (R131). -/
theorem uvarDecode_error {nib rd c fin k} (h : uvarDecode nib rd c fin = .error k) : k = .truncatedExtension ∨ k = .reservedNibble := by
  rw [uvarDecode_eq] at h
  split at h
  · simp at h; exact .inr h.symm
  · split at h <;> simp at h; exact .inl h.symm

/-- A kind that is raised at a cursor; BadCommand, BadParam and UvarRange are raised at 0 (R25). -/
def ErrKind.AtCursor (k : ErrKind) : Prop := k ≠ .badCommand ∧ k ≠ .badParam ∧ k ≠ .uvarRange

/-- UvarDecode fails at a cursor. -/
theorem uvarDecode_atCursor {nib rd c fin k} (h : uvarDecode nib rd c fin = .error k) : k.AtCursor := by
  rcases uvarDecode_error h with rfl | rfl <;> simp [ErrKind.AtCursor]

/-- The header checks fail at a cursor (R173, R174, R176). -/
theorem headerCheck_atCursor {ver tkl len k} (h : headerCheck ver tkl len = some k) : k.AtCursor := by
  unfold headerCheck at h
  split at h <;> [skip; split at h <;> [skip; split at h]] <;> simp at h <;> subst h <;> simp [ErrKind.AtCursor]

/-- A cursor that UvarDecode moves stays inside its bound, and its value inside R100. -/
theorem uvarDecode_le {nib rd c fin n c'} (h : uvarDecode nib rd c fin = .ok (n, c')) (hc : c ≤ fin) : c ≤ c' ∧ c' ≤ fin ∧ n ≤ 65804 := by
  rcases uvarDecode_cases h with ⟨h1, _, rfl, rfl⟩ | ⟨rfl, _, rfl, rfl⟩ | ⟨rfl, _, rfl, rfl⟩
  · omega
  · have := (rd c).isLt; omega
  · have := (be16 (rd c) (rd (c+1))).isLt; omega

/-- UvarDecode reads no byte at or beyond its bound (R63). -/
theorem uvarDecode_congr {nib : Nibble} {rd rd' : Nat → Byte} {c fin : Nat} (h : ∀ i, i < fin → rd' i = rd i) :
    uvarDecode nib rd' c fin = uvarDecode nib rd c fin := by
  unfold uvarDecode
  split
  · rfl
  · split
    · rfl
    · rw [h c (by omega)]
  · split
    · rfl
    · rw [h c (by omega), h (c + 1) (by omega)]
  · rfl

end Sys2Proof.Machine
end

