-- ==== Sys2Proof/Laws/Walk.lean ====
section
/-! SUPPORT. The option walk of MSGDEC: what it can answer, and which bytes it reads. -/

namespace Sys2Proof.Machine

/-- What a walk from `start` in a buffer of `len` bytes leaves. -/
def Walked.ok (start len : Nat) : Walked → Prop
  | .reached w => start ≤ w.cur ∧ w.cur ≤ len ∧ w.cnt = w.trace.length
  | .failed k pos w => (k = .truncatedExtension ∨ k = .reservedNibble ∨ k = .truncatedBuffer) ∧ start ≤ pos ∧ pos ≤ len ∧ w.cnt = w.trace.length

/-- A walk that began later is a walk that began earlier. -/
theorem Walked.ok_mono {a b len : Nat} (h : a ≤ b) {r : Walked} (hr : r.ok b len) : r.ok a len := by
  cases r
  · simp only [Walked.ok] at hr ⊢
    exact ⟨by omega, hr.2⟩
  · simp only [Walked.ok] at hr ⊢
    exact ⟨hr.1, by omega, hr.2.2⟩

/-- What a walk leaves. -/
theorem walkOptions_ok (rd : Nat → Byte) (len n : Nat) (w : WalkState) (hc : w.cur ≤ len) (ht : w.cnt = w.trace.length) :
    (walkOptions rd len n w).ok w.cur len := by
  induction n generalizing w with
  | zero => exact ⟨Nat.le_refl _, hc, ht⟩
  | succ n ih =>
    simp only [walkOptions]
    split
    · rename_i hlt
      split
      · simp [Walked.ok]; omega
      · split
        · rename_i k hd
          rcases uvarDecode_error hd with rfl | rfl <;> simp [Walked.ok] <;> omega
        · rename_i d c1 hd
          have h1 := uvarDecode_le hd (by omega)
          split
          · rename_i k hd
            rcases uvarDecode_error hd with rfl | rfl <;> simp [Walked.ok] <;> omega
          · rename_i l c2 hl
            have h2 := uvarDecode_le hl (by omega)
            split
            · simp [Walked.ok]; omega
            · exact Walked.ok_mono (by dsimp only; omega) (ih { cur := c2 + l, last := w.last + d, cnt := w.cnt + 1, trace := w.trace ++ [{ num := w.last + d, off := c2, length := l }] } (by dsimp only; omega) (by simp [ht]))
    · exact ⟨Nat.le_refl _, hc, ht⟩

/-- The walk reads no byte at or beyond RXLEN (R63). -/
theorem walkOptions_congr {rd rd' : Nat → Byte} {len : Nat} (h : ∀ i, i < len → rd' i = rd i) (n : Nat) (w : WalkState) :
    walkOptions rd' len n w = walkOptions rd len n w := by
  induction n generalizing w with
  | zero => rfl
  | succ n ih =>
    simp only [walkOptions]
    split
    · rename_i hlt
      rw [h _ hlt]
      simp only [uvarDecode_congr h, ih]
    · rfl

end Sys2Proof.Machine
end

