-- ==== Sys2Proof/Laws/Commands.lean ====
section
/-! SUPPORT. What each command, and each host transaction, can do when it answers a next state. -/

namespace Sys2Proof.Machine

/-- Two next outcomes with one state. -/
theorem next_inj {s t : State} (h : (Host.Outcome.next s : Outcome) = .next t) : s = t := by injection h

/-- A header that is accepted (R93). -/
theorem headerCheck_none {ver tkl len} (h : headerCheck ver tkl len = none) : ver = 1#2 ∧ tkl.toNat ≤ 8 ∧ tkl.toNat ≤ len - 4 := by
  unfold headerCheck at h; split at h <;> [simp at h; split at h <;> [simp at h; split at h <;> [simp at h; skip]]]
  rename_i a b c
  exact ⟨not_not.mp a, by omega, by omega⟩

/-- Everything UVENC can do. -/
theorem uvenc_effect {s t : State} (h : exec .uvenc s = .next t) : t = raise .uvenc .uvarRange 0 s ∨
    ∃ nib ext, uvarEncode s.uvVal.toNat = some (nib, ext) ∧ t = succeed .uvv { s with uvNib := nib, uvExtLen := BitVec.ofNat 2 ext.length, uvExt := pad2 ext } := by
  simp only [exec, execUvenc] at h
  split at h <;> simp only [Host.Outcome.next.injEq] at h
  · exact .inl h.symm
  · exact .inr ⟨_, _, ‹_›, h.symm⟩

/-- Everything UVDEC can do. -/
inductive UvdecEffect (s t : State) : Prop
  | bad (hl : uvdecLegal s = false) (ht : t = raise .uvdec .badParam 0 s)
  | fails (k : ErrKind) (hl : uvdecLegal s = true) (hd : uvarDecode s.uvNib s.rxByte s.uvCur s.rxLen = .error k) (ht : t = raise .uvdec k s.uvCur s)
  | ends (v c : Nat) (hl : uvdecLegal s = true) (hd : uvarDecode s.uvNib s.rxByte s.uvCur s.rxLen = .ok (v, c))
      (ht : t = finishUvdec v c (bytesFrom s.rxByte s.uvCur (c - s.uvCur)) s)

/-- UVDEC does one of these. -/
theorem uvdec_effect {s t : State} (h : exec .uvdec s = .next t) : UvdecEffect s t := by
  simp only [exec, execUvdec] at h
  split at h
  · split at h <;> simp only [Host.Outcome.next.injEq] at h
    · exact .fails _ ‹_› ‹_› h.symm
    · exact .ends _ _ ‹_› ‹_› h.symm
  · simp only [Host.Outcome.next.injEq] at h
    rename_i hl; exact .bad (by simpa using hl) h.symm

/-- Everything MSGENC can do. -/
inductive MsgencEffect (s t : State) : Prop
  | bad (hl : msgencLegal s = false) (ht : t = raise .msgenc .badParam 0 s)
  | ends (p : List Byte) (hl : msgencLegal s = true) (hp : packetBytes s.encTkl s.midSrc s.tokenSource s.pathBytes = some p)
      (hm : p.length ≤ s.cfg.txMax) (ht : t = finishMsgenc p.length { s with tx := s.tx.writeBytes 0 p })

/-- MSGENC does one of these. -/
theorem msgenc_effect {s t : State} (h : exec .msgenc s = .next t) : MsgencEffect s t := by
  simp only [exec, execMsgenc] at h
  split at h
  · split at h <;> [simp at h; skip]
    split at h <;> simp only [Host.Outcome.next.injEq, reduceCtorEq] at h
    exact .ends _ ‹_› ‹_› ‹_› h.symm
  · simp only [Host.Outcome.next.injEq] at h
    rename_i hl; exact .bad (by simpa using hl) h.symm

/-- Everything MSGDEC can do. -/
inductive MsgdecEffect (s t : State) : Prop
  | bad (hl : s.cfg.rxMax < s.rxLen) (ht : t = raise (.msgdec 0 0) .badParam 0 { s with trace := [] })
  | fails (k : ErrKind) (pos : Nat) (w : WalkState) (hl : s.rxLen ≤ s.cfg.rxMax) (hw : w.cnt = w.trace.length) (hp : pos ≤ s.rxLen)
      (hk : k.AtCursor)
      (ht : t = failMsgdec k pos w s)
  | ends (w : WalkState) (hl : s.rxLen ≤ s.cfg.rxMax) (hv : verOf (s.rxByte 0) = 1#2) (hk : (tklOf (s.rxByte 0)).toNat ≤ 8)
      (h4 : 4 + (tklOf (s.rxByte 0)).toNat ≤ s.rxLen) (hw : walkFrom s.rxByte s.rxLen (4 + (tklOf (s.rxByte 0)).toNat) = .reached w)
      (ht : t = finishMsgdec
          { ver := verOf (s.rxByte 0), typ := typOf (s.rxByte 0), tkl := tklOf (s.rxByte 0), code := s.rxByte 1,
            mid := be16 (s.rxByte 2) (s.rxByte 3), token := bytesFrom s.rxByte 4 (tklOf (s.rxByte 0)).toNat }
          w (bytesFrom s.rxByte w.cur (s.rxLen - w.cur)) s)

/-- MSGDEC does one of these. -/
theorem msgdec_effect {s t : State} (h : exec .msgdec s = .next t) : MsgdecEffect s t := by
  simp only [exec, execMsgdec] at h
  split at h <;> simp only [Host.Outcome.next.injEq] at h
  swap
  · exact .bad (by omega) h.symm
  rename_i hl
  unfold decodeDatagram at h
  split at h
  · exact .fails _ 0 _ hl rfl (by omega) (by simp [ErrKind.AtCursor]) h.symm
  dsimp only at h
  split at h
  · exact .fails _ 4 _ hl rfl (by omega) (headerCheck_atCursor ‹_›) h.symm
  · rename_i hh
    obtain ⟨h1, h2, h3⟩ := headerCheck_none hh
    have hs := walkOptions_ok s.rxByte s.rxLen s.rxLen { cur := 4 + (tklOf (s.rxByte 0)).toNat, last := 0, cnt := 0, trace := [] } (by dsimp only; omega) rfl
    change (walkFrom s.rxByte s.rxLen (4 + (tklOf (s.rxByte 0)).toNat)).ok (4 + (tklOf (s.rxByte 0)).toNat) s.rxLen at hs
    split at h
    · rename_i hw; rw [hw] at hs
      exact .fails _ _ _ hl hs.2.2.2 hs.2.2.1 (by rcases hs.1 with rfl | rfl | rfl <;> simp [ErrKind.AtCursor]) h.symm
    · rename_i hw; rw [hw] at hs
      exact .ends _ hl h1 h2 (by omega) hw h.symm

/-- Everything a CMD write can do. -/
inductive CmdEffect (s t : State) : Prop
  | uvenc (h : t = raise .uvenc .uvarRange 0 s ∨
    ∃ nib ext, uvarEncode s.uvVal.toNat = some (nib, ext) ∧ t = succeed .uvv { s with uvNib := nib, uvExtLen := BitVec.ofNat 2 ext.length, uvExt := pad2 ext })
  | uvdec (h : UvdecEffect s t)
  | msgenc (h : MsgencEffect s t)
  | msgdec (h : exec .msgdec s = .next t) (h : MsgdecEffect s t)
  | fmt (h : t = formatCode (classOf s.fmtCode) (detailOf s.fmtCode) s)
  | clear (h : t = clearedRegisters s)
  | badcmd (h : t = raise .none .badCommand 0 s)

/-- A CMD write does one of these. -/
theorem cmd_effect {v : BitVec 8} {s t : State} (h : exec (decodeCmd v) s = .next t) : CmdEffect s t := by
  unfold decodeCmd at h
  split at h
  · exact .uvenc (uvenc_effect h)
  · exact .uvdec (uvdec_effect h)
  · exact .msgenc (msgenc_effect h)
  · exact .msgdec h (msgdec_effect h)
  · exact .fmt (next_inj h).symm
  · exact .clear (next_inj h).symm
  · exact .badcmd (next_inj h).symm

/-- A ReadBuf changes nothing but the reply (R65). -/
theorem readBuffer_eq (s : State) (id idx : Nat) : readBuffer s id idx = { s with reply := (readBuffer s id idx).reply } := by
  unfold readBuffer; split <;> [split; skip] <;> rfl

/-- What a ReadBuf returns depends on the parameters, the byte and the draw of never-written content alone. -/
theorem readBuffer_reply_congr {s u : State} {id idx : Nat} (hc : u.cfg = s.cfg) (hd : u.draws = s.draws)
    (hb : byteAtSpace u id idx = byteAtSpace s id idx) : (readBuffer u id idx).reply = (readBuffer s id idx).reply := by
  unfold readBuffer; rw [hc, hd, hb]; split <;> [split; skip] <;> rfl

/-- Everything a host transaction can do. -/
inductive TxnEffect (s t : State) : Prop
  | cmd (v : BitVec 8) (h : CmdEffect { s with reply := none, cmd := v } t)
  | read (r : Option Nat) (h : t = { s with reply := r })
  | reg (no : BitVec 6) (v : Nat) (h : t = writeRegister { s with reply := none } no v)
  | buf (id idx : Nat) (b : Byte) (h : t = writeBuffer { s with reply := none } id idx b)
  | reset (h : t = resetBlock s)

/-- A host transaction does one of these. -/
theorem txn_effect {x : HostTxn} {s t : State} (h : perform x s = .next t) : TxnEffect s t := by
  cases x with
  | readReg no => exact .read _ (next_inj h).symm
  | writeReg no v =>
    simp only [perform] at h
    split at h
    · exact .cmd _ (cmd_effect h)
    · exact .reg _ _ (next_inj h).symm
  | readBuf id idx =>
    have h := (next_inj h).symm
    unfold readBuffer at h
    split at h
    · split at h
      · exact .read _ h
      · exact .read _ h
    · exact .read _ h
  | writeBuf id idx b => exact .buf _ _ _ (next_inj h).symm
  | reset => exact .reset (next_inj h).symm

end Sys2Proof.Machine
end

