-- ==== Sys2Proof/Laws/Path.lean ====
section
/-! SUPPORT. The path: how many bytes its segments have, and that the scan with a read index finds them. -/

namespace Sys2Proof.Machine

/-- Bytes of a path pay for its segments and one separator each. -/
theorem segmentsFrom_cost (acc bs : List Byte) :
    ((segmentsFrom acc bs).map fun s => s.length + 1).sum ≤ acc.length + bs.length + 1 := by
  induction bs generalizing acc with
  | nil => simp only [segmentsFrom]; split <;> simp
  | cons b bs ih =>
    simp only [segmentsFrom]
    split
    · split
      · have := ih []; simp at this ⊢; omega
      · have := ih []; simp at this ⊢; omega
    · have := ih (acc ++ [b]); simp at this ⊢; omega

/-- Every segment but one has its separator in the path (R162). -/
theorem segments_cost (bs : List Byte) : ((segments bs).map fun s => s.length + 1).sum ≤ bs.length + 1 := by
  have := segmentsFrom_cost [] bs; simpa [segments] using this

/-- A segment is no longer than its path. -/
theorem segments_length_le (bs : List Byte) : ∀ seg ∈ segments bs, seg.length ≤ bs.length := by
  intro seg h
  have h1 := segments_cost bs
  have := List.single_le_sum (by simp) _ (List.mem_map_of_mem (f := fun s : List Byte => s.length + 1) h)
  omega

/-- The segments together are no longer than their path. -/
theorem segments_sum_le (bs : List Byte) : ((segments bs).map List.length).sum ≤ bs.length := by
  suffices ∀ acc, ((segmentsFrom acc bs).map List.length).sum ≤ acc.length + bs.length by simpa [segments] using this []
  induction bs with
  | nil => intro acc; simp only [segmentsFrom]; split <;> simp
  | cons b bs ih =>
    intro acc
    simp only [segmentsFrom]
    split
    · split
      · have := ih []; simp at this ⊢; omega
      · have := ih []; simp at this ⊢; omega
    · have := ih (acc ++ [b]); simp at this ⊢; omega

/-- Where the read index stands after the separators (R150). -/
theorem skipSeparators_spec (rd : Nat → Byte) (fin n rp : Nat) (hn : fin ≤ rp + n) (hr : rp ≤ fin) :
    rp ≤ skipSeparators rd fin n rp ∧ skipSeparators rd fin n rp ≤ fin ∧
    segments (bytesFrom rd rp (fin - rp)) = segments (bytesFrom rd (skipSeparators rd fin n rp) (fin - skipSeparators rd fin n rp)) ∧
    (skipSeparators rd fin n rp < fin → rd (skipSeparators rd fin n rp) ≠ separator) := by
  induction n generalizing rp with
  | zero => simp only [skipSeparators]; exact ⟨Nat.le_refl _, hr, trivial, fun h => by omega⟩
  | succ n ih =>
    simp only [skipSeparators]
    split
    · rename_i h
      obtain ⟨h1, h2, h3, h4⟩ := ih (rp + 1) (by omega) (by omega)
      refine ⟨by omega, h2, ?_, h4⟩
      rw [← h3, show fin - rp = (fin - (rp + 1)) + 1 by omega, bytesFrom_succ, h.2]
      simp [segments, segmentsFrom]
    · rename_i h
      exact ⟨Nat.le_refl _, hr, rfl, fun h' hs => h ⟨h', hs⟩⟩

/-- Where the read index stands after a segment (R150). -/
theorem segmentEnd_spec (rd : Nat → Byte) (fin n rp : Nat) (acc : List Byte) (hn : fin ≤ rp + n) (hr : rp ≤ fin) :
    rp ≤ segmentEnd rd fin n rp ∧ segmentEnd rd fin n rp ≤ fin ∧
    segmentsFrom acc (bytesFrom rd rp (fin - rp)) =
      segmentsFrom (acc ++ bytesFrom rd rp (segmentEnd rd fin n rp - rp)) (bytesFrom rd (segmentEnd rd fin n rp) (fin - segmentEnd rd fin n rp)) ∧
    (segmentEnd rd fin n rp = fin ∨ rd (segmentEnd rd fin n rp) = separator) := by
  induction n generalizing rp acc with
  | zero => simp [segmentEnd]; omega
  | succ n ih =>
    simp only [segmentEnd]
    split
    · rename_i h
      obtain ⟨h1, h2, h3, h4⟩ := ih (rp + 1) (acc ++ [rd rp]) (by omega) (by omega)
      refine ⟨by omega, h2, ?_, h4⟩
      rw [show fin - rp = (fin - (rp + 1)) + 1 by omega, bytesFrom_succ]
      conv_lhs => rw [segmentsFrom, if_neg h.2]
      rw [h3, show segmentEnd rd fin n (rp + 1) - rp = (segmentEnd rd fin n (rp + 1) - (rp + 1)) + 1 by omega, bytesFrom_succ]
      simp
    · rename_i h
      refine ⟨Nat.le_refl _, hr, by simp, ?_⟩
      by_cases h2 : rp < fin
      · right; by_contra h3; exact h ⟨h2, h3⟩
      · left; omega

/-- A segment that a separator or the end of the path closes. -/
theorem segmentsFrom_closed (rd : Nat → Byte) (fin e : Nat) (acc : List Byte) (ha : acc ≠ []) (he : e ≤ fin) (h : e = fin ∨ rd e = separator) :
    segmentsFrom acc (bytesFrom rd e (fin - e)) = acc :: segments (bytesFrom rd e (fin - e)) := by
  by_cases h2 : e = fin
  · subst h2; simp [segmentsFrom, segments, ha]
  · have h3 := h.resolve_left h2
    rw [show fin - e = (fin - (e + 1)) + 1 by omega, bytesFrom_succ, h3]
    simp [segmentsFrom, segments, ha]

/-- Scanning for the next segment finds the first of `segments` (R150, R154). -/
theorem nextSegment_spec (s : State) (rp : Nat) (hr : rp ≤ s.pathLen) :
    (nextSegment s rp).1 ≤ s.pathLen ∧ (nextSegment s rp).2 ≤ s.pathLen ∧ (nextSegment s rp).1 ≤ (nextSegment s rp).2 ∧
    (¬ (nextSegment s rp).1 < s.pathLen → segments (bytesFrom s.pathByte rp (s.pathLen - rp)) = []) ∧
    ((nextSegment s rp).1 < s.pathLen → segments (bytesFrom s.pathByte rp (s.pathLen - rp)) =
      bytesFrom s.pathByte (nextSegment s rp).1 ((nextSegment s rp).2 - (nextSegment s rp).1) ::
        segments (bytesFrom s.pathByte (nextSegment s rp).2 (s.pathLen - (nextSegment s rp).2))) := by
  obtain ⟨a1, a2, a3, a4⟩ := skipSeparators_spec s.pathByte s.pathLen s.pathLen rp (by omega) hr
  obtain ⟨b1, b2, b3, b4⟩ := segmentEnd_spec s.pathByte s.pathLen s.pathLen (skipSeparators s.pathByte s.pathLen s.pathLen rp) [] (by omega) a2
  simp only [nextSegment]
  refine ⟨a2, b2, b1, fun h => ?_, fun h => ?_⟩
  · rw [a3, show s.pathLen - skipSeparators s.pathByte s.pathLen s.pathLen rp = 0 by omega]; rfl
  · rw [a3]
    show segmentsFrom [] _ = _
    rw [b3, List.nil_append]
    have hne : bytesFrom s.pathByte (skipSeparators s.pathByte s.pathLen s.pathLen rp) (segmentEnd s.pathByte s.pathLen s.pathLen (skipSeparators s.pathByte s.pathLen s.pathLen rp) - skipSeparators s.pathByte s.pathLen s.pathLen rp) ≠ [] := by
      intro h0
      have := congrArg List.length h0
      simp at this
      have he : segmentEnd s.pathByte s.pathLen s.pathLen (skipSeparators s.pathByte s.pathLen s.pathLen rp) = skipSeparators s.pathByte s.pathLen s.pathLen rp := by omega
      rcases b4 with b4 | b4
      · omega
      · rw [he] at b4; exact a4 h b4
    rw [segmentsFrom_closed _ _ _ _ hne b2 b4]

end Sys2Proof.Machine
end

