-- ==== Sys2Proof/Laws/Encoder.lean ====
section
/-! SUPPORT. The packet of MSGENC and its length. -/

namespace Sys2Proof.Machine

/-- The header word MSGENC emits, byte by byte (R94). -/
theorem encode_gethdr (tkl : BitVec 4) (mid : BitVec 16) :
    encode (.gethdr tkl mid) =
      [BitVec.ofNat 8 (0x40 + tkl.toNat), 0x01#8, BitVec.ofNat 8 (mid.toNat / 256), BitVec.ofNat 8 (mid.toNat % 256)] := by
  have h1 : packFirst 1#2 0#2 tkl = BitVec.ofNat 8 (0x40 + tkl.toNat) := by revert tkl; decide
  have h2 : highByte mid = BitVec.ofNat 8 (mid.toNat / 256) := by
    apply BitVec.eq_of_toNat_eq; simp [highByte, Nat.shiftRight_eq_div_pow]
  have h3 : lowByte mid = BitVec.ofNat 8 (mid.toNat % 256) := by
    apply BitVec.eq_of_toNat_eq; simp [lowByte]
  simp [encode, h1, h2, h3]

/-- A Uri-Path option by R155's table. -/
theorem optionItem_uriPath (first : Bool) (seg : List Byte) (h : seg.length ≤ 65804) :
    optionItem (if first then 11 else 0) seg = some (uriPathItem first seg) := by
  have e1 : uvarEncode (if first then 11 else 0) = some (if first then 11#4 else 0#4, []) := by
    cases first <;> rfl
  obtain ⟨nib, ext, he⟩ := uvarEncode_isSome h
  unfold optionItem uriPathItem
  rw [e1, he]
  simp only [List.nil_append, Option.some.injEq]
  rcases uvarEncode_cases he with ⟨h1, h2, h3, rfl⟩ | ⟨ha, hb, rfl, e, rfl, h1⟩ | ⟨ha, hb, rfl, a, b, rfl, h1⟩
  · rw [if_pos (show seg.length ≤ 12 by omega)]
    have hn : nib = BitVec.ofNat 4 seg.length := by apply BitVec.eq_of_toNat_eq; rw [h2]; simp; omega
    subst hn
    simp only [List.nil_append, List.cons.injEq, and_true]
    generalize seg.length = n at *
    clear * - h1
    cases first <;> interval_cases n <;> rfl
  · rw [if_neg (show ¬ seg.length ≤ 12 by omega), if_pos (show seg.length ≤ 268 by omega)]
    have : e = BitVec.ofNat 8 (seg.length - 13) := by apply BitVec.eq_of_toNat_eq; simp; omega
    subst this
    simp
    cases first <;> rfl
  · rw [if_neg (show ¬ seg.length ≤ 12 by omega), if_neg (show ¬ seg.length ≤ 268 by omega)]
    rw [be16_toNat] at h1
    have e1 : a = BitVec.ofNat 8 ((seg.length - 269)/256) := by apply BitVec.eq_of_toNat_eq; simp; omega
    have e2 : b = BitVec.ofNat 8 ((seg.length - 269)%256) := by apply BitVec.eq_of_toNat_eq; simp; omega
    subst e1 e2
    simp
    cases first <;> rfl

/-- The options of the segments by R155's table (R156). -/
theorem optionsBytes_eq (first : Bool) (segs : List (List Byte)) (h : ∀ s ∈ segs, s.length ≤ 65804) :
    optionsBytes (if first then 0 else 11) segs = some (uriPathItems first segs) := by
  induction segs generalizing first with
  | nil => rfl
  | cons seg rest ih =>
    have h1 := optionItem_uriPath first seg (h _ (by simp))
    have h2 := ih false (fun s hs => h s (by simp [hs]))
    simp only [optionsBytes, optionBytes]
    have : (11 - if first then 0 else 11) = if first then 11 else 0 := by cases first <;> rfl
    rw [this, h1]
    simp only [Bool.false_eq_true, if_false] at h2
    rw [h2]; rfl

/-- An option is at most its segment, one byte, and a thirteenth of its segment long (R162). -/
theorem uriPathItem_length (first : Bool) (seg : List Byte) : (uriPathItem first seg).length ≤ seg.length + 1 + seg.length / 13 := by
  unfold uriPathItem; dsimp only
  split
  · simp
  · split <;> simp <;> omega

/-- All options of a request (R162). -/
theorem uriPathItems_length (first : Bool) (segs : List (List Byte)) :
    (uriPathItems first segs).length ≤ (segs.map fun s => s.length + 1).sum + (segs.map List.length).sum / 13 := by
  induction segs generalizing first with
  | nil => simp [uriPathItems]
  | cons s rest ih =>
    have := ih false
    have h2 := uriPathItem_length first s
    simp [uriPathItems] at this ⊢; omega

/-- The packet MSGENC builds is the request of R112. -/
theorem packetBytes_eq (tkl mid tok path) (h : path.length ≤ 65804) :
    packetBytes tkl mid tok path = some (requestPacket tkl.toNat mid.toNat tok (segments path)) := by
  unfold packetBytes
  have := optionsBytes_eq true (segments path) (fun s hs => le_trans (segments_length_le _ s hs) h)
  simp only [if_true] at this
  rw [this, encode_gethdr]; rfl

/-- R162's bound, and the header and token a request always has. -/
theorem requestPacket_length (tkl mid tok path) (h : List.length tok ≤ 8) :
    (requestPacket tkl mid tok (segments path)).length ≤ 13 + path.length + path.length / 13 ∧
    4 + tok.length ≤ (requestPacket tkl mid tok (segments path)).length := by
  have h1 := uriPathItems_length true (segments path)
  have h2 := segments_cost path
  have h3 := segments_sum_le path
  have h4 : ((segments path).map List.length).sum / 13 ≤ path.length / 13 := Nat.div_le_div_right h3
  simp only [requestPacket, List.length_append, List.length_cons, List.length_nil]
  omega

/-- The path has PATHLEN bytes (R43). -/
theorem pathBytes_length (s : State) : s.pathBytes.length = s.pathLen := by simp [State.pathBytes]

end Sys2Proof.Machine
end

