-- ==== Sys2Proof/Laws/Items.lean ====
section
/-! SUPPORT. What each wire item can do when it answers a next state. -/

namespace Sys2Proof.Machine

/-- The extended values a MSGDEC holds are kept, or set to one that UvarDecode gives (R100). -/
def DecRun.ValuesFrom (d d' : DecRun) : Prop :=
  (d'.delta = d.delta ∨ d'.delta ≤ 65804) ∧ (d'.length = d.length ∨ d'.length ≤ 65804)

/-- A MSGENC's path indexes are kept or move over the next segment (R150); the previous option number is kept or 11
(R156). -/
def EncRun.IndexesFrom (s : State) (e e' : EncRun) : Prop :=
  ((e'.start, e'.rp) = (e.start, e.rp) ∨ (e'.start, e'.rp) = nextSegment s e.rp) ∧ (e'.prev = e.prev ∨ e'.prev = 11)

/-- Everything a wire item can do. -/
inductive ItemEffect (i : Instr) (s t : State) : Prop
  | uvdecGoes (u u' : UvRun) (he : s.engine = .uvdec u) (ht : t = { s with engine := .uvdec u' })
  | uvdecEnds (u : UvRun) (value cur : Nat) (ext : List Byte) (he : s.engine = .uvdec u) (ht : t = finishUvdec value cur ext s)
  | uvdecFails (u : UvRun) (k : ErrKind) (he : s.engine = .uvdec u) (hk : k.AtCursor) (ht : t = raise .uvdec k u.cur s)
  | msgencGoes (e e' : EncRun) (he : s.engine = .msgenc e) (hw : e'.wp = e.wp + (encode i).length) (hm : e'.wp ≤ s.cfg.txMax)
      (hx : e.IndexesFrom s e')
      (ht : t = { s with tx := s.tx.writeBytes e.wp (encode i), engine := .msgenc e' })
  | msgdecGoes (d d' : DecRun) (he : s.engine = .msgdec d) (hv : d.ValuesFrom d') (ht : t = { s with engine := .msgdec d' })
  | msgdecAccepts (d d' : DecRun) (he : s.engine = .msgdec d) (hs : d.stage = .value) (hl : d.length ≤ s.rxLen - d.cur)
      (hd : d' = { d with stage := .option, cur := d.cur + d.length, cnt := d.cnt + 1 })
      (ht : t = { s with trace := s.trace ++ [{ num := d.last, off := d.cur, length := d.length }], engine := .msgdec d' })
  | msgdecEnds (d : DecRun) (bytes : List Byte) (he : s.engine = .msgdec d)
      (ht : t = finishMsgdec { ver := d.ver, typ := d.typ, tkl := d.tkl, code := d.code, mid := d.mid, token := d.token }
          { cur := d.cur, last := d.last, cnt := d.cnt, trace := s.trace } bytes s)
  | msgdecFails (d : DecRun) (k : ErrKind) (pos : Nat) (he : s.engine = .msgdec d) (hk : k.AtCursor)
      (ht : t = raise (.msgdec d.last d.cnt) k pos s)
  | fmtEnds (cls : BitVec 3) (detail : BitVec 5) (he : s.engine = .fmt) (ht : t = formatCode cls detail s)

/-- What an emission that goes on has done. -/
theorem emitBytes_next {bs : List Byte} {e : EncRun} {s t : State} (h : emitBytes bs e s = .next t) :
    e.wp + bs.length ≤ s.cfg.txMax ∧ t = { s with tx := s.tx.writeBytes e.wp bs, engine := .msgenc { e with wp := e.wp + bs.length } } := by
  unfold emitBytes at h; split at h
  · simp only [Host.Outcome.next.injEq] at h; exact ⟨‹_›, h.symm⟩
  · simp at h

/-- Who waits for a nibble. -/
theorem uvarPos_nibble {s : State} {c : Nat} (h : uvarPos s = .nibble c) :
    (∃ u, s.engine = .uvdec u ∧ u.stage = .nibble ∧ c = u.cur) ∨
    (∃ d, s.engine = .msgdec d ∧ c = d.cur ∧ ((∃ dn ln, d.stage = .delta dn ln) ∨ ∃ ln, d.stage = .length ln)) := by
  unfold uvarPos at h
  split at h
  · split at h <;> simp at h; left; exact ⟨_, ‹_›, ‹_›, h.symm⟩
  · split at h <;> simp at h
    · right; exact ⟨_, ‹_›, h.symm, .inl ⟨_, _, ‹_›⟩⟩
    · right; exact ⟨_, ‹_›, h.symm, .inr ⟨_, ‹_›⟩⟩
  · simp at h

/-- Who waits for an extension. -/
theorem uvarPos_ext {s : State} {c : Nat} {w : Bool} (h : uvarPos s = .ext w c) :
    (∃ u, s.engine = .uvdec u ∧ u.stage = .ext w ∧ c = u.cur) ∨
    (∃ d, s.engine = .msgdec d ∧ c = d.cur ∧ ((∃ ln, d.stage = .deltaExt w ln) ∨ d.stage = .lengthExt w)) := by
  unfold uvarPos at h
  split at h
  · split at h <;> simp at h; obtain ⟨rfl, rfl⟩ := h; left; exact ⟨_, ‹_›, ‹_›, rfl⟩
  · split at h <;> simp at h <;> obtain ⟨rfl, rfl⟩ := h
    · right; exact ⟨_, ‹_›, rfl, .inl ⟨_, ‹_›⟩⟩
    · right; exact ⟨_, ‹_›, rfl, .inr ‹_›⟩
  · simp at h

/-- What the end of a UvarDecode does. -/
theorem deliver_effect (i : Instr) (s : State) (v c : Nat) (ext : List Byte) (hv : v ≤ 65804) (h : (∃ u, s.engine = .uvdec u) ∨ ∃ d, s.engine = .msgdec d) :
    ItemEffect i s (deliver v c ext s) := by
  rcases h with ⟨u, he⟩ | ⟨d, he⟩
  · exact .uvdecEnds u v c ext he (by simp [deliver, he])
  · cases hs : d.stage <;>
      first
      | exact .msgdecGoes d { d with delta := v, cur := c, stage := .length _ } he ⟨.inr hv, .inl rfl⟩ (by simp [deliver, he, hs]; rfl)
      | exact .msgdecGoes d { d with length := v, cur := c, last := d.last + d.delta, stage := .value } he ⟨.inl rfl, .inr hv⟩
          (by simp [deliver, he, hs])

/-- What waiting for an extension does. -/
theorem await_effect (i : Instr) (s : State) (w : Bool) (h : (∃ u, s.engine = .uvdec u) ∨ ∃ d, s.engine = .msgdec d) :
    ItemEffect i s (awaitExt w s) := by
  rcases h with ⟨u, he⟩ | ⟨d, he⟩
  · exact .uvdecGoes u _ he (by simp [awaitExt, he]; rfl)
  · cases hs : d.stage with
    | delta dn ln => exact .msgdecGoes d { d with stage := .deltaExt w ln } he ⟨.inl rfl, .inl rfl⟩ (by simp [awaitExt, he, hs])
    | _ => exact .msgdecGoes d { d with stage := .lengthExt w } he ⟨.inl rfl, .inl rfl⟩ (by simp [awaitExt, he, hs])

/-- A nibble is awaited by UVDEC or MSGDEC. -/
theorem nibble_running {s : State} {c : Nat} (h : uvarPos s = .nibble c) : (∃ u, s.engine = .uvdec u) ∨ ∃ d, s.engine = .msgdec d := by
  rcases uvarPos_nibble h with ⟨u, he, _⟩ | ⟨d, he, _⟩
  · exact .inl ⟨u, he⟩
  · exact .inr ⟨d, he⟩

/-- An extension is awaited by UVDEC or MSGDEC. -/
theorem ext_running {s : State} {c : Nat} {w} (h : uvarPos s = .ext w c) : (∃ u, s.engine = .uvdec u) ∨ ∃ d, s.engine = .msgdec d := by
  rcases uvarPos_ext h with ⟨u, he, _⟩ | ⟨d, he, _⟩
  · exact .inl ⟨u, he⟩
  · exact .inr ⟨d, he⟩

/-- What a failing UvarDecode does. -/
theorem raise_effect (i : Instr) (s : State) (k : ErrKind) (c : Nat) (hk : k.AtCursor) (h : uvarPos s = .nibble c) :
    ItemEffect i s (uvarRaise k c s) := by
  rcases uvarPos_nibble h with ⟨u, he, _, rfl⟩ | ⟨d, he, rfl, _⟩
  · exact .uvdecFails u k he hk (by simp [uvarRaise, he])
  · exact .msgdecFails d k d.cur he hk (by simp [uvarRaise, he])

/-- What a header word does. -/
theorem header_effect (i : Instr) {s t : State} {ver typ tkl code mid} (h : takeHeader ver typ tkl code mid s = .next t) : ItemEffect i s t := by
  unfold takeHeader at h
  split at h <;> [skip; simp [outOfPlace] at h]
  rename_i d he
  split at h <;> [skip; simp [outOfPlace] at h]
  split at h <;> simp only [Host.Outcome.next.injEq] at h <;> subst h
  · exact .msgdecFails d _ _ he (headerCheck_atCursor ‹_›) rfl
  · exact .msgdecGoes d _ he (by exact ⟨.inl rfl, .inl rfl⟩) rfl

/-- What an option header byte does. -/
theorem optionHead_effect (i : Instr) {s t : State} {d dn ln} (he : s.engine = .msgdec d) (h : takeOptionHead dn ln d s = .next t) : ItemEffect i s t := by
  unfold takeOptionHead at h
  split at h <;> [skip; simp [outOfPlace] at h]
  simp only [Host.Outcome.next.injEq] at h; subst h
  exact .msgdecGoes d _ he (by exact ⟨.inl rfl, .inl rfl⟩) rfl

/-- A wire item does one of these. -/
theorem item_effect {i : Instr} {s t : State} (hi : slotOf i ≠ .cmd) (h : exec i s = .next t) : ItemEffect i s t := by
  cases i with
  | uvenc => exact absurd rfl hi
  | uvdec => exact absurd rfl hi
  | msgenc => exact absurd rfl hi
  | msgdec => exact absurd rfl hi
  | fmt => exact absurd rfl hi
  | clear => exact absurd rfl hi
  | badcmd _ => exact absurd rfl hi
  | hdr => exact header_effect _ h
  | hdrBadver => exact header_effect _ h
  | hdrBadtkl => exact header_effect _ h
  | gethdr tkl mid =>
    simp only [exec, execGethdr] at h
    split at h <;> [skip; simp [outOfPlace] at h]
    rename_i e he
    split at h <;> [skip; simp [outOfPlace] at h]
    obtain ⟨h1, rfl⟩ := emitBytes_next h
    exact .msgencGoes e _ he rfl h1 (by exact ⟨.inl rfl, .inl rfl⟩) rfl
  | mark =>
    simp only [exec, execMark] at h
    split at h <;> [skip; simp [outOfPlace] at h]
    rename_i d he
    split at h <;> [skip; simp [outOfPlace] at h]
    simp only [Host.Outcome.next.injEq] at h; subst h
    exact .msgdecGoes d _ he (by exact ⟨.inl rfl, .inl rfl⟩) rfl
  | optDrsvd ln =>
    simp only [exec, execOptDrsvd] at h
    split at h <;> [skip; simp [outOfPlace] at h]
    rename_i d he
    split at h <;> [skip; simp [outOfPlace] at h]
    simp only [Host.Outcome.next.injEq] at h; subst h
    exact .msgdecFails d _ _ he (by simp [ErrKind.AtCursor]) rfl
  | optLrsvd dn =>
    simp only [exec, execOptLrsvd] at h
    split at h <;> [skip; simp [outOfPlace] at h]
    exact optionHead_effect _ ‹_› h
  | opt dn ln =>
    simp only [exec, execOpt] at h
    split at h <;> [skip; skip; simp [outOfPlace] at h]
    · exact optionHead_effect _ ‹_› h
    · rename_i e he
      unfold emitOptionHead at h
      split at h <;> [skip; simp [outOfPlace] at h]
      obtain ⟨h1, rfl⟩ := emitBytes_next h
      exact .msgencGoes e _ he rfl h1 (by exact ⟨.inr rfl, .inl rfl⟩) rfl
  | nibLit nib =>
    simp only [exec, execNibLit] at h
    split at h <;> [skip; simp [outOfPlace] at h]
    simp only [Host.Outcome.next.injEq] at h; subst h
    exact deliver_effect _ _ _ _ _ (by omega) (nibble_running ‹_›)
  | nibExt8 =>
    simp only [exec, execNibExt8] at h
    split at h <;> [skip; simp [outOfPlace] at h]
    split at h <;> simp only [Host.Outcome.next.injEq] at h <;> subst h
    · exact raise_effect _ _ _ _ (by simp [ErrKind.AtCursor]) ‹_›
    · exact await_effect _ _ _ (nibble_running ‹_›)
  | nibExt16 =>
    simp only [exec, execNibExt16] at h
    split at h <;> [skip; simp [outOfPlace] at h]
    split at h <;> simp only [Host.Outcome.next.injEq] at h <;> subst h
    · exact raise_effect _ _ _ _ (by simp [ErrKind.AtCursor]) ‹_›
    · exact await_effect _ _ _ (nibble_running ‹_›)
  | nibRsvd =>
    simp only [exec, execNibRsvd] at h
    split at h <;> [skip; simp [outOfPlace] at h]
    simp only [Host.Outcome.next.injEq] at h; subst h
    exact raise_effect _ _ _ _ (by simp [ErrKind.AtCursor]) ‹_›
  | ext8 e =>
    simp only [exec, execExt8] at h
    split at h
    · rename_i run he
      unfold emitExt at h
      split at h <;> [split at h <;> [skip; simp [outOfPlace] at h]; simp [outOfPlace] at h]
      obtain ⟨h1, rfl⟩ := emitBytes_next h
      exact .msgencGoes run _ he rfl h1 (by exact ⟨.inl rfl, .inl rfl⟩) rfl
    · split at h <;> [skip; simp [outOfPlace] at h]
      simp only [Host.Outcome.next.injEq] at h; subst h
      exact deliver_effect _ _ _ _ _ (by omega) (ext_running ‹_›)
  | ext16 a b =>
    simp only [exec, execExt16] at h
    split at h
    · rename_i run he
      unfold emitExt at h
      split at h <;> [split at h <;> [skip; simp [outOfPlace] at h]; simp [outOfPlace] at h]
      obtain ⟨h1, rfl⟩ := emitBytes_next h
      exact .msgencGoes run _ he rfl h1 (by exact ⟨.inl rfl, .inl rfl⟩) rfl
    · split at h <;> [skip; simp [outOfPlace] at h]
      simp only [Host.Outcome.next.injEq] at h; subst h
      exact deliver_effect _ _ _ _ _ (by omega) (ext_running ‹_›)
  | code cls detail =>
    simp only [exec, execCode] at h
    split at h <;> [skip; simp [outOfPlace] at h]
    simp only [Host.Outcome.next.injEq] at h; subst h
    exact .fmtEnds _ _ ‹_› rfl
  | token bytes =>
    simp only [exec, execToken] at h
    split at h <;> [skip; skip; simp [outOfPlace] at h]
    · rename_i d he
      unfold takeToken at h
      split at h <;> [skip; simp [outOfPlace] at h]
      simp only [Host.Outcome.next.injEq] at h; subst h
      exact .msgdecGoes d _ he (by exact ⟨.inl rfl, .inl rfl⟩) rfl
    · rename_i e he
      unfold emitToken at h
      split at h <;> [skip; simp [outOfPlace] at h]
      obtain ⟨h1, rfl⟩ := emitBytes_next h
      exact .msgencGoes e _ he rfl h1 (by exact ⟨.inl rfl, .inl rfl⟩) rfl
  | value bytes =>
    simp only [exec, execValue] at h
    split at h <;> [skip; skip; simp [outOfPlace] at h]
    · rename_i d he
      unfold takeValue at h
      split at h <;> [skip; simp [outOfPlace] at h]
      split at h <;> simp only [Host.Outcome.next.injEq] at h <;> subst h
      · exact .msgdecFails d _ _ he (by simp [ErrKind.AtCursor]) rfl
      · exact .msgdecAccepts d _ he ‹_› (Nat.not_lt.mp ‹_›) rfl rfl
    · rename_i e he
      unfold emitValue at h
      split at h <;> [skip; simp [outOfPlace] at h]
      obtain ⟨h1, rfl⟩ := emitBytes_next h
      exact .msgencGoes e _ he rfl h1 (by exact ⟨.inl rfl, .inr rfl⟩) rfl
  | payload bytes =>
    simp only [exec, execPayload] at h
    split at h <;> [skip; simp [outOfPlace] at h]
    rename_i d he
    split at h <;> [skip; simp [outOfPlace] at h]
    simp only [Host.Outcome.next.injEq] at h; subst h
    exact .msgdecEnds d _ he rfl

end Sys2Proof.Machine
end

