-- ==== Sys2Proof/Laws/PerInstr.lean ====
section
/-! SUPPORT. A fact about every instruction as syntax: how many bytes its encoding has, by the format of its slot
(30_encoding.md R92, R97, R99, R108, R118, and R95, R102 for runs of bytes). -/

namespace Sys2Proof.Laws

/-- How many bytes the format of a slot has; none for PAYLOAD, which has any number (R105). -/
def slotLength : Slot → Option Nat
  | .cmd => some 1
  | .header => some 4
  | .getHeader => some 4
  | .optionHead => some 1
  | .nibble => some 1
  | .ext8 => some 1
  | .ext16 => some 2
  | .code => some 1
  | .token n => some n
  | .value n => some n
  | .payload => none

end Sys2Proof.Laws

namespace Sys2Proof.Laws.EncodeLength

/-- An instruction's encoding is as long as its slot's format says. -/
def Statement (i : Instr) : Prop := ∀ n, slotLength (slotOf i) = some n → (encode i).length = n

theorem uvenc : Statement .uvenc := by
  intro n h; cases h; rfl

theorem uvdec : Statement .uvdec := by
  intro n h; cases h; rfl

theorem msgenc : Statement .msgenc := by
  intro n h; cases h; rfl

theorem msgdec : Statement .msgdec := by
  intro n h; cases h; rfl

theorem fmt : Statement .fmt := by
  intro n h; cases h; rfl

theorem clear : Statement .clear := by
  intro n h; cases h; rfl

theorem badcmd (opcode : BitVec 8) : Statement (.badcmd opcode) := by
  intro n h; cases h; rfl

theorem hdr (typ : BitVec 2) (tkl : BitVec 4) (code : BitVec 8) (mid : BitVec 16) : Statement (.hdr typ tkl code mid) := by
  intro n h; cases h; rfl

theorem hdrBadver (ver typ : BitVec 2) (tkl : BitVec 4) (code : BitVec 8) (mid : BitVec 16) : Statement (.hdrBadver ver typ tkl code mid) := by
  intro n h; cases h; rfl

theorem hdrBadtkl (typ : BitVec 2) (tkl : BitVec 4) (code : BitVec 8) (mid : BitVec 16) : Statement (.hdrBadtkl typ tkl code mid) := by
  intro n h; cases h; rfl

theorem gethdr (tkl : BitVec 4) (mid : BitVec 16) : Statement (.gethdr tkl mid) := by
  intro n h; cases h; rfl

theorem mark : Statement .mark := by
  intro n h; cases h; rfl

theorem optDrsvd (ln : Nibble) : Statement (.optDrsvd ln) := by
  intro n h; cases h; rfl

theorem optLrsvd (dn : Nibble) : Statement (.optLrsvd dn) := by
  intro n h; cases h; rfl

theorem opt (dn ln : Nibble) : Statement (.opt dn ln) := by
  intro n h; cases h; rfl

theorem nibLit (nib : Nibble) : Statement (.nibLit nib) := by
  intro n h; cases h; rfl

theorem nibExt8 : Statement .nibExt8 := by
  intro n h; cases h; rfl

theorem nibExt16 : Statement .nibExt16 := by
  intro n h; cases h; rfl

theorem nibRsvd : Statement .nibRsvd := by
  intro n h; cases h; rfl

theorem ext8 (e : Byte) : Statement (.ext8 e) := by
  intro n h; cases h; rfl

theorem ext16 (h l : Byte) : Statement (.ext16 h l) := by
  intro n h; cases h; rfl

theorem code (cls : BitVec 3) (detail : BitVec 5) : Statement (.code cls detail) := by
  intro n h; cases h; rfl

theorem token (bytes : List Byte) : Statement (.token bytes) := by
  intro n h; cases h; rfl

theorem value (bytes : List Byte) : Statement (.value bytes) := by
  intro n h; cases h; rfl

theorem payload (bytes : List Byte) : Statement (.payload bytes) := by
  intro n h; cases h

end Sys2Proof.Laws.EncodeLength
end

