-- ==== Sys2Proof/Laws/State.lean ====
section
/-! SUPPORT. One lemma per field for each named update of the state (`succeed`, `raise`, `zeroResults`), true by
unfolding, so that no proof unfolds a record update again. -/

namespace Sys2Proof.Machine

/-! ## succeed -/
@[simp] theorem succeed_cfg (f : ValidFlag) (s : State) : (succeed f s).cfg = s.cfg := rfl
@[simp] theorem succeed_cmd (f : ValidFlag) (s : State) : (succeed f s).cmd = s.cmd := rfl
@[simp] theorem succeed_status (f : ValidFlag) (s : State) : (succeed f s).status = statusSucceed f s.status := rfl
@[simp] theorem succeed_errKind (f : ValidFlag) (s : State) : (succeed f s).errKind = 0 := rfl
@[simp] theorem succeed_errPos (f : ValidFlag) (s : State) : (succeed f s).errPos = 0 := rfl
@[simp] theorem succeed_uvVal (f : ValidFlag) (s : State) : (succeed f s).uvVal = s.uvVal := rfl
@[simp] theorem succeed_uvNib (f : ValidFlag) (s : State) : (succeed f s).uvNib = s.uvNib := rfl
@[simp] theorem succeed_uvExtLen (f : ValidFlag) (s : State) : (succeed f s).uvExtLen = s.uvExtLen := rfl
@[simp] theorem succeed_uvCur (f : ValidFlag) (s : State) : (succeed f s).uvCur = s.uvCur := rfl
@[simp] theorem succeed_encTkl (f : ValidFlag) (s : State) : (succeed f s).encTkl = s.encTkl := rfl
@[simp] theorem succeed_midSrc (f : ValidFlag) (s : State) : (succeed f s).midSrc = s.midSrc := rfl
@[simp] theorem succeed_pathLen (f : ValidFlag) (s : State) : (succeed f s).pathLen = s.pathLen := rfl
@[simp] theorem succeed_txLen (f : ValidFlag) (s : State) : (succeed f s).txLen = s.txLen := rfl
@[simp] theorem succeed_midOut (f : ValidFlag) (s : State) : (succeed f s).midOut = s.midOut := rfl
@[simp] theorem succeed_rxLen (f : ValidFlag) (s : State) : (succeed f s).rxLen = s.rxLen := rfl
@[simp] theorem succeed_decVer (f : ValidFlag) (s : State) : (succeed f s).decVer = s.decVer := rfl
@[simp] theorem succeed_decType (f : ValidFlag) (s : State) : (succeed f s).decType = s.decType := rfl
@[simp] theorem succeed_decTkl (f : ValidFlag) (s : State) : (succeed f s).decTkl = s.decTkl := rfl
@[simp] theorem succeed_decCode (f : ValidFlag) (s : State) : (succeed f s).decCode = s.decCode := rfl
@[simp] theorem succeed_decMid (f : ValidFlag) (s : State) : (succeed f s).decMid = s.decMid := rfl
@[simp] theorem succeed_payOff (f : ValidFlag) (s : State) : (succeed f s).payOff = s.payOff := rfl
@[simp] theorem succeed_payLen (f : ValidFlag) (s : State) : (succeed f s).payLen = s.payLen := rfl
@[simp] theorem succeed_optLast (f : ValidFlag) (s : State) : (succeed f s).optLast = s.optLast := rfl
@[simp] theorem succeed_optCnt (f : ValidFlag) (s : State) : (succeed f s).optCnt = s.optCnt := rfl
@[simp] theorem succeed_fmtCode (f : ValidFlag) (s : State) : (succeed f s).fmtCode = s.fmtCode := rfl
@[simp] theorem succeed_fmtClass (f : ValidFlag) (s : State) : (succeed f s).fmtClass = s.fmtClass := rfl
@[simp] theorem succeed_fmtDetail (f : ValidFlag) (s : State) : (succeed f s).fmtDetail = s.fmtDetail := rfl
@[simp] theorem succeed_tokSrc (f : ValidFlag) (s : State) : (succeed f s).tokSrc = s.tokSrc := rfl
@[simp] theorem succeed_tokOut (f : ValidFlag) (s : State) : (succeed f s).tokOut = s.tokOut := rfl
@[simp] theorem succeed_decToken (f : ValidFlag) (s : State) : (succeed f s).decToken = s.decToken := rfl
@[simp] theorem succeed_uvExt (f : ValidFlag) (s : State) : (succeed f s).uvExt = s.uvExt := rfl
@[simp] theorem succeed_fmtStr (f : ValidFlag) (s : State) : (succeed f s).fmtStr = s.fmtStr := rfl
@[simp] theorem succeed_rx (f : ValidFlag) (s : State) : (succeed f s).rx = s.rx := rfl
@[simp] theorem succeed_tx (f : ValidFlag) (s : State) : (succeed f s).tx = s.tx := rfl
@[simp] theorem succeed_path (f : ValidFlag) (s : State) : (succeed f s).path = s.path := rfl
@[simp] theorem succeed_trace (f : ValidFlag) (s : State) : (succeed f s).trace = s.trace := rfl
@[simp] theorem succeed_engine (f : ValidFlag) (s : State) : (succeed f s).engine = .idle := rfl
@[simp] theorem succeed_payload (f : ValidFlag) (s : State) : (succeed f s).payload = s.payload := rfl
@[simp] theorem succeed_host (f : ValidFlag) (s : State) : (succeed f s).host = s.host := rfl
@[simp] theorem succeed_reply (f : ValidFlag) (s : State) : (succeed f s).reply = s.reply := rfl
@[simp] theorem succeed_draws (f : ValidFlag) (s : State) : (succeed f s).draws = s.draws := rfl

/-! ## zeroResults: the fields no failure touches -/
@[simp] theorem zeroResults_cfg (c : Failing) (s : State) : (zeroResults c s).cfg = s.cfg := by
  cases c <;> rfl
@[simp] theorem zeroResults_cmd (c : Failing) (s : State) : (zeroResults c s).cmd = s.cmd := by
  cases c <;> rfl
@[simp] theorem zeroResults_status (c : Failing) (s : State) : (zeroResults c s).status = s.status := by
  cases c <;> rfl
@[simp] theorem zeroResults_errKind (c : Failing) (s : State) : (zeroResults c s).errKind = s.errKind := by
  cases c <;> rfl
@[simp] theorem zeroResults_errPos (c : Failing) (s : State) : (zeroResults c s).errPos = s.errPos := by
  cases c <;> rfl
@[simp] theorem zeroResults_uvCur (c : Failing) (s : State) : (zeroResults c s).uvCur = s.uvCur := by
  cases c <;> rfl
@[simp] theorem zeroResults_encTkl (c : Failing) (s : State) : (zeroResults c s).encTkl = s.encTkl := by
  cases c <;> rfl
@[simp] theorem zeroResults_midSrc (c : Failing) (s : State) : (zeroResults c s).midSrc = s.midSrc := by
  cases c <;> rfl
@[simp] theorem zeroResults_pathLen (c : Failing) (s : State) : (zeroResults c s).pathLen = s.pathLen := by
  cases c <;> rfl
@[simp] theorem zeroResults_rxLen (c : Failing) (s : State) : (zeroResults c s).rxLen = s.rxLen := by
  cases c <;> rfl
@[simp] theorem zeroResults_fmtCode (c : Failing) (s : State) : (zeroResults c s).fmtCode = s.fmtCode := by
  cases c <;> rfl
@[simp] theorem zeroResults_fmtClass (c : Failing) (s : State) : (zeroResults c s).fmtClass = s.fmtClass := by
  cases c <;> rfl
@[simp] theorem zeroResults_fmtDetail (c : Failing) (s : State) : (zeroResults c s).fmtDetail = s.fmtDetail := by
  cases c <;> rfl
@[simp] theorem zeroResults_tokSrc (c : Failing) (s : State) : (zeroResults c s).tokSrc = s.tokSrc := by
  cases c <;> rfl
@[simp] theorem zeroResults_fmtStr (c : Failing) (s : State) : (zeroResults c s).fmtStr = s.fmtStr := by
  cases c <;> rfl
@[simp] theorem zeroResults_rx (c : Failing) (s : State) : (zeroResults c s).rx = s.rx := by
  cases c <;> rfl
@[simp] theorem zeroResults_tx (c : Failing) (s : State) : (zeroResults c s).tx = s.tx := by
  cases c <;> rfl
@[simp] theorem zeroResults_path (c : Failing) (s : State) : (zeroResults c s).path = s.path := by
  cases c <;> rfl
@[simp] theorem zeroResults_trace (c : Failing) (s : State) : (zeroResults c s).trace = s.trace := by
  cases c <;> rfl
@[simp] theorem zeroResults_engine (c : Failing) (s : State) : (zeroResults c s).engine = s.engine := by
  cases c <;> rfl
@[simp] theorem zeroResults_host (c : Failing) (s : State) : (zeroResults c s).host = s.host := by
  cases c <;> rfl
@[simp] theorem zeroResults_reply (c : Failing) (s : State) : (zeroResults c s).reply = s.reply := by
  cases c <;> rfl
@[simp] theorem zeroResults_draws (c : Failing) (s : State) : (zeroResults c s).draws = s.draws := by
  cases c <;> rfl

/-! ## raise -/
@[simp] theorem raise_cfg (c : Failing) (k : ErrKind) (pos : Nat) (s : State) :
    (raise c k pos s).cfg = s.cfg := by
  cases c <;> rfl
@[simp] theorem raise_cmd (c : Failing) (k : ErrKind) (pos : Nat) (s : State) :
    (raise c k pos s).cmd = s.cmd := by
  cases c <;> rfl
@[simp] theorem raise_status (c : Failing) (k : ErrKind) (pos : Nat) (s : State) :
    (raise c k pos s).status = statusFail c.flag s.status := rfl
@[simp] theorem raise_errKind (c : Failing) (k : ErrKind) (pos : Nat) (s : State) :
    (raise c k pos s).errKind = k.code := rfl
@[simp] theorem raise_errPos (c : Failing) (k : ErrKind) (pos : Nat) (s : State) :
    (raise c k pos s).errPos = pos := rfl
@[simp] theorem raise_uvVal (c : Failing) (k : ErrKind) (pos : Nat) (s : State) :
    (raise c k pos s).uvVal = (zeroResults c s).uvVal := rfl
@[simp] theorem raise_uvNib (c : Failing) (k : ErrKind) (pos : Nat) (s : State) :
    (raise c k pos s).uvNib = (zeroResults c s).uvNib := rfl
@[simp] theorem raise_uvExtLen (c : Failing) (k : ErrKind) (pos : Nat) (s : State) :
    (raise c k pos s).uvExtLen = (zeroResults c s).uvExtLen := rfl
@[simp] theorem raise_uvCur (c : Failing) (k : ErrKind) (pos : Nat) (s : State) :
    (raise c k pos s).uvCur = s.uvCur := by
  cases c <;> rfl
@[simp] theorem raise_encTkl (c : Failing) (k : ErrKind) (pos : Nat) (s : State) :
    (raise c k pos s).encTkl = s.encTkl := by
  cases c <;> rfl
@[simp] theorem raise_midSrc (c : Failing) (k : ErrKind) (pos : Nat) (s : State) :
    (raise c k pos s).midSrc = s.midSrc := by
  cases c <;> rfl
@[simp] theorem raise_pathLen (c : Failing) (k : ErrKind) (pos : Nat) (s : State) :
    (raise c k pos s).pathLen = s.pathLen := by
  cases c <;> rfl
@[simp] theorem raise_txLen (c : Failing) (k : ErrKind) (pos : Nat) (s : State) :
    (raise c k pos s).txLen = (zeroResults c s).txLen := rfl
@[simp] theorem raise_midOut (c : Failing) (k : ErrKind) (pos : Nat) (s : State) :
    (raise c k pos s).midOut = (zeroResults c s).midOut := rfl
@[simp] theorem raise_rxLen (c : Failing) (k : ErrKind) (pos : Nat) (s : State) :
    (raise c k pos s).rxLen = s.rxLen := by
  cases c <;> rfl
@[simp] theorem raise_decVer (c : Failing) (k : ErrKind) (pos : Nat) (s : State) :
    (raise c k pos s).decVer = (zeroResults c s).decVer := rfl
@[simp] theorem raise_decType (c : Failing) (k : ErrKind) (pos : Nat) (s : State) :
    (raise c k pos s).decType = (zeroResults c s).decType := rfl
@[simp] theorem raise_decTkl (c : Failing) (k : ErrKind) (pos : Nat) (s : State) :
    (raise c k pos s).decTkl = (zeroResults c s).decTkl := rfl
@[simp] theorem raise_decCode (c : Failing) (k : ErrKind) (pos : Nat) (s : State) :
    (raise c k pos s).decCode = (zeroResults c s).decCode := rfl
@[simp] theorem raise_decMid (c : Failing) (k : ErrKind) (pos : Nat) (s : State) :
    (raise c k pos s).decMid = (zeroResults c s).decMid := rfl
@[simp] theorem raise_payOff (c : Failing) (k : ErrKind) (pos : Nat) (s : State) :
    (raise c k pos s).payOff = (zeroResults c s).payOff := rfl
@[simp] theorem raise_payLen (c : Failing) (k : ErrKind) (pos : Nat) (s : State) :
    (raise c k pos s).payLen = (zeroResults c s).payLen := rfl
@[simp] theorem raise_optLast (c : Failing) (k : ErrKind) (pos : Nat) (s : State) :
    (raise c k pos s).optLast = (zeroResults c s).optLast := rfl
@[simp] theorem raise_optCnt (c : Failing) (k : ErrKind) (pos : Nat) (s : State) :
    (raise c k pos s).optCnt = (zeroResults c s).optCnt := rfl
@[simp] theorem raise_fmtCode (c : Failing) (k : ErrKind) (pos : Nat) (s : State) :
    (raise c k pos s).fmtCode = s.fmtCode := by
  cases c <;> rfl
@[simp] theorem raise_fmtClass (c : Failing) (k : ErrKind) (pos : Nat) (s : State) :
    (raise c k pos s).fmtClass = s.fmtClass := by
  cases c <;> rfl
@[simp] theorem raise_fmtDetail (c : Failing) (k : ErrKind) (pos : Nat) (s : State) :
    (raise c k pos s).fmtDetail = s.fmtDetail := by
  cases c <;> rfl
@[simp] theorem raise_tokSrc (c : Failing) (k : ErrKind) (pos : Nat) (s : State) :
    (raise c k pos s).tokSrc = s.tokSrc := by
  cases c <;> rfl
@[simp] theorem raise_tokOut (c : Failing) (k : ErrKind) (pos : Nat) (s : State) :
    (raise c k pos s).tokOut = (zeroResults c s).tokOut := rfl
@[simp] theorem raise_decToken (c : Failing) (k : ErrKind) (pos : Nat) (s : State) :
    (raise c k pos s).decToken = (zeroResults c s).decToken := rfl
@[simp] theorem raise_uvExt (c : Failing) (k : ErrKind) (pos : Nat) (s : State) :
    (raise c k pos s).uvExt = (zeroResults c s).uvExt := rfl
@[simp] theorem raise_fmtStr (c : Failing) (k : ErrKind) (pos : Nat) (s : State) :
    (raise c k pos s).fmtStr = s.fmtStr := by
  cases c <;> rfl
@[simp] theorem raise_rx (c : Failing) (k : ErrKind) (pos : Nat) (s : State) :
    (raise c k pos s).rx = s.rx := by
  cases c <;> rfl
@[simp] theorem raise_tx (c : Failing) (k : ErrKind) (pos : Nat) (s : State) :
    (raise c k pos s).tx = s.tx := by
  cases c <;> rfl
@[simp] theorem raise_path (c : Failing) (k : ErrKind) (pos : Nat) (s : State) :
    (raise c k pos s).path = s.path := by
  cases c <;> rfl
@[simp] theorem raise_trace (c : Failing) (k : ErrKind) (pos : Nat) (s : State) :
    (raise c k pos s).trace = s.trace := by
  cases c <;> rfl
@[simp] theorem raise_engine (c : Failing) (k : ErrKind) (pos : Nat) (s : State) :
    (raise c k pos s).engine = .idle := rfl
@[simp] theorem raise_payload (c : Failing) (k : ErrKind) (pos : Nat) (s : State) :
    (raise c k pos s).payload = (zeroResults c s).payload := rfl
@[simp] theorem raise_host (c : Failing) (k : ErrKind) (pos : Nat) (s : State) :
    (raise c k pos s).host = s.host := by
  cases c <;> rfl
@[simp] theorem raise_reply (c : Failing) (k : ErrKind) (pos : Nat) (s : State) :
    (raise c k pos s).reply = s.reply := by
  cases c <;> rfl
@[simp] theorem raise_draws (c : Failing) (k : ErrKind) (pos : Nat) (s : State) :
    (raise c k pos s).draws = s.draws := by
  cases c <;> rfl

end Sys2Proof.Machine
end

