-- ==== Sys2Proof/Laws/Status.lean ====
section
/-! SUPPORT. STATUS after a success and after a failure, bit by bit. -/

namespace Sys2Proof.Machine

/-- Every bit of STATUS after a success (R259). -/
theorem statusSucceed_bits (f : ValidFlag) : ∀ v : BitVec 8, (statusSucceed f v).getLsbD 0 = true ∧ (statusSucceed f v).getLsbD 1 = false ∧ (statusSucceed f v).getLsbD f.bit = true ∧ ∀ i, i < 8 → i ≠ 0 → i ≠ 1 → i ≠ f.bit → (statusSucceed f v).getLsbD i = v.getLsbD i := by
  cases f <;> decide

/-- Every bit of STATUS after a failure (R255). -/
theorem statusFail_bits (f : ValidFlag) : ∀ v : BitVec 8, (statusFail (some f) v).getLsbD 0 = true ∧ (statusFail (some f) v).getLsbD 1 = true ∧ (statusFail (some f) v).getLsbD f.bit = false ∧ ∀ i, i < 8 → i ≠ 0 → i ≠ 1 → i ≠ f.bit → (statusFail (some f) v).getLsbD i = v.getLsbD i := by
  cases f <;> decide

/-- Every bit of STATUS after BadCommand (R226). -/
theorem statusFail_none_bits  : ∀ v : BitVec 8, (statusFail none v).getLsbD 0 = true ∧ (statusFail none v).getLsbD 1 = true ∧ ∀ i, i < 8 → i ≠ 0 → i ≠ 1 → (statusFail none v).getLsbD i = v.getLsbD i := by
  decide

/-- The bits a success keeps. -/
theorem statusSucceed_other (f : ValidFlag) (v : BitVec 8) (i : Nat) (h0 : i ≠ 0) (h1 : i ≠ 1) (hf : i ≠ f.bit) : (statusSucceed f v).getLsbD i = v.getLsbD i := by
  by_cases h : i < 8
  · exact (statusSucceed_bits f v).2.2.2 i h h0 h1 hf
  · rw [BitVec.getLsbD_of_ge _ _ (by omega), BitVec.getLsbD_of_ge _ _ (by omega)]

/-- The bits a failure keeps. -/
theorem statusFail_other (f : ValidFlag) (v : BitVec 8) (i : Nat) (h0 : i ≠ 0) (h1 : i ≠ 1) (hf : i ≠ f.bit) : (statusFail (some f) v).getLsbD i = v.getLsbD i := by
  by_cases h : i < 8
  · exact (statusFail_bits f v).2.2.2 i h h0 h1 hf
  · rw [BitVec.getLsbD_of_ge _ _ (by omega), BitVec.getLsbD_of_ge _ _ (by omega)]

end Sys2Proof.Machine
end

