-- ==== Sys2Proof/Laws/Step.lean ====
section
/-! SUPPORT. What one step can do when it answers a next state. -/

namespace Sys2Proof.Machine

/-- The decoder answers a command in the command slot only. -/
theorem decode_slot_ne_cmd {slot : Slot} {bs rest : List Byte} {i : Instr} (hs : slot ≠ .cmd)
    (h : decode slot bs = .ok i rest) : slotOf i ≠ .cmd := by
  cases slot with
  | cmd => exact absurd rfl hs
  | header =>
    simp only [decode] at h
    split at h <;> simp at h
    rw [← h.1]; unfold decodeHdr
    split
    · split <;> simp [slotOf]
    · simp [slotOf]
  | getHeader =>
    simp only [decode] at h
    split at h <;> [split at h; skip] <;> simp at h
    rw [← h.1]; simp [slotOf]
  | optionHead =>
    simp only [decode] at h
    split at h <;> simp at h
    rw [← h.1]; unfold decodeOpth
    split
    · simp [slotOf]
    · split
      · simp [slotOf]
      · split <;> simp [slotOf]
  | nibble =>
    simp only [decode] at h
    split at h <;> [split at h; skip] <;> simp at h
    rw [← h.1]; unfold decodeNibble
    split <;> simp [slotOf]
  | ext8 =>
    simp only [decode] at h
    split at h <;> simp at h
    rw [← h.1]; simp [slotOf]
  | ext16 =>
    simp only [decode] at h
    split at h <;> simp at h
    rw [← h.1]; simp [slotOf]
  | code =>
    simp only [decode] at h
    split at h <;> simp at h
    rw [← h.1]; simp [slotOf]
  | token n =>
    simp only [decode, takeRun] at h
    split at h <;> [skip; split at h] <;> simp at h
    rw [← h.1]; simp [slotOf]
  | value n =>
    simp only [decode, takeRun] at h
    split at h <;> [skip; split at h] <;> simp at h
    rw [← h.1]; simp [slotOf]
  | payload =>
    simp only [decode] at h
    simp at h
    rw [← h.1]; simp [slotOf]

/-- A running command fetches no command. -/
theorem fetch_slot_ne_cmd {s : State} {slot : Slot} {bs : List Byte} (h : fetch s = .bytes slot bs) : slot ≠ .cmd := by
  rintro rfl
  unfold fetch at h
  split at h
  · simp at h
  · unfold fetchUvdec at h
    split at h <;> simp at h
  · unfold fetchMsgenc at h
    split at h
    · simp at h
    · simp at h
    · split at h
      · unfold optionHeadItem at h
        split at h <;> simp at h
      · simp at h
    · unfold lengthExtItem at h
      split at h <;> simp at h
    · simp at h
  · unfold fetchMsgdec at h
    split at h <;> (try split at h) <;> simp at h
  · simp at h

/-- A running command emits no command. -/
theorem fetch_emit_ne_cmd {s : State} {i : Instr} (h : fetch s = .emit i) : slotOf i ≠ .cmd := by
  unfold fetch at h
  split at h
  · simp at h
  · unfold fetchUvdec at h
    split at h <;> simp at h
  · unfold fetchMsgenc at h
    split at h
    · simp at h; rw [← h]; simp [slotOf]
    · simp at h; rw [← h]; simp [slotOf]
    · split at h
      · unfold optionHeadItem at h
        split at h <;> simp at h
        rw [← h]; simp [slotOf]
      · simp at h
    · unfold lengthExtItem at h
      split at h <;> simp at h <;> (rw [← h]; simp [slotOf])
    · simp at h; rw [← h]; simp [slotOf]
  · unfold fetchMsgdec at h
    split at h <;> (try split at h) <;> simp at h
  · simp at h

/-- No instruction changes the parameters, or draws never-written content anew: only reset does (R65, R283). -/
theorem exec_keeps {i : Instr} {s t : State} (h : exec i s = .next t) : t.cfg = s.cfg ∧ t.draws = s.draws := by
  by_cases hi : slotOf i = .cmd
  · cases i <;> simp only [slotOf, reduceCtorEq] at hi
    · rcases uvenc_effect h with rfl | ⟨_, _, _, rfl⟩ <;> exact ⟨rfl, rfl⟩
    · cases uvdec_effect h <;> subst_vars <;> exact ⟨rfl, rfl⟩
    · cases msgenc_effect h <;> subst_vars <;> exact ⟨rfl, rfl⟩
    · cases msgdec_effect h <;> subst_vars <;> exact ⟨rfl, rfl⟩
    · rw [← next_inj h]; exact ⟨rfl, rfl⟩
    · rw [← next_inj h]; exact ⟨rfl, rfl⟩
    · rw [← next_inj h]; exact ⟨rfl, rfl⟩
  · cases item_effect hi h <;> subst_vars <;> exact ⟨rfl, rfl⟩

/-- Everything one step can do. -/
inductive StepEffect (s t : State) : Prop
  /-- Nothing is asked (R281). -/
  | stays (he : s.engine = .idle) (hh : s.host = []) (ht : t = s)
  /-- The next host transaction. -/
  | txn (x : HostTxn) (rest : List HostTxn) (he : s.engine = .idle) (hh : s.host = x :: rest)
      (hx : TxnEffect { s with host := rest } t)
  /-- The running command takes an item. -/
  | takes (slot : Slot) (bs rest : List Byte) (i : Instr) (he : s.engine ≠ .idle) (hf : fetch s = .bytes slot bs)
      (hd : decode slot bs = .ok i rest) (hi : ItemEffect i s t)
  /-- The running command emits an item. -/
  | emits (i : Instr) (he : s.engine ≠ .idle) (hf : fetch s = .emit i) (hi : ItemEffect i s t)
  /-- A header that cannot be read (R172). -/
  | headerShort (hf : fetch s = .headerShort) (ht : t = shortHeader s)
  /-- The end of the buffer in the option loop (R178). -/
  | optionsEnd (hf : fetch s = .optionsEnd) (ht : t = endOptions s)
  /-- The end of the path (R158). -/
  | packetEnd (hf : fetch s = .packetEnd) (ht : t = endPacket s)

/-- A step does one of these. -/
theorem step_effect {s t : State} (h : step s = .next t) : StepEffect s t := by
  by_cases he : s.engine = .idle
  · unfold step at h
    split at h
    · split at h
      · exact .stays he ‹_› (next_inj h).symm
      · rename_i x rest hh
        exact .txn x rest he hh (txn_effect h)
    · rename_i hn
      exact absurd he hn
  · have hE : engineStep s = .next t := by
      unfold step at h
      split at h
      · contradiction
      · exact h
    unfold engineStep at hE
    split at hE
    · rename_i slot bs hf
      split at hE
      · rename_i i rest hd
        exact .takes slot bs rest i he hf hd (item_effect (decode_slot_ne_cmd (fetch_slot_ne_cmd hf) hd) hE)
      · simp [outOfPlace] at hE
    · rename_i i hf
      exact .emits i he hf (item_effect (fetch_emit_ne_cmd hf) hE)
    · exact .headerShort ‹_› (next_inj hE).symm
    · exact .optionsEnd ‹_› (next_inj hE).symm
    · exact .packetEnd ‹_› (next_inj hE).symm
    · simp at hE
    · rename_i hf
      exfalso
      unfold fetch at hf
      split at hf
      · contradiction
      · unfold fetchUvdec at hf
        split at hf <;> simp at hf
      · unfold fetchMsgenc at hf
        split at hf
        · simp at hf
        · simp at hf
        · split at hf
          · unfold optionHeadItem at hf
            split at hf <;> simp at hf
          · simp at hf
        · unfold lengthExtItem at hf
          split at hf <;> simp at hf
        · simp at hf
      · unfold fetchMsgdec at hf
        split at hf <;> (try split at hf) <;> simp at hf
      · simp at hf

end Sys2Proof.Machine
end

