-- ==== Sys2Proof/Tests/Slice0.lean ====
section
/-! SUPPORT. The model's own tests. Expected values come from spec/95_test_vectors.md (named S, D-, P by their titles there)
or are worked out by hand from the rule a test names, never from the model. A theorem witness_<Name> shows states and
operands that meet the hypotheses of Obligations.<Name>, clause by clause, at boundary values. -/

namespace Sys2Proof.Tests
open Sys2Proof Sys2Proof.Machine

/-! ## Helpers -/

/-- Consecutive cells from index `a` on. -/
def cells (a : Nat) : List Byte → Memory
  | [] => []
  | b :: bs => (a, b) :: cells (a + 1) bs

/-- After reset, with a datagram loaded. -/
def withRx (bs : List Byte) : State := { State.reset with rx := cells 0 bs, rxLen := bs.length }

/-- After reset, with a path, a token and a message id loaded. -/
def withPath (tkl : BitVec 4) (token : Vector Byte 8) (mid : BitVec 16) (bs : List Byte) : State :=
  { State.reset with path := cells 0 bs, pathLen := bs.length, encTkl := tkl, tokSrc := token, midSrc := mid }

/-- An outcome is a next state. -/
def isNext : Outcome → Bool
  | .next _ => true
  | _ => false

/-- The next state of an outcome, the reset state if it is none. -/
def nextOf : Outcome → State
  | .next s => s
  | _ => State.reset

/-- The next state after an instruction. -/
def after (i : Instr) (s : State) : State := nextOf (exec i s)

theorem eq_next_nextOf {o : Outcome} (h : isNext o = true) : o = .next (nextOf o) := by
  cases o with
  | next s => rfl
  | fault r => cases h
  | refused r => cases h

theorem exec_eq_after {i : Instr} {s : State} (h : isNext (exec i s) = true) : exec i s = .next (after i s) :=
  eq_next_nextOf h

/-- The header of 95_test_vectors.md: version 1, type 0, no token, code 0x45, message id 1. -/
def hdrH : List Byte := [0x40, 0x45, 0x00, 0x01]

/-- "a/bb/ccc". -/
def pathABC : List Byte := [0x61, 0x2F, 0x62, 0x62, 0x2F, 0x63, 0x63, 0x63]

/-- A reset state whose MSGDEC runs at `stage` with its cursor at `cur` and `n` bytes in RXLEN. -/
def decAt (stage : DecStage) (cur n : Nat) : State :=
  { State.reset with engine := .msgdec { DecRun.start with stage := stage, cur := cur, ver := 1 }, rxLen := n }

/-- A reset state whose UVDEC runs at `stage` with its cursor at `cur` and `n` bytes in RXLEN. -/
def uvAt (stage : UvStage) (cur n : Nat) : State :=
  { State.reset with engine := .uvdec { stage := stage, cur := cur }, uvCur := cur, rxLen := n }

/-- A reset state whose MSGENC runs at `stage` with its write index at `wp`. -/
def encAt (stage : EncStage) (wp : Nat) : State :=
  { State.reset with engine := .msgenc { stage := stage, rp := 0, wp := wp, prev := 0, start := 0 } }

/-! ## Ill-formed instructions are refused by the check -/

theorem test_illFormed_commands : Instr.wf (.badcmd 6) = false ∧ Instr.wf (.badcmd 1) = false := by decide

theorem test_illFormed_headers :
    Instr.wf (.hdr 0 9 0 0) = false ∧ Instr.wf (.hdrBadver 1 0 0 0 0) = false ∧ Instr.wf (.hdrBadtkl 0 8 0 0) = false ∧
    Instr.wf (.gethdr 9 0) = false := by decide

theorem test_illFormed_optionHeads :
    Instr.wf (.optDrsvd 15) = false ∧ Instr.wf (.optLrsvd 15) = false ∧ Instr.wf (.opt 15 0) = false ∧
    Instr.wf (.opt 0 15) = false := by decide

theorem test_illFormed_nibble : Instr.wf (.nibLit 13) = false := by decide

theorem test_illFormed_token : Instr.wf (.token [0, 0, 0, 0, 0, 0, 0, 0, 0]) = false := by decide

theorem test_illFormed_value : Instr.wf (.value (List.replicate 65805 0)) = false := by
  rw [Instr.wf, List.length_replicate]
  decide

/-! ## Every constructor's decoding, by words written out from 30_encoding.md -/

/-- R118, R119. -/
theorem test_decode_commands :
    decode .cmd [0b00000001] = .ok .uvenc [] ∧ decode .cmd [0b00000010] = .ok .uvdec [] ∧
    decode .cmd [0b00000011] = .ok .msgenc [] ∧ decode .cmd [0b00000100] = .ok .msgdec [] ∧
    decode .cmd [0b00000101] = .ok .fmt [] ∧ decode .cmd [0b00000110] = .ok .clear [] ∧
    decode .cmd [0b00000000] = .ok (.badcmd 0) [] ∧ decode .cmd [0b11111111] = .ok (.badcmd 0xFF) [] := by decide

/-- R92, R93: ver 2 bits, type 2, tkl 4, code 8, mid 16. -/
theorem test_decode_headers :
    decode .header [0b01100010, 0b01000101, 0b00010010, 0b00110100] = .ok (.hdr 2 2 0x45 0x1234) [] ∧
    decode .header [0b01001000, 0b01000101, 0b00000000, 0b00000001] = .ok (.hdr 0 8 0x45 1) [] ∧
    decode .header [0b10110001, 0b00000001, 0b10000000, 0b00000000] = .ok (.hdrBadver 2 3 1 1 0x8000) [] ∧
    decode .header [0b00001111, 0b01000101, 0b00000000, 0b00000001] = .ok (.hdrBadver 0 0 15 0x45 1) [] ∧
    decode .header [0b01001001, 0b01000101, 0b00000000, 0b00000001] = .ok (.hdrBadtkl 0 9 0x45 1) [] := by decide

/-- R94: only version 1, type 0, code 0x01 is a header MSGENC emits. -/
theorem test_decode_getHeader :
    decode .getHeader [0b01001000, 0b00000001, 0b10111110, 0b11101111] = .ok (.gethdr 8 0xBEEF) [] ∧
    decode .getHeader [0b01001000, 0b00000010, 0b10111110, 0b11101111] = .rejected .notGetHeader := by decide

/-- R97, R103, R104. -/
theorem test_decode_optionHeads :
    decode .optionHead [0b11111111] = .ok .mark [] ∧ decode .optionHead [0b11111110] = .ok (.optDrsvd 14) [] ∧
    decode .optionHead [0b11101111] = .ok (.optLrsvd 14) [] ∧ decode .optionHead [0b00001111] = .ok (.optLrsvd 0) [] ∧
    decode .optionHead [0b11011110, 0xAA] = .ok (.opt 13 14) [0xAA] := by decide

/-- R98. -/
theorem test_decode_nibbles :
    decode .nibble [0b00001100] = .ok (.nibLit 12) [] ∧ decode .nibble [0b00001101] = .ok .nibExt8 [] ∧
    decode .nibble [0b00001110] = .ok .nibExt16 [] ∧ decode .nibble [0b00001111] = .ok .nibRsvd [] ∧
    decode .nibble [0b00010000] = .rejected .notNibble := by decide

/-- R99, R108. -/
theorem test_decode_extensions_and_code :
    decode .ext8 [0b00101111] = .ok (.ext8 0x2F) [] ∧
    decode .ext16 [0b00000010, 0b11110011] = .ok (.ext16 0x02 0xF3) [] ∧ decode .ext16 [0x02] = .rejected .tooShort ∧
    decode .code [0b10000100] = .ok (.code 4 4) [] := by decide

/-- R95, R102, R105. -/
theorem test_decode_runs :
    decode (.token 2) [0xAB, 0xCD, 0xFF] = .ok (.token [0xAB, 0xCD]) [0xFF] ∧
    decode (.value 1) [0xFF, 0x62] = .ok (.value [0xFF]) [0x62] ∧
    decode .payload [0x6F, 0x6B] = .ok (.payload [0x6F, 0x6B]) [] ∧
    decode (.token 9) (List.replicate 9 0) = .rejected .tokenTooLong := by decide

/-! ## The commands, one step each -/

/-- D-uvar-enc: 300 gives 14, 00 1F. -/
theorem test_uvenc_wide :
    let t := after .uvenc { State.reset with uvVal := 300 }
    (t.uvNib, t.uvExtLen, t.uvExt, t.status) = (14, 2, #v[0x00, 0x1F], 0x11) := by decide

/-- D-uvar-enc: 65805 fails with UvarRange. -/
theorem test_uvenc_range :
    let t := after .uvenc { State.reset with uvVal := 65805, uvNib := 3, status := 0x91 }
    (t.uvNib, t.errKind, t.errPos, t.status) = (0, 10, 0, 0x83) := by decide

/-- D-uvar-dec: AA 00 1F, nibble 14 at cursor 1 gives 300. -/
theorem test_uvdec_oddIndex :
    let t := after .uvdec { withRx [0xAA, 0x00, 0x1F] with uvNib := 14, uvCur := 1 }
    (t.uvVal, t.uvExtLen, t.uvCur, t.uvExt) = (300, 2, 3, #v[0x00, 0x1F]) := by decide

/-- D-uvar-dec: AA 00 1F, nibble 14 at cursor 2 fails at 2. -/
theorem test_uvdec_truncated :
    let t := after .uvdec { withRx [0xAA, 0x00, 0x1F] with uvNib := 14, uvCur := 2 }
    (t.uvVal, t.uvCur, t.errKind, t.errPos) = (0, 2, 4, 2) := by decide

/-- D-enc: "//a//b//" with message id 0xFFFF. -/
theorem test_msgenc_slashes :
    let t := after .msgenc (withPath 0 zero8 0xFFFF [0x2F, 0x2F, 0x61, 0x2F, 0x2F, 0x62, 0x2F, 0x2F])
    (t.txLen, t.midOut, t.tx) = (8, 0xFFFF, cells 0 [0x40, 0x01, 0xFF, 0xFF, 0xB1, 0x61, 0x01, 0x62]) := by decide

/-- D-enc: 13 bytes `x` need a length extension. -/
theorem test_msgenc_ext8 :
    let t := after .msgenc (withPath 0 zero8 0 (List.replicate 13 0x78))
    (t.txLen, t.tx) = (19, cells 0 ([0x40, 0x01, 0x00, 0x00, 0xBD, 0x00] ++ List.replicate 13 0x78)) := by decide

/-- D-dec row 28: the second option's value does not fit. -/
theorem test_msgdec_valueFit :
    let t := after .msgdec (withRx (hdrH ++ [0xB1, 0x61, 0x25, 0x62]))
    (t.errKind, t.errPos, t.optLast, t.optCnt, t.trace) = (1, 7, 13, 1, [⟨11, 5, 1⟩]) := by decide

/-- D-dec row 38: delta 13 decoded, then length nibble 15. -/
theorem test_msgdec_deltaFirst :
    let t := after .msgdec (withRx (hdrH ++ [0xDF, 0x00]))
    (t.errKind, t.errPos, t.status, t.decCode) = (5, 6, 0x03, 0) := by decide

/-- S9: 0x84 is "4.04". -/
theorem test_fmt :
    (after .fmt { State.reset with fmtCode := 0x84 }).fmtStr = #v[0x34, 0x2E, 0x30, 0x34] := by decide

/-- D-ctl: CLEAR leaves the buffers. -/
theorem test_clear :
    let t := after .clear { withRx hdrH with status := 0x83, cmd := 6, errKind := 1 }
    (t.cmd, t.status, t.errKind, t.rxLen, t.rx) = (0, 0, 0, 0, cells 0 hdrH) := by decide

/-- D-ctl: BadCommand keeps the valid flags (R226). -/
theorem test_badcmd :
    let t := after (.badcmd 7) { State.reset with status := 0xF1, uvNib := 5 }
    (t.status, t.errKind, t.errPos, t.uvNib) = (0xF3, 8, 0, 5) := by decide

/-! ## The programs of 95_test_vectors.md as host scripts -/

/-- P1. -/
theorem test_program_p1 : (runScript
    [.loadPath pathABC, .wrReg 8 2, .wrBuf 3 0 [0xAB, 0xCD], .wrReg 9 0x1234, .cmd 3,
     .expectReg 1 0x21, .expectReg 2 0, .expectReg 11 15, .expectReg 12 0x1234,
     .expectBuf 4 0 [0xAB, 0xCD, 0, 0, 0, 0, 0, 0],
     .expectBuf 1 0 [0x42, 0x01, 0x12, 0x34, 0xAB, 0xCD, 0xB1, 0x61, 0x02, 0x62, 0x62, 0x03, 0x63, 0x63, 0x63]]
    State.reset).isSome = true := by decide

/-- P2. -/
theorem test_program_p2 : (runScript
    [.loadRx [0x62, 0x45, 0x12, 0x34, 0xAB, 0xCD, 0xC1, 0x00, 0xFF, 0x32, 0x32, 0x2E, 0x35], .cmd 4,
     .expectReg 1 0x41, .expectReg 14 1, .expectReg 15 2, .expectReg 16 2, .expectReg 17 0x45,
     .expectReg 18 0x1234, .expectBuf 5 0 [0xAB, 0xCD, 0, 0, 0, 0, 0, 0], .expectReg 19 9, .expectReg 20 4,
     .expectReg 21 12, .expectReg 22 1, .wrReg 23 0x45, .cmd 5, .expectReg 1 0xC1, .expectReg 24 2,
     .expectReg 25 5, .expectBuf 7 0 [0x32, 0x2E, 0x30, 0x35]] State.reset).isSome = true := by decide

/-- P7: the payload by value stays "hello" when the window is overwritten. -/
theorem test_program_p7 : (runScript
    [.loadRx (hdrH ++ [0xFF, 0x68, 0x65, 0x6C, 0x6C, 0x6F]), .cmd 4, .wrBuf 0 5 [0x62, 0x79, 0x65],
     .expectReg 1 0x41, .expectReg 19 5, .expectReg 20 5, .expectBuf 0 5 [0x62, 0x79, 0x65, 0x6C, 0x6F]]
    State.reset).map State.payload = some [0x68, 0x65, 0x6C, 0x6C, 0x6F] := by decide

/-- The listing of P2 assembles to its bytes (R120). -/
theorem test_listing_p2 :
    assemble [.hdr 1 2 2 0x45 0x1234, .token [0xAB, 0xCD], .opt 12 [0x00], .mark, .payload [0x32, 0x32, 0x2E, 0x35]] =
      some [0x62, 0x45, 0x12, 0x34, 0xAB, 0xCD, 0xC1, 0x00, 0xFF, 0x32, 0x32, 0x2E, 0x35] := by decide

/-- GET expands to the packet of S4 (R121). -/
theorem test_listing_get :
    assemble [.get [] 0x1234 pathABC] =
      some [0x40, 0x01, 0x12, 0x34, 0xB1, 0x61, 0x02, 0x62, 0x62, 0x03, 0x63, 0x63, 0x63] := by decide

/-- R121, log entry 16: a URIPATH straight after a URIPATH has delta 0; after a MARK, or after another option, R121
gives it no delta. -/
theorem test_listing_uriPath :
    assemble [.uriPath [0x61], .uriPath [0x62]] = some [0xB1, 0x61, 0x01, 0x62] ∧
    assemble [.mark, .uriPath [0x61]] = some [0xFF, 0xB1, 0x61] ∧
    assemble [.uriPath [0x61], .mark, .uriPath [0x62]] = none ∧
    assemble [.opt 3 [], .uriPath [0x62]] = none := by decide

/-! ## The wire items, one step each -/

/-- R175: 62 45 12 34 is accepted and captured. -/
theorem test_hdr :
    (after (.hdr 2 2 0x45 0x1234) (decAt .header 0 6)).engine =
      .msgdec { DecRun.start with stage := .token, cur := 4, ver := 1, typ := 2, tkl := 2, code := 0x45, mid := 0x1234 } := by
  decide

/-- R173, R174. -/
theorem test_badHeaders :
    let t := after (.hdrBadver 0 0 15 0x45 1) (decAt .header 0 4)
    let u := after (.hdrBadtkl 0 9 0x45 1) (decAt .header 0 4)
    (t.errKind, t.errPos, u.errKind, u.errPos) = (2, 4, 3, 4) := by decide

/-- R152: tkl 8, message id 0xBEEF gives 48 01 BE EF. -/
theorem test_gethdr : (after (.gethdr 8 0xBEEF) (encAt .header 0)).tx = cells 0 [0x48, 0x01, 0xBE, 0xEF] := by decide

/-- R179, R181: MARK ends the option loop; 0xF0 fails after the byte. -/
theorem test_optionHeads :
    let t := after (.optDrsvd 0) (decAt .option 4 5)
    (after .mark (decAt .option 4 5)).engine = .msgdec { DecRun.start with stage := .payload, cur := 5, ver := 1 } ∧
    (t.errKind, t.errPos) = (5, 5) := by decide

/-- R180, R183: OPT and OPT.LRSVD go on with the delta nibble. -/
theorem test_optionDelta :
    (after (.opt 11 1) (decAt .option 4 6)).engine =
      .msgdec { DecRun.start with stage := .delta 11 1, cur := 5, ver := 1 } ∧
    (after (.optLrsvd 13) (decAt .option 4 6)).engine =
      .msgdec { DecRun.start with stage := .delta 13 15, cur := 5, ver := 1 } := by decide

/-- R155: the first option header byte of a one-byte segment is 0xB1. -/
theorem test_optEmitted :
    (after (.opt 11 1) { encAt .options 4 with path := cells 0 [0x61], pathLen := 1 }).tx = [(4, 0xB1)] := by decide

/-- R131: nibble classes in UVDEC. -/
theorem test_nibbles :
    (after (.nibLit 12) (uvAt .nibble 0 0)).uvVal = 12 ∧
    (after .nibExt8 (uvAt .nibble 0 1)).engine = .uvdec { stage := .ext false, cur := 0 } ∧
    (after .nibExt16 (uvAt .nibble 0 1)).errKind = 4 ∧ (after .nibRsvd (uvAt .nibble 0 0)).errKind = 5 := by decide

/-- R131: 05 after nibble 13 is 18; 00 1F after nibble 14 is 300. -/
theorem test_extensions :
    (after (.ext8 0x05) (uvAt (.ext false) 0 1)).uvVal = 18 ∧
    (after (.ext16 0x00 0x1F) (uvAt (.ext true) 0 2)).uvVal = 300 := by decide

/-- R210: 0x45 is class 2, detail 5. -/
theorem test_code :
    (after (.code 2 5) { State.reset with engine := .fmt }).fmtStr = #v[0x32, 0x2E, 0x30, 0x35] := by decide

/-- R177, R153. -/
theorem test_token :
    (after (.token [0xAB, 0xCD]) (decAt .token 4 6)).engine =
      .msgdec { DecRun.start with stage := .option, cur := 6, ver := 1, token := [0xAB, 0xCD] } ∧
    (after (.token [0xAB, 0xCD]) (encAt .token 4)).tx = [(4, 0xAB), (5, 0xCD)] := by decide

/-- R186: an empty value is accepted at the end of the buffer. -/
theorem test_value : (after (.value []) (decAt .value 5 5)).trace = [⟨0, 5, 0⟩] := by decide

/-- R188. -/
theorem test_payload :
    let t := after (.payload [0x6F, 0x6B]) (decAt .payload 5 7)
    (t.payOff, t.payLen, t.payload, t.status, t.engine) = (5, 2, [0x6F, 0x6B], 0x41, .idle) := by decide

/-! ## A step runs the word placed for it (log entry 12) -/

theorem test_step_command : (nextOf (step (State.reset.withFetchWord 8 0x05))).status = 0x81 := by decide

theorem test_step_header :
    (nextOf (step (State.reset.withFetchWord 32 0x49450001))).errKind = 3 := by decide

theorem test_step_getHeader :
    (nextOf (step (State.reset.withFetchWord 32 0x4801BEEF))).tx = cells 0 [0x48, 0x01, 0xBE, 0xEF] := by decide

theorem test_step_nibble : (nextOf (step (State.reset.withFetchWord 8 0x0C))).uvVal = 12 := by decide

theorem test_step_ext16 : (nextOf (step (State.reset.withFetchWord 16 0x001F))).uvVal = 300 := by decide

theorem test_step_optionHead :
    let t := nextOf (step (State.reset.withFetchWord 8 0xF0))
    (t.errKind, t.errPos) = (5, 5) := by decide

/-- R65, R283: a never-written byte that UVDEC reads as the extension is the one a ReadBuf returns, before and after, and the
ReadBuf changes nothing else. -/
theorem test_readBuf_idempotent :
    let s : State := { State.reset with uvNib := 13, rxLen := 1 }
    let t := after .uvdec s
    (readBuffer s 0 0).reply = some t.uvExt[0].toNat ∧ (readBuffer t 0 0).reply = some t.uvExt[0].toNat ∧
    readBuffer s 0 0 = { s with reply := (readBuffer s 0 0).reply } := ⟨rfl, rfl, rfl⟩

/-! ## Witnesses -/

theorem witness_CommandsStraightAfterReset :
    ∃ (rx path : Memory) (s : State), rx = [(0, 0xF0)] ∧ path = [(0, 0x61)] ∧
      s = { State.reset with rx := rx, path := path } := ⟨_, _, _, rfl, rfl, rfl⟩

theorem witness_SuccessReport : ValidFlag.encv ≠ ValidFlag.uvv := by decide

theorem witness_FailureReport :
    Failing.flag .uvenc = some .uvv ∧ Failing.flag .uvenc ≠ some .decv ∧ Failing.flag .none ≠ some .decv := by decide

theorem witness_UvencEncodesItsValue :
    (12#32).toNat = 12 ∧ 12 < 13 ∧ (13#32).toNat = 13 ∧ 13 ≤ 13 ∧ (268#32).toNat = 268 ∧ 268 < 269 ∧
    (269#32).toNat = 269 ∧ 269 ≤ 269 ∧ (65804#32).toNat = 65804 ∧ 65804 ≤ 65804 := by decide

theorem witness_UvencRefusesLargeValues : 65804 < ({ State.reset with uvVal := 65805 } : State).uvVal.toNat := by decide

/-- UV_CUR at the end for a LIT nibble; exactly one byte left for 13, exactly two for 14. -/
theorem witness_UvdecDecodesAtItsCursor :
    (let s : State := { withRx [0x05] with uvNib := 12, uvCur := 1 }
     s.rxLen ≤ s.cfg.rxMax ∧ s.uvCur ≤ s.rxLen ∧ s.uvNib.toNat ≤ 12) ∧
    (let s : State := { withRx [0x05] with uvNib := 13 }
     s.rxLen ≤ s.cfg.rxMax ∧ s.uvCur ≤ s.rxLen ∧ s.uvNib = 13#4 ∧ s.uvCur + 1 ≤ s.rxLen) ∧
    (let s : State := { withRx [0x00, 0x1F] with uvNib := 14 }
     s.rxLen ≤ s.cfg.rxMax ∧ s.uvCur ≤ s.rxLen ∧ s.uvNib = 14#4 ∧ s.uvCur + 2 ≤ s.rxLen) := by decide

theorem witness_UvdecFailures :
    (let s : State := { State.reset with rxLen := 1501 }
     s.cfg.rxMax < s.rxLen) ∧
    (let s : State := { withRx [0x00] with uvCur := 2 }
     s.rxLen < s.uvCur) ∧
    (let s : State := { withRx [0x00] with uvNib := 15 }
     s.rxLen ≤ s.cfg.rxMax ∧ s.uvCur ≤ s.rxLen ∧ s.uvNib = 15#4) ∧
    (let s : State := { withRx [0x00] with uvNib := 13, uvCur := 1 }
     s.rxLen ≤ s.cfg.rxMax ∧ s.uvCur ≤ s.rxLen ∧ s.uvNib = 13#4 ∧ s.rxLen - s.uvCur < 1) ∧
    (let s : State := { withRx [0x00] with uvNib := 14 }
     s.rxLen ≤ s.cfg.rxMax ∧ s.uvCur ≤ s.rxLen ∧ s.uvNib = 14#4 ∧ s.rxLen - s.uvCur < 2) := by decide

theorem witness_UvarRoundTrip :
    bytesFrom (fun _ => 0xFF) 3 2 = [0xFF, 0xFF] ∧ 3 + 2 ≤ 5 ∧ uvarEncode 65804 = some (14, [0xFF, 0xFF]) ∧
    uvarDecode 14 (fun _ => 0xFF) 3 5 = .ok (65804, 5) := by
  refine ⟨by decide, by decide, by decide, by rfl⟩

theorem witness_UvdecReadsBackUvenc :
    let s : State := { State.reset with uvVal := 65804 }
    let t := after .uvenc s
    let u : State := { withRx [0x00, 0xFF, 0xFF] with uvNib := 14, uvCur := 1 }
    s.uvVal.toNat ≤ 65804 ∧ exec .uvenc s = .next t ∧ u.uvNib = t.uvNib ∧ u.rxLen ≤ u.cfg.rxMax ∧
    u.uvCur + t.uvExtLen.toNat ≤ u.rxLen ∧
    ∀ i (h : i < 2), i < t.uvExtLen.toNat → u.rx.read (u.uvCur + i) = some t.uvExt[i] := by
  refine ⟨by decide, exec_eq_after (by decide), by decide, by decide, by decide, by decide⟩

theorem witness_PathSplitsAtSeparators : pathABC.take 1 ≠ [] ∧ separator ∉ pathABC.take 1 := by decide

theorem witness_MsgencBuildsTheRequest :
    let s := withPath 8 zero8 0xCAFE pathABC
    s.cfg.legal = true ∧ s.encTkl.toNat ≤ 8 ∧ s.pathLen ≤ s.cfg.pathMax ∧
    s.pathLen = pathABC.length ∧ ∀ i, i < pathABC.length → s.path.read i = pathABC[i]? := by decide

/-- The largest path. -/
theorem witness_MsgencNeverOverflows :
    let s : State := { State.reset with pathLen := 1024, encTkl := 8 }
    s.cfg.legal = true ∧ s.pathLen = s.cfg.pathMax ∧ (after .msgenc (withPath 0 zero8 0 pathABC)).err = false := by decide

theorem witness_MsgencRefusesIllegalOperands :
    8 < ({ State.reset with encTkl := 9 } : State).encTkl.toNat ∧
    (let s : State := { State.reset with pathLen := 1025 }
     s.cfg.pathMax < s.pathLen) := by decide

theorem witness_MsgdecRefusesIllegalLength :
    let s : State := { State.reset with rxLen := 1501 }
    s.cfg.rxMax < s.rxLen := by decide

/-- D-dec rows 17, 21, 22, 24. -/
theorem witness_MsgdecHeaderFailures :
    (withRx [0x40, 0x45, 0x00]).rxLen < 4 ∧
    (let s := withRx [0x0F, 0x45, 0x00, 0x01]
     s.rxLen ≤ s.cfg.rxMax ∧ 4 ≤ s.rxLen ∧ (s.rxByte 0).toNat / 64 ≠ 1) ∧
    (let s := withRx [0x49, 0x45, 0x00, 0x01]
     s.rxLen ≤ s.cfg.rxMax ∧ 4 ≤ s.rxLen ∧ (s.rxByte 0).toNat / 64 = 1 ∧ 8 < (s.rxByte 0).toNat % 16) ∧
    (let s := withRx [0x48, 0x45, 0x00, 0x01, 0, 0, 0, 0, 0, 0, 0]
     s.rxLen ≤ s.cfg.rxMax ∧ 4 ≤ s.rxLen ∧ (s.rxByte 0).toNat / 64 = 1 ∧ (s.rxByte 0).toNat % 16 ≤ 8 ∧
       s.rxLen - 4 < (s.rxByte 0).toNat % 16) := by decide

/-- D-dec row 14, its options and its payload. -/
def datagramP2 : Datagram where
  typ := 2
  code := 0x45
  mid := 0x1234
  token := [0xAB, 0xCD]
  opts := [⟨12, [0x00]⟩]
  payload := some [0x32, 0x32, 0x2E, 0x35]

/-- One accepted option and nothing after it. -/
def datagramOne : Datagram where
  typ := 0
  code := 0x45
  mid := 1
  token := []
  opts := [⟨11, [0x61]⟩]
  payload := none

theorem witness_MsgdecDecodesWellFormedDatagrams :
    let s := withRx [0x62, 0x45, 0x12, 0x34, 0xAB, 0xCD, 0xC1, 0x00, 0xFF, 0x32, 0x32, 0x2E, 0x35]
    datagramP2.wf = true ∧ s.datagram = datagramP2.bytes ∧ s.rxLen ≤ s.cfg.rxMax ∧ s.cfg.legal = true ∧
    s.rxLen = datagramP2.bytes.length ∧ ∀ i, i < datagramP2.bytes.length → s.rx.read i = datagramP2.bytes[i]? := by
  decide

/-- D-dec row 28, then each other failure after an accepted option: delta nibble 15, a truncated delta extension, length
nibble 15, a truncated length extension. -/
theorem witness_MsgdecOptionFailures :
    datagramOne.wf = true ∧ datagramOne.payload = none ∧
    (let s := withRx (hdrH ++ [0xB1, 0x61, 0x25, 0x62])
     s.datagram = datagramOne.bytes ++ [0x25, 0x62] ∧ s.rxLen ≤ s.cfg.rxMax ∧ s.cfg.legal = true) ∧
    optionFailure [0x25, 0x62] = some (.truncatedBuffer, 1, 2) ∧ optionFailure [0xF0] = some (.reservedNibble, 1, 0) ∧
    optionFailure [0xEF, 0x00] = some (.truncatedExtension, 1, 0) ∧
    optionFailure [0xDF, 0x00] = some (.reservedNibble, 2, 0) ∧
    optionFailure [0x0E, 0x00] = some (.truncatedExtension, 1, 0) := by decide

theorem witness_MsgdecIsTotal :
    let s : State := { State.reset with rxLen := 1500 }
    s.rxLen ≤ s.cfg.rxMax := by decide

theorem witness_CommandsReadInsideTheirBounds :
    let s := withRx hdrH
    let m : Memory := s.rx ++ [(4, 0xFF)]
    let p := withPath 0 zero8 0 pathABC
    (∀ a, a < s.rxLen → m.read a = s.rx.read a) ∧ exec .msgdec s = .next (after .msgdec s) ∧
    exec .uvdec s = .next (after .uvdec s) ∧
    (∀ a, a < p.pathLen → Memory.read (p.path ++ [(8, 0x2F)]) a = p.path.read a) ∧
    exec .msgenc p = .next (after .msgenc p) := by
  refine ⟨by decide, exec_eq_after (by decide), exec_eq_after (by decide), by decide, exec_eq_after (by decide)⟩

theorem witness_EncodedRequestDecodes :
    let s := withPath 0 zero8 0x1234 pathABC
    let t := after .msgenc s
    let r := withRx [0x40, 0x01, 0x12, 0x34, 0xB1, 0x61, 0x02, 0x62, 0x62, 0x03, 0x63, 0x63, 0x63]
    s.cfg.legal = true ∧ exec .msgenc s = .next t ∧ t.err = false ∧ r.rxLen = t.txLen ∧ r.rxLen ≤ r.cfg.rxMax ∧
    ∀ a, a < t.txLen → r.rx.read a = t.tx.read a := by
  refine ⟨by decide, exec_eq_after (by decide), by decide, by decide, by decide, by decide⟩

theorem witness_FormattedCodesAreDistinct :
    let s : State := { State.reset with fmtCode := 0x45 }
    exec .fmt s = .next (after .fmt s) ∧ (after .fmt s).fmtStr = (after .fmt s).fmtStr :=
  ⟨rfl, rfl⟩

theorem witness_BadCommandChangesOnlyTheReport :
    ((0x00#8).toNat = 0 ∨ 6 < (0x00#8).toNat) ∧ ((0x07#8).toNat = 0 ∨ 6 < (0x07#8).toNat) ∧
    ((0xFF#8).toNat = 0 ∨ 6 < (0xFF#8).toNat) := by decide

theorem witness_KindsEachCommandRaises :
    let s := withRx hdrH
    exec .uvenc s = .next (after .uvenc s) ∧ exec .uvdec s = .next (after .uvdec s) ∧
    exec .msgenc s = .next (after .msgenc s) ∧ exec .msgdec s = .next (after .msgdec s) ∧
    exec .fmt s = .next (after .fmt s) ∧ exec .clear s = .next (after .clear s) ∧
    exec (.badcmd 7) s = .next (after (.badcmd 7) s) := by
  refine ⟨?_, ?_, ?_, ?_, ?_, ?_, ?_⟩ <;> exact exec_eq_after (by decide)

/-- Token just present, just missing, version 0 and token length 9. -/
theorem witness_HeaderItems :
    ∃ d, (decAt .header 0 12).engine = .msgdec d ∧ d.stage = .header ∧
      (8#4).toNat ≤ 8 ∧ 4 + (8#4).toNat ≤ (decAt .header 0 12).rxLen ∧
      (decAt .header 0 11).rxLen < 4 + (8#4).toNat ∧ 4 ≤ (decAt .header 0 11).rxLen ∧ 0#2 ≠ 1#2 ∧ 8 < (9#4).toNat :=
  ⟨_, rfl, rfl, by decide, by decide, by decide, by decide, by decide, by decide⟩

theorem witness_RequestHeaderItem :
    ∃ e, (encAt .header 0).engine = .msgenc e ∧ e.stage = .header ∧ (8#4).toNat ≤ 8 ∧
      e.wp + 4 ≤ (encAt .header 0).cfg.txMax := ⟨_, rfl, rfl, by decide, by decide⟩

theorem witness_TokenItem :
    (∃ d, (decAt .token 4 12).engine = .msgdec d ∧ d.stage = .token) ∧
    ∃ e, (encAt .token 4).engine = .msgenc e ∧ e.stage = .token ∧ e.wp + 8 ≤ (encAt .token 4).cfg.txMax :=
  ⟨⟨_, rfl, rfl⟩, ⟨_, rfl, rfl, by decide⟩⟩

theorem witness_OptionHeadItems : ∃ d, (decAt .option 4 5).engine = .msgdec d ∧ d.stage = .option := ⟨_, rfl, rfl⟩

theorem witness_EmittedOptionHeadItem :
    ∃ e, (encAt .options 1499).engine = .msgenc e ∧ e.stage = .options ∧ e.wp + 1 ≤ (encAt .options 1499).cfg.txMax ∧
      (12#4).toNat ≤ 12 ∧ 13#4 = 13#4 ∧ 14#4 = 14#4 := ⟨_, rfl, rfl, by decide, by decide, rfl, rfl⟩

theorem witness_UvdecItems :
    (∃ u, (uvAt .nibble 0 1).engine = .uvdec u ∧ u.stage = .nibble ∧ (12#4).toNat ≤ 12 ∧ u.cur + 1 ≤ (uvAt .nibble 0 1).rxLen ∧
      (uvAt .nibble 0 1).rxLen - u.cur < 2) ∧
    (∃ u, (uvAt .nibble 0 2).engine = .uvdec u ∧ u.stage = .nibble ∧ u.cur + 2 ≤ (uvAt .nibble 0 2).rxLen) ∧
    (∃ u, (uvAt .nibble 1 1).engine = .uvdec u ∧ u.stage = .nibble ∧ (uvAt .nibble 1 1).rxLen - u.cur < 1) ∧
    (∃ u, (uvAt (.ext false) 0 1).engine = .uvdec u ∧ u.stage = .ext false) ∧
    ∃ u, (uvAt (.ext true) 0 2).engine = .uvdec u ∧ u.stage = .ext true :=
  ⟨⟨_, rfl, rfl, by decide, by decide, by decide⟩, ⟨_, rfl, rfl, by decide⟩, ⟨_, rfl, rfl, by decide⟩, ⟨_, rfl, rfl⟩,
    ⟨_, rfl, rfl⟩⟩

theorem witness_MsgdecUvarItems :
    (∃ d, (decAt (.delta 14 1) 5 7).engine = .msgdec d ∧ d.stage = .delta 14 1 ∧ d.cur + 2 ≤ (decAt (.delta 14 1) 5 7).rxLen) ∧
    (∃ d, (decAt (.delta 13 1) 5 6).engine = .msgdec d ∧ d.stage = .delta 13 1 ∧ d.cur + 1 ≤ (decAt (.delta 13 1) 5 6).rxLen ∧
      (decAt (.delta 13 1) 5 6).rxLen - d.cur < 2) ∧
    (∃ d, (decAt (.length 14) 5 7).engine = .msgdec d ∧ d.stage = .length 14 ∧ d.cur + 2 ≤ (decAt (.length 14) 5 7).rxLen) ∧
    (∃ d, (decAt (.length 13) 5 5).engine = .msgdec d ∧ d.stage = .length 13 ∧ (decAt (.length 13) 5 5).rxLen - d.cur < 1) ∧
    (∃ d, (decAt (.deltaExt false 0) 5 6).engine = .msgdec d ∧ d.stage = .deltaExt false 0) ∧
    (∃ d, (decAt (.deltaExt true 0) 5 7).engine = .msgdec d ∧ d.stage = .deltaExt true 0) ∧
    (∃ d, (decAt (.lengthExt false) 5 6).engine = .msgdec d ∧ d.stage = .lengthExt false) ∧
    ∃ d, (decAt (.lengthExt true) 5 7).engine = .msgdec d ∧ d.stage = .lengthExt true :=
  ⟨⟨_, rfl, rfl, by decide⟩, ⟨_, rfl, rfl, by decide, by decide⟩, ⟨_, rfl, rfl, by decide⟩, ⟨_, rfl, rfl, by decide⟩,
    ⟨_, rfl, rfl⟩, ⟨_, rfl, rfl⟩, ⟨_, rfl, rfl⟩, ⟨_, rfl, rfl⟩⟩

theorem witness_EmittedExtensionAndValueItems :
    (∃ e, (encAt (.ext false) 1499).engine = .msgenc e ∧ e.stage = .ext false ∧ e.wp + 1 ≤ State.reset.cfg.txMax) ∧
    (∃ e, (encAt (.ext true) 1498).engine = .msgenc e ∧ e.stage = .ext true ∧ e.wp + 2 ≤ State.reset.cfg.txMax) ∧
    ∃ e, (encAt .value 1499).engine = .msgenc e ∧ e.stage = .value ∧ e.wp + [0x61#8].length ≤ State.reset.cfg.txMax :=
  ⟨⟨_, rfl, rfl, by decide⟩, ⟨_, rfl, rfl, by decide⟩, ⟨_, rfl, rfl, by decide⟩⟩

/-- A value that just fits, one that does not, and a payload. -/
theorem witness_ValueAndPayloadItems :
    (∃ d, (decAt .value 5 5).engine = .msgdec d ∧ d.stage = .value ∧ d.length ≤ (decAt .value 5 5).rxLen - d.cur) ∧
    (∃ d, ({ State.reset with engine := .msgdec { DecRun.start with stage := .value, cur := 5, length := 1 }, rxLen := 5 } : State).engine
        = .msgdec d ∧ d.stage = .value ∧ 5 - d.cur < d.length) ∧
    ∃ d, (decAt .payload 5 5).engine = .msgdec d ∧ d.stage = .payload :=
  ⟨⟨_, rfl, rfl, by decide⟩, ⟨_, rfl, rfl, by decide⟩, ⟨_, rfl, rfl⟩⟩

theorem witness_CodeItem : ({ State.reset with engine := .fmt } : State).engine = .fmt := rfl

theorem witness_StepRunsTheDecodedInstruction :
    (let s : State := { State.reset with host := [.writeReg 0 4] }
     s.engine = .idle ∧ s.host = .writeReg 0 (4#8).toNat :: []) ∧
    fetch { State.reset with engine := .fmt, fmtCode := 0x45 } = .bytes .code [0x45] ∧
    decode .code [0x45] = .ok (.code 2 5) [] ∧ fetch (encAt .header 0) = .emit (.gethdr 0 0) := by
  refine ⟨by decide, rfl, by decide, rfl⟩

theorem witness_FetchReadsTheDatagramAtTheCursor :
    (∃ d, (decAt .header 0 4).engine = .msgdec d ∧ d.stage = .header ∧ 4 ≤ (decAt .header 0 4).rxLen) ∧
    (∃ d, (decAt .header 0 3).engine = .msgdec d ∧ d.stage = .header ∧ (decAt .header 0 3).rxLen < 4) ∧
    (∃ d, (decAt .option 4 5).engine = .msgdec d ∧ d.stage = .option ∧ d.cur < (decAt .option 4 5).rxLen) ∧
    (∃ d, (decAt .option 5 5).engine = .msgdec d ∧ d.stage = .option ∧ (decAt .option 5 5).rxLen ≤ d.cur) ∧
    (∃ d, (decAt (.deltaExt false 0) 5 6).engine = .msgdec d ∧ d.stage = .deltaExt false 0) ∧
    (∃ d, (decAt (.deltaExt true 0) 5 7).engine = .msgdec d ∧ d.stage = .deltaExt true 0) ∧
    (∃ d, (decAt (.lengthExt false) 5 6).engine = .msgdec d ∧ d.stage = .lengthExt false) ∧
    (∃ d, (decAt (.lengthExt true) 5 7).engine = .msgdec d ∧ d.stage = .lengthExt true) ∧
    (∃ d, (decAt (.delta 11 1) 5 6).engine = .msgdec d ∧ d.stage = .delta 11 1) ∧
    (∃ d, (decAt (.length 1) 5 6).engine = .msgdec d ∧ d.stage = .length 1) ∧
    (∃ d, (decAt .value 5 5).engine = .msgdec d ∧ d.stage = .value ∧ 0 = min d.length ((decAt .value 5 5).rxLen - d.cur)) ∧
    (∃ d, (decAt .token 4 4).engine = .msgdec d ∧ d.stage = .token) ∧
    ∃ d, (decAt .payload 5 5).engine = .msgdec d ∧ d.stage = .payload :=
  ⟨⟨_, rfl, rfl, by decide⟩, ⟨_, rfl, rfl, by decide⟩, ⟨_, rfl, rfl, by decide⟩, ⟨_, rfl, rfl, by decide⟩,
    ⟨_, rfl, rfl⟩, ⟨_, rfl, rfl⟩, ⟨_, rfl, rfl⟩, ⟨_, rfl, rfl⟩, ⟨_, rfl, rfl⟩, ⟨_, rfl, rfl⟩, ⟨_, rfl, rfl, by decide⟩,
    ⟨_, rfl, rfl⟩, ⟨_, rfl, rfl⟩⟩

theorem witness_EngineAndHostTakeTurns :
    State.reset.engine = .idle ∧ State.reset.host = [] ∧ (encAt .header 0).engine ≠ .idle ∧
    step (encAt .header 0) = .next (nextOf (step (encAt .header 0))) := by
  refine ⟨rfl, rfl, by decide, eq_next_nextOf (by decide)⟩

theorem witness_MsgdecItemRunEqualsCommand :
    let s := withRx (hdrH ++ [0xD0, 0xFF])
    s.rxLen ≤ s.cfg.rxMax ∧ exec .msgdec s = .next (after .msgdec s) := by
  refine ⟨by decide, exec_eq_after (by decide)⟩

theorem witness_UvdecAndFmtItemRunsEqualCommands :
    let s : State := { withRx [0x00, 0x1F] with uvNib := 14 }
    s.rxLen ≤ s.cfg.rxMax ∧ s.uvCur ≤ s.rxLen ∧ exec .uvdec s = .next (after .uvdec s) ∧
    exec .fmt s = .next (after .fmt s) := by
  refine ⟨by decide, by decide, exec_eq_after (by decide), exec_eq_after (by decide)⟩

theorem witness_MsgencItemRunEqualsCommand :
    let s := withPath 8 zero8 1 pathABC
    s.cfg.legal = true ∧ s.encTkl.toNat ≤ 8 ∧ s.pathLen ≤ s.cfg.pathMax ∧ exec .msgenc s = .next (after .msgenc s) := by
  refine ⟨by decide, by decide, by decide, exec_eq_after (by decide)⟩

/-- A MSGDEC at its option header position with one option accepted, every invariant of which holds. -/
def midWalk : State :=
  { withRx (hdrH ++ [0xB1, 0x61, 0x00]) with
    engine := .msgdec { DecRun.start with stage := .option, cur := 6, last := 11, cnt := 1, ver := 1, code := 0x45, mid := 1 },
    trace := [⟨11, 5, 1⟩] }

theorem witness_StepKeepsBuffersCanonical :
    midWalk.buffersOk ∧ step midWalk = .next (nextOf (step midWalk)) := by
  refine ⟨by unfold State.buffersOk; decide, eq_next_nextOf (by decide)⟩

/-- A walk before any report; after a success; after BadCommand; after a failure at index 5; each with a step to come. -/
theorem witness_StepKeepsReportLegal :
    (midWalk.reportOk ∧ step midWalk = .next (nextOf (step midWalk))) ∧
    (let s : State := { after .fmt State.reset with host := [.writeReg 0 7] }
     s.reportOk ∧ s.done = true ∧ s.err = false ∧ step s = .next (nextOf (step s))) ∧
    (let s : State := { after (.badcmd 7) State.reset with host := [.writeReg 0 5] }
     s.reportOk ∧ s.done = true ∧ s.errKind = 8#4 ∧ step s = .next (nextOf (step s))) ∧
    (let s : State := { after .msgdec (withRx (hdrH ++ [0xF0])) with host := [.writeReg 0 5] }
     s.reportOk ∧ s.errKind = 5#4 ∧ s.errPos = 5 ∧ step s = .next (nextOf (step s))) := by
  unfold State.reportOk
  refine ⟨⟨by decide, eq_next_nextOf (by decide)⟩, ⟨by decide, by decide, by decide, eq_next_nextOf (by decide)⟩,
    ⟨by decide, by decide, by decide, eq_next_nextOf (by decide)⟩, ⟨by decide, by decide, by decide, eq_next_nextOf (by decide)⟩⟩

theorem witness_StepKeepsTransientState :
    midWalk.transientOk ∧ step midWalk = .next (nextOf (step midWalk)) := by
  refine ⟨?_, eq_next_nextOf (by decide)⟩
  show DecRun.ok _ midWalk
  unfold DecRun.ok DecRun.placed
  decide

theorem witness_StepKeepsWidths :
    midWalk.widthsOk ∧ midWalk.transientOk ∧ step midWalk = .next (nextOf (step midWalk)) := by
  refine ⟨⟨by decide, by decide, by unfold OptionEvent.fits; decide, ?_⟩, witness_StepKeepsTransientState⟩
  unfold midWalk Engine.fits
  decide

theorem witness_StepKeepsResultsValid :
    midWalk.transientOk ∧ midWalk.decodeOk ∧ midWalk.encodeOk ∧ midWalk.uvarFormatOk ∧
    step midWalk = .next (nextOf (step midWalk)) := by
  refine ⟨witness_StepKeepsTransientState.1, ?_, ?_, ?_, eq_next_nextOf (by decide)⟩
  · exact ⟨fun h => absurd h (by decide), fun _ => by decide, fun h => h.elim⟩
  · exact ⟨fun h => absurd h (by decide), fun _ => by decide⟩
  · exact ⟨by decide, fun _ => by decide, fun h => absurd h (by decide), fun _ => by decide⟩

theorem witness_CommandFrames :
    let s := withRx hdrH
    exec .uvenc s = .next (after .uvenc s) ∧ exec .uvdec s = .next (after .uvdec s) ∧
    exec .msgenc s = .next (after .msgenc s) ∧ exec .msgdec s = .next (after .msgdec s) ∧
    exec .fmt s = .next (after .fmt s) := by
  refine ⟨?_, ?_, ?_, ?_, ?_⟩ <;> exact exec_eq_after (by decide)

theorem witness_NoCommandDependsOnTheReport :
    Instr.msgdec ∈ [Instr.uvenc, .uvdec, .msgenc, .msgdec, .fmt] ∧
    exec .msgdec (withRx hdrH) = .next (after .msgdec (withRx hdrH)) ∧ ownFlag .msgdec = some .decv ∧
    3 ≠ doneBit ∧ 3 ≠ errBit ∧ 3 ≠ ValidFlag.decv.bit ∧ 7 ≠ ValidFlag.decv.bit := by
  refine ⟨by decide, exec_eq_after (by decide), by decide⟩

theorem witness_WireItemFrames :
    slotOf (.ext8 0) ≠ .cmd ∧ exec (.ext8 5) (uvAt (.ext false) 0 1) = .next (after (.ext8 5) (uvAt (.ext false) 0 1)) ∧
    exec .mark (decAt .option 4 5) = .next (after .mark (decAt .option 4 5)) ∧
    exec (.gethdr 0 0) (encAt .header 0) = .next (after (.gethdr 0 0) (encAt .header 0)) ∧
    (uvAt (.ext false) 0 1).noMsgenc ∧ (uvAt (.ext false) 0 1).noMsgdec ∧ (decAt .option 4 5).engine ≠ .fmt := by
  refine ⟨by decide, ?_, ?_, ?_, trivial, trivial, by decide⟩ <;> exact exec_eq_after (by decide)

theorem witness_NoPartialResultIsVisible :
    slotOf .mark ≠ .cmd ∧ exec .mark (decAt .option 4 5) = .next (after .mark (decAt .option 4 5)) ∧
    (after .mark (decAt .option 4 5)).engine ≠ .idle := by
  refine ⟨by decide, exec_eq_after (by decide), by decide⟩

/-- The largest value of a writable register, a read-only one and a reserved number. -/
theorem witness_RegisterWrites :
    (13#6 ≠ 0#6 ∧ 2047 < 2 ^ registerWidth State.reset.cfg 13 ∧ writable 13 = true) ∧
    (11#6 ≠ 0#6 ∧ writable 11 = false) ∧ (63#6 ≠ 0#6 ∧ writable 63 = false) := by decide

theorem witness_ReservedRegistersAndReads : 26 ≤ (26#6).toNat ∧ 26 ≤ (63#6).toNat := by decide

theorem witness_BufferTransactions :
    7 < 8 ∧ capacity State.reset.cfg 0 ≤ 1500 ∧
    (1499 < capacity State.reset.cfg 0 ∧ byteAtSpace State.reset 0 1499 = none) ∧
    (7 < capacity State.reset.cfg 3 ∧ byteAtSpace State.reset 3 7 = some 0) ∧
    (perform (.readBuf 0 1499) State.reset = .next (readBuffer State.reset 0 1499) ∧
      exec .fmt State.reset = .next (after .fmt State.reset) ∧
      byteAtSpace (after .fmt State.reset) 0 1499 = byteAtSpace State.reset 0 1499) ∧
    (3 ∈ [0, 2, 3] ∧ 1 ∉ [0, 2, 3]) := by
  refine ⟨by decide, by decide, by decide, by decide, ⟨rfl, rfl, by decide⟩, by decide⟩

theorem witness_BusMapReachesTheBlock :
    Config.Params.default.legal = true ∧ 1499 < capacity Config.Params.default 1 ∧
    busTarget Config.Params.default 0x15DB = .byte 1 1499 ∧ busTarget Config.Params.default 0x15DC = .hole ∧
    busTarget Config.Params.default 0x011F = .byte 7 3 ∧ busTarget Config.Params.default 0x1800 = .byte 2 0 := by decide

theorem witness_DecodeOfEncodeIsTheInstruction :
    Instr.wf (.hdr 3 8 0xFF 0xFFFF) = true ∧ Instr.wf (.payload [0xFF]) = true ∧ Instr.wf (.opt 14 14) = true := by decide

theorem witness_EncodeOfDecodeIsTheBytes : decode .optionHead [0xFE, 0x00] = .ok (.optDrsvd 14) [0x00] := by decide

end Sys2Proof.Tests
end

namespace Sys2Proof.Machine

/-! # Invariants: the state after reset and every step

An invariant speaks of some fields only, so a record update of the others leaves it as it is by unfolding. Where a lemma is
applied to such an update, its hypothesis is given as `by exact h`, to be checked once the update is known. -/

/-! ## What a host's write may touch -/

/-- A write of a register touches the registers the host may write (R21, R221). -/
theorem writeRegister_eq (s : State) (no : BitVec 6) (v : Nat) :
    writeRegister s no v =
      { s with
        uvVal := (writeRegister s no v).uvVal, uvNib := (writeRegister s no v).uvNib, uvCur := (writeRegister s no v).uvCur,
        encTkl := (writeRegister s no v).encTkl, midSrc := (writeRegister s no v).midSrc,
        pathLen := (writeRegister s no v).pathLen, rxLen := (writeRegister s no v).rxLen,
        fmtCode := (writeRegister s no v).fmtCode } := by
  unfold writeRegister
  split <;> rfl

/-- A write of a byte touches RXBUF, PATHBUF and TOKSRC (R222). -/
theorem writeBuffer_eq (s : State) (id idx : Nat) (b : Byte) :
    writeBuffer s id idx b =
      { s with
        rx := (writeBuffer s id idx b).rx, path := (writeBuffer s id idx b).path,
        tokSrc := (writeBuffer s id idx b).tokSrc } := by
  unfold writeBuffer
  split
  · split <;> rfl
  · rfl

/-! ## The buffers

A step changes a buffer in three ways: the host stores one byte inside a capacity, MSGENC writes at most TX_MAX bytes of
TXBUF, and reset forgets all bytes. -/

/-- No failure touches a buffer. -/
theorem State.buffersOk.raise {s : State} (h : s.buffersOk) (c : Failing) (k : ErrKind) (pos : Nat) :
    (raise c k pos s).buffersOk := by
  cases c <;> exact h

/-- Bytes written to TXBUF below TX_MAX keep the buffers good. -/
theorem State.buffersOk.writeTx {s : State} (h : s.buffersOk) (a : Nat) (bs : List Byte) (hb : a + bs.length ≤ s.cfg.txMax) :
    State.buffersOk { s with tx := s.tx.writeBytes a bs } := by
  obtain ⟨hrx, ⟨hwf, hbelow⟩, hpath⟩ := h
  exact ⟨hrx, ⟨Memory.wf_writeBytes _ _ _ hwf, Memory.below_writeBytes _ _ _ hbelow hb⟩, hpath⟩

/-- WriteBuf stores inside the capacity only (R222). -/
theorem State.buffersOk.writeBuffer {s : State} (h : s.buffersOk) (id idx : Nat) (b : Byte) :
    (writeBuffer s id idx b).buffersOk := by
  unfold Machine.writeBuffer
  split
  · rename_i hi
    obtain ⟨⟨hrxWf, hrxBelow⟩, htx, hpathWf, hpathBelow⟩ := h
    split
    · exact ⟨⟨Memory.wf_write _ _ _ hrxWf, Memory.below_write _ _ _ hrxBelow hi⟩, htx, hpathWf, hpathBelow⟩
    · exact ⟨⟨hrxWf, hrxBelow⟩, htx, Memory.wf_write _ _ _ hpathWf, Memory.below_write _ _ _ hpathBelow hi⟩
    · exact ⟨⟨hrxWf, hrxBelow⟩, htx, hpathWf, hpathBelow⟩
    · exact ⟨⟨hrxWf, hrxBelow⟩, htx, hpathWf, hpathBelow⟩
  · exact h

/-- A command keeps the buffers good. -/
theorem State.buffersOk.cmd {s t : State} (h : s.buffersOk) (hc : CmdEffect s t) : t.buffersOk := by
  cases hc with
  | uvenc hu =>
    rcases hu with rfl | ⟨nib, ext, -, rfl⟩
    · exact h.raise _ _ _
    · exact h
  | uvdec hu =>
    cases hu with
    | bad _ ht => exact ht ▸ h.raise _ _ _
    | fails k _ _ ht => exact ht ▸ h.raise _ _ _
    | ends v c _ _ ht => exact ht ▸ h
  | msgenc hm =>
    cases hm with
    | bad _ ht => exact ht ▸ h.raise _ _ _
    | ends p _ _ hp ht => exact ht ▸ h.writeTx 0 p (by omega)
  | msgdec _ hm =>
    cases hm with
    | bad _ ht => exact ht ▸ State.buffersOk.raise (s := { s with trace := [] }) h _ _ _
    | fails k pos w _ _ _ _ ht => exact ht ▸ State.buffersOk.raise (s := { s with trace := w.trace }) h _ _ _
    | ends w _ _ _ _ _ ht => exact ht ▸ h
  | fmt ht => exact ht ▸ h
  | clear ht => exact ht ▸ h
  | badcmd ht => exact ht ▸ h.raise _ _ _

/-- A host transaction keeps the buffers good. -/
theorem State.buffersOk.txn {s t : State} (h : s.buffersOk) (hx : TxnEffect s t) : t.buffersOk := by
  cases hx with
  | cmd v hc => exact State.buffersOk.cmd (s := { s with reply := none, cmd := v }) h hc
  | read r ht => exact ht ▸ h
  | reg no v ht =>
    rw [ht, writeRegister_eq]
    exact h
  | buf id idx b ht => exact ht ▸ State.buffersOk.writeBuffer (s := { s with reply := none }) h id idx b
  | reset ht => exact ht ▸ ⟨⟨rfl, rfl⟩, ⟨rfl, rfl⟩, rfl, rfl⟩

/-- A wire item keeps the buffers good. -/
theorem State.buffersOk.item {i : Instr} {s t : State} (h : s.buffersOk) (hi : ItemEffect i s t) : t.buffersOk := by
  cases hi with
  | uvdecGoes u u' _ ht => exact ht ▸ h
  | uvdecEnds u value cur ext _ ht => exact ht ▸ h
  | uvdecFails u k _ _ ht => exact ht ▸ h.raise _ _ _
  | msgencGoes e e' _ hw hm _ ht => exact ht ▸ h.writeTx e.wp (encode i) (by omega)
  | msgdecGoes d d' _ _ ht => exact ht ▸ h
  | msgdecAccepts d d' _ _ _ _ ht => exact ht ▸ h
  | msgdecEnds d bytes _ ht => exact ht ▸ h
  | msgdecFails d k pos _ _ ht => exact ht ▸ h.raise _ _ _
  | fmtEnds cls detail _ ht => exact ht ▸ h

/-- The header that cannot be read keeps the buffers good. -/
theorem State.buffersOk.shortHeader {s : State} (h : s.buffersOk) : (shortHeader s).buffersOk := by
  unfold Machine.shortHeader
  split
  · exact h.raise _ _ _
  · exact h

/-- The end of the options keeps the buffers good. -/
theorem State.buffersOk.endOptions {s : State} (h : s.buffersOk) : (endOptions s).buffersOk := by
  unfold Machine.endOptions
  split <;> exact h

/-- The end of the packet keeps the buffers good. -/
theorem State.buffersOk.endPacket {s : State} (h : s.buffersOk) : (endPacket s).buffersOk := by
  unfold Machine.endPacket
  split <;> exact h

/-- Settles O44: what writes a buffer writes inside its capacity, and in order. -/
theorem stepKeepsBuffersCanonical : Obligations.StepKeepsBuffersCanonical := by
  intro s t h hstep
  cases step_effect hstep with
  | stays _ _ ht => exact ht ▸ h
  | txn x rest _ _ hx => exact State.buffersOk.txn (s := { s with host := rest }) h hx
  | takes slot bs rest i _ _ _ hi => exact h.item hi
  | emits i _ _ hi => exact h.item hi
  | headerShort _ ht => exact ht ▸ h.shortHeader
  | optionsEnd _ ht => exact ht ▸ h.endOptions
  | packetEnd _ ht => exact ht ▸ h.endPacket

end Sys2Proof.Machine

namespace Sys2Proof.Machine

/-! ## The report registers

They change in three ways: `succeed`, `raise`, and CLEAR or reset, which zero all of them. -/

/-- Registers that are all 0 are a legal report (R57). -/
theorem State.reportOk.of_zero {s : State} (hstatus : s.status = 0#8) (hkind : s.errKind = 0#4) (hpos : s.errPos = 0) :
    s.reportOk := by
  unfold State.reportOk State.err State.done
  rw [hstatus, hkind, hpos]
  decide

/-- A success leaves a legal report (R259). -/
theorem State.reportOk.succeed {s : State} (h : s.reportOk) (f : ValidFlag) : (succeed f s).reportOk := by
  obtain ⟨⟨h2, h3⟩, -⟩ := h
  obtain ⟨hdone, herr, -, -⟩ := statusSucceed_bits f s.status
  have hf : 2 ≠ f.bit ∧ 3 ≠ f.bit := by cases f <;> decide
  refine ⟨⟨?_, ?_⟩, by simp, ?_, fun _ => rfl, ?_⟩
  · exact (statusSucceed_other f s.status 2 (by decide) (by decide) hf.1).trans h2
  · exact (statusSucceed_other f s.status 3 (by decide) (by decide) hf.2).trans h3
  · simpa [State.err, errBit] using herr
  · simp [State.done, doneBit, hdone]

/-- DONE, ERR and the reserved bits after a failure (R255, R226). -/
theorem statusFail_report (f : Option ValidFlag) (v : BitVec 8) :
    (statusFail f v).getLsbD 0 = true ∧ (statusFail f v).getLsbD 1 = true ∧
    (statusFail f v).getLsbD 2 = v.getLsbD 2 ∧ (statusFail f v).getLsbD 3 = v.getLsbD 3 := by
  cases f with
  | none =>
    obtain ⟨hdone, herr, hother⟩ := statusFail_none_bits v
    exact ⟨hdone, herr, hother 2 (by decide) (by decide) (by decide), hother 3 (by decide) (by decide) (by decide)⟩
  | some f =>
    obtain ⟨hdone, herr, -, -⟩ := statusFail_bits f v
    have hf : 2 ≠ f.bit ∧ 3 ≠ f.bit := by cases f <;> decide
    exact ⟨hdone, herr, statusFail_other f v 2 (by decide) (by decide) hf.1, statusFail_other f v 3 (by decide) (by decide) hf.2⟩

/-- The code of a kind is one that is produced, and not 0 (R240). -/
theorem ErrKind.code_mem (k : ErrKind) : k.code ∈ [0#4, 1#4, 2#4, 3#4, 4#4, 5#4, 8#4, 9#4, 10#4] ∧ k.code ≠ 0#4 := by
  cases k <;> decide

/-- A kind raised at a cursor is none of 8, 9, 10 (R25). -/
theorem ErrKind.AtCursor.code_not_mem {k : ErrKind} (h : k.AtCursor) : k.code ∉ [0#4, 8#4, 9#4, 10#4] := by
  obtain ⟨hcommand, hparam, hrange⟩ := h
  cases k <;> simp_all [ErrKind.code]

/-- A failure leaves a legal report, if its position is 0 where its kind asks for it (R25, R255). -/
theorem State.reportOk.raise {s : State} (h : s.reportOk) (c : Failing) {k : ErrKind} {pos : Nat} (hk : k.AtCursor ∨ pos = 0) :
    (raise c k pos s).reportOk := by
  obtain ⟨⟨h2, h3⟩, -⟩ := h
  obtain ⟨hdone, herr, hbit2, hbit3⟩ := statusFail_report c.flag s.status
  obtain ⟨hmem, hne⟩ := k.code_mem
  refine ⟨⟨hbit2.trans h2, hbit3.trans h3⟩, hmem, ⟨fun _ => hne, fun _ => herr⟩, fun hz => ?_, fun hd => ?_⟩
  · exact hk.resolve_left fun hc => hc.code_not_mem hz
  · exact absurd (hdone.symm.trans hd) (by decide)

/-- A command leaves a legal report. -/
theorem State.reportOk.cmd {s t : State} (h : s.reportOk) (hc : CmdEffect s t) : t.reportOk := by
  cases hc with
  | uvenc hu =>
    rcases hu with rfl | ⟨nib, ext, -, rfl⟩
    · exact h.raise _ (.inr rfl)
    · exact State.reportOk.succeed (by exact h) _
  | uvdec hu =>
    cases hu with
    | bad _ ht => exact ht ▸ h.raise _ (.inr rfl)
    | fails k _ hd ht => exact ht ▸ h.raise _ (.inl (uvarDecode_atCursor hd))
    | ends v c _ _ ht => exact ht ▸ State.reportOk.succeed (by exact h) _
  | msgenc hm =>
    cases hm with
    | bad _ ht => exact ht ▸ h.raise _ (.inr rfl)
    | ends p _ _ _ ht => exact ht ▸ State.reportOk.succeed (by exact h) _
  | msgdec _ hm =>
    cases hm with
    | bad _ ht => exact ht ▸ State.reportOk.raise (by exact h) _ (.inr rfl)
    | fails k pos w _ _ _ hk ht => exact ht ▸ State.reportOk.raise (by exact h) _ (.inl hk)
    | ends w _ _ _ _ _ ht => exact ht ▸ State.reportOk.succeed (by exact h) _
  | fmt ht => exact ht ▸ State.reportOk.succeed (by exact h) _
  | clear ht => exact ht ▸ .of_zero rfl rfl rfl
  | badcmd ht => exact ht ▸ h.raise _ (.inr rfl)

/-- A host transaction leaves a legal report: no transaction but a CMD write and reset touches it. -/
theorem State.reportOk.txn {s t : State} (h : s.reportOk) (hx : TxnEffect s t) : t.reportOk := by
  cases hx with
  | cmd v hc => exact State.reportOk.cmd (s := { s with reply := none, cmd := v }) h hc
  | read r ht => exact ht ▸ h
  | reg no v ht =>
    rw [ht, writeRegister_eq]
    exact h
  | buf id idx b ht =>
    rw [ht, writeBuffer_eq]
    exact h
  | reset ht => exact ht ▸ .of_zero rfl rfl rfl

/-- A wire item leaves a legal report: a failing item's kind is one raised at a cursor. -/
theorem State.reportOk.item {i : Instr} {s t : State} (h : s.reportOk) (hi : ItemEffect i s t) : t.reportOk := by
  cases hi with
  | uvdecGoes u u' _ ht => exact ht ▸ h
  | uvdecEnds u value cur ext _ ht => exact ht ▸ State.reportOk.succeed (by exact h) _
  | uvdecFails u k _ hk ht => exact ht ▸ h.raise _ (.inl hk)
  | msgencGoes e e' _ _ _ _ ht => exact ht ▸ h
  | msgdecGoes d d' _ _ ht => exact ht ▸ h
  | msgdecAccepts d d' _ _ _ _ ht => exact ht ▸ h
  | msgdecEnds d bytes _ ht => exact ht ▸ State.reportOk.succeed (by exact h) _
  | msgdecFails d k pos _ hk ht => exact ht ▸ h.raise _ (.inl hk)
  | fmtEnds cls detail _ ht => exact ht ▸ State.reportOk.succeed (by exact h) _

/-- Settles O45: a success and a failure each leave a legal report, and nothing else but CLEAR and reset writes it. -/
theorem stepKeepsReportLegal : Obligations.StepKeepsReportLegal := by
  intro s t h hstep
  cases step_effect hstep with
  | stays _ _ ht => exact ht ▸ h
  | txn x rest _ _ hx => exact State.reportOk.txn (s := { s with host := rest }) h hx
  | takes slot bs rest i _ _ _ hi => exact h.item hi
  | emits i _ _ hi => exact h.item hi
  | headerShort _ ht =>
    subst ht
    unfold shortHeader
    split
    · exact h.raise _ (.inr rfl)
    · exact h
  | optionsEnd _ ht =>
    subst ht
    unfold endOptions
    split <;> exact h
  | packetEnd _ ht =>
    subst ht
    unfold endPacket
    split
    · exact State.reportOk.succeed (by exact h) _
    · exact h

end Sys2Proof.Machine

namespace Sys2Proof.Machine

/-! ## What one step of a running command does, stage by stage

`step_effect` says how a step can change the state. The transient state needs more: which stage leads to which, and how
far the cursor moves. These are the edges of R190's step relation, and of R131's and R150's in the same form. -/

/-- A step of a running command is a step of the engine. -/
theorem step_running {s : State} (h : s.engine ≠ .idle) : step s = engineStep s := by
  unfold step
  split
  · contradiction
  · rfl

/-- A step that takes bytes executes the item they decode to. -/
theorem step_takes {s : State} {slot : Slot} {bs rest : List Byte} {i : Instr} (he : s.engine ≠ .idle)
    (hf : fetch s = .bytes slot bs) (hd : decode slot bs = .ok i rest) : step s = exec i s := by
  rw [step_running he, engineStep, hf]
  simp only [hd]

/-- A step that emits executes the item. -/
theorem step_emits {s : State} {i : Instr} (he : s.engine ≠ .idle) (hf : fetch s = .emit i) : step s = exec i s := by
  rw [step_running he, engineStep, hf]

/-! ### UvarDecode: its nibble and its extension -/

/-- A UvarDecode runs only while a command does. -/
theorem engine_ne_idle_of_uvarPos {s : State} (h : uvarPos s ≠ .nowhere) : s.engine ≠ .idle := by
  intro he
  simp [uvarPos, he] at h

/-- What a nibble does to the UvarDecode that waits for it at the cursor `c` (R131). -/
theorem exec_decodeNibble {s t : State} {c : Nat} (hp : uvarPos s = .nibble c) {nib : Nibble}
    (h : exec (decodeNibble nib) s = .next t) :
    (∃ k : ErrKind, k.AtCursor ∧ t = uvarRaise k c s) ∨
    (∃ wide, c + extWidth wide ≤ s.rxLen ∧ t = awaitExt wide s) ∨
    (∃ v, v ≤ 15 ∧ t = deliver v c [] s) := by
  unfold decodeNibble at h
  split at h
  · simp only [exec, execNibExt8, hp] at h
    split at h
    · exact .inl ⟨_, by simp [ErrKind.AtCursor], (next_inj h).symm⟩
    · exact .inr (.inl ⟨false, by simp [extWidth]; omega, (next_inj h).symm⟩)
  · simp only [exec, execNibExt16, hp] at h
    split at h
    · exact .inl ⟨_, by simp [ErrKind.AtCursor], (next_inj h).symm⟩
    · exact .inr (.inl ⟨true, by simp [extWidth]; omega, (next_inj h).symm⟩)
  · simp only [exec, execNibRsvd, hp] at h
    exact .inl ⟨_, by simp [ErrKind.AtCursor], (next_inj h).symm⟩
  · simp only [exec, execNibLit, hp] at h
    exact .inr (.inr ⟨nib.toNat, by omega, (next_inj h).symm⟩)

/-- The byte a nibble is fetched as decodes to its class (R131). -/
theorem decode_joinNibbles (nib : Nibble) : decode .nibble [joinNibbles 0#4 nib] = .ok (decodeNibble nib) [] := by
  simp [decode, hiNibble_join, loNibble_join]

/-- A step of the UvarDecode that waits for a nibble at the cursor `c` (R131). -/
theorem step_at_nibble {s t : State} {c : Nat} (hp : uvarPos s = .nibble c) (h : step s = .next t) :
    (∃ k : ErrKind, k.AtCursor ∧ t = uvarRaise k c s) ∨
    (∃ wide, c + extWidth wide ≤ s.rxLen ∧ t = awaitExt wide s) ∨
    (∃ v, v ≤ 15 ∧ t = deliver v c [] s) := by
  have hf : ∃ nib, fetch s = .bytes .nibble [joinNibbles 0#4 nib] := by
    rcases uvarPos_nibble hp with ⟨u, he, hs, -⟩ | ⟨d, he, -, ⟨dn, ln, hs⟩ | ⟨ln, hs⟩⟩
    · exact ⟨s.uvNib, by simp [fetch, he, fetchUvdec, hs]⟩
    · exact ⟨dn, by simp [fetch, he, fetchMsgdec, hs]⟩
    · exact ⟨ln, by simp [fetch, he, fetchMsgdec, hs]⟩
  obtain ⟨nib, hf⟩ := hf
  rw [step_takes (engine_ne_idle_of_uvarPos (by simp [hp])) hf (decode_joinNibbles nib)] at h
  exact exec_decodeNibble hp h

/-- A step of the UvarDecode that waits for an extension at the cursor `c`: a value of R100, for each byte of it and its
nibble at most 21935 (R58). -/
theorem step_at_extension {s t : State} {c : Nat} {wide : Bool} (hp : uvarPos s = .ext wide c) (h : step s = .next t) :
    ∃ v ext, ext.length = extWidth wide ∧ v ≤ 65804 ∧ v ≤ 21935 * (1 + ext.length) ∧ t = deliver v (c + ext.length) ext s := by
  have he := engine_ne_idle_of_uvarPos (s := s) (by simp [hp])
  have hm : ∀ e, s.engine ≠ .msgenc e := by
    intro e he
    simp [uvarPos, he] at hp
  cases wide with
  | false =>
    have hf : fetch s = .bytes .ext8 [s.rxByte c] := by
      rcases uvarPos_ext hp with ⟨u, he, hs, rfl⟩ | ⟨d, he, rfl, ⟨ln, hs⟩ | hs⟩
      · simp [fetch, he, fetchUvdec, hs]
      · simp [fetch, he, fetchMsgdec, hs]
      · simp [fetch, he, fetchMsgdec, hs]
    rw [step_takes (i := .ext8 (s.rxByte c)) (rest := []) he hf rfl] at h
    simp only [exec, execExt8, hp] at h
    exact ⟨_, [s.rxByte c], rfl, by omega, by simp; omega, (next_inj h).symm⟩
  | true =>
    have hf : fetch s = .bytes .ext16 [s.rxByte c, s.rxByte (c + 1)] := by
      rcases uvarPos_ext hp with ⟨u, he, hs, rfl⟩ | ⟨d, he, rfl, ⟨ln, hs⟩ | hs⟩
      · simp [fetch, he, fetchUvdec, hs]
      · simp [fetch, he, fetchMsgdec, hs]
      · simp [fetch, he, fetchMsgdec, hs]
    rw [step_takes (i := .ext16 (s.rxByte c) (s.rxByte (c + 1))) (rest := []) he hf rfl] at h
    simp only [exec, execExt16, hp] at h
    exact ⟨_, [s.rxByte c, s.rxByte (c + 1)], rfl, by omega, by simp; omega, (next_inj h).symm⟩

/-! ### UVDEC -/

/-- What a step of a running UVDEC does (R131, R135). -/
inductive UvRun.Step (u : UvRun) (s t : State) : Prop
  /-- The nibble asks for an extension, which fits. -/
  | awaits (wide : Bool) (hs : u.stage = .nibble) (hf : u.cur + extWidth wide ≤ s.rxLen)
      (ht : t = { s with engine := .uvdec { u with stage := .ext wide } })
  /-- It ends with the bytes of the extension consumed, none for a literal nibble. -/
  | ends (value : Nat) (ext : List Byte)
      (hx : u.stage = .nibble ∧ ext.length = 0 ∨ ∃ wide, u.stage = .ext wide ∧ ext.length = extWidth wide)
      (ht : t = finishUvdec value (u.cur + ext.length) ext s)
  | fails (k : ErrKind) (ht : t = raise .uvdec k u.cur s)

/-- A running UVDEC does one of these. -/
theorem uvdec_step {s t : State} {u : UvRun} (he : s.engine = .uvdec u) (h : step s = .next t) : u.Step s t := by
  cases hs : u.stage with
  | nibble =>
    rcases step_at_nibble (c := u.cur) (by simp [uvarPos, he, hs]) h with ⟨k, -, rfl⟩ | ⟨wide, hf, rfl⟩ | ⟨v, -, rfl⟩
    · exact .fails k (by simp [uvarRaise, he])
    · exact .awaits wide hs hf (by simp [awaitExt, he])
    · exact .ends v [] (.inl ⟨hs, rfl⟩) (by simp [deliver, he])
  | ext wide =>
    obtain ⟨v, ext, hx, -, -, rfl⟩ := step_at_extension (c := u.cur) (wide := wide) (by simp [uvarPos, he, hs]) h
    exact .ends v ext (.inr ⟨wide, hs, hx⟩) (by simp [deliver, he])

/-! ### MSGENC -/

/-- What a step of a running MSGENC does (R150). -/
inductive EncRun.Step (e : EncRun) (s t : State) : Prop
  /-- It emits `bs` at its write index; the header first, and only once. -/
  | emits (bs : List Byte) (e' : EncRun) (hw : e'.wp = e.wp) (hs : e'.stage ≠ .header)
      (hh : e.stage = .header → bs = encode (.gethdr s.encTkl s.midSrc)) (hx : e.IndexesFrom s e')
      (hm : e.wp + bs.length ≤ s.cfg.txMax)
      (ht : t = { s with tx := s.tx.writeBytes e.wp bs, engine := .msgenc { e' with wp := e.wp + bs.length } })
  | ends (hs : e.stage = .options) (ht : t = finishMsgenc e.wp s)

/-- An emission that goes on, as a step of MSGENC. -/
theorem EncRun.Step.of_emitBytes {s t : State} {e e' : EncRun} {bs : List Byte} (h : emitBytes bs e' s = .next t)
    (hw : e'.wp = e.wp) (hs : e'.stage ≠ .header) (hh : e.stage = .header → bs = encode (.gethdr s.encTkl s.midSrc))
    (hx : e.IndexesFrom s e') : e.Step s t := by
  obtain ⟨hm, ht⟩ := emitBytes_next h
  rw [hw] at hm ht
  exact .emits bs e' hw hs hh hx hm ht

/-- What follows an option header byte is no header. -/
theorem afterOptionHead_ne_header (ln : Nibble) : afterOptionHead ln ≠ .header := by
  unfold afterOptionHead
  split <;> simp

/-- A running MSGENC does one of these. -/
theorem msgenc_step {s t : State} {e : EncRun} (he : s.engine = .msgenc e) (h : step s = .next t) : e.Step s t := by
  have hne : s.engine ≠ .idle := by simp [he]
  have hfetch : fetch s = fetchMsgenc e s := by simp [fetch, he]
  cases hs : e.stage with
  | header =>
    simp only [fetchMsgenc, hs] at hfetch
    rw [step_emits hne hfetch] at h
    simp only [exec, execGethdr, he, hs] at h
    exact .of_emitBytes h rfl (by simp) (fun _ => rfl) ⟨.inl rfl, .inl rfl⟩
  | token =>
    simp only [fetchMsgenc, hs] at hfetch
    rw [step_emits hne hfetch] at h
    simp only [exec, execToken, he, emitToken, hs] at h
    exact .of_emitBytes h rfl (by simp) (by simp [hs]) ⟨.inl rfl, .inl rfl⟩
  | options =>
    simp only [fetchMsgenc, hs] at hfetch
    split at hfetch
    · unfold optionHeadItem at hfetch
      split at hfetch
      · rw [step_emits hne hfetch] at h
        simp only [exec, execOpt, he, emitOptionHead, hs] at h
        exact .of_emitBytes h rfl (afterOptionHead_ne_header _) (by simp [hs]) ⟨.inr rfl, .inl rfl⟩
      · simp [step_running hne, engineStep, hfetch] at h
    · simp only [step_running hne, engineStep, hfetch, endPacket, he] at h
      exact .ends hs (next_inj h).symm
  | ext wide =>
    simp only [fetchMsgenc, hs, lengthExtItem] at hfetch
    split at hfetch
    · rw [step_emits hne hfetch] at h
      simp only [exec, execExt8, he, emitExt, hs] at h
      split at h
      · exact .of_emitBytes h rfl (by simp) (by simp [hs]) ⟨.inl rfl, .inl rfl⟩
      · simp [outOfPlace] at h
    · rw [step_emits hne hfetch] at h
      simp only [exec, execExt16, he, emitExt, hs] at h
      split at h
      · exact .of_emitBytes h rfl (by simp) (by simp [hs]) ⟨.inl rfl, .inl rfl⟩
      · simp [outOfPlace] at h
    · simp [step_running hne, engineStep, hfetch] at h
  | value =>
    simp only [fetchMsgenc, hs] at hfetch
    rw [step_emits hne hfetch] at h
    simp only [exec, execValue, he, emitValue, hs] at h
    exact .of_emitBytes h rfl (by simp) (by simp [hs]) ⟨.inl rfl, .inr rfl⟩

/-! ### MSGDEC -/

/-- The moves of a running MSGDEC that only its transient state records: the edges of R190, cut at each wire item. -/
inductive DecRun.Goes (len : Nat) (d : DecRun) : DecRun → Prop
  /-- The header is accepted (R175). -/
  | header (ver typ : BitVec 2) (tkl : BitVec 4) (code : BitVec 8) (mid : BitVec 16) (hs : d.stage = .header) (hl : 4 ≤ len)
      (hc : headerCheck ver tkl len = none) :
      Goes len d { d with stage := .token, cur := 4, ver := ver, typ := typ, tkl := tkl, code := code, mid := mid }
  /-- The token is copied (R177). -/
  | token (bytes : List Byte) (hs : d.stage = .token) (hb : bytes.length = d.tkl.toNat) :
      Goes len d { d with stage := .option, token := bytes, cur := d.cur + bytes.length }
  /-- The buffer ends (R178). -/
  | optionsEnd (hs : d.stage = .option) : Goes len d { d with stage := .payload }
  /-- The mark is consumed (R179). -/
  | mark (hs : d.stage = .option) (hl : d.cur < len) : Goes len d { d with stage := .payload, cur := d.cur + 1 }
  /-- An option header byte is consumed (R180). -/
  | optionHead (dn ln : Nibble) (hs : d.stage = .option) (hl : d.cur < len) :
      Goes len d { d with stage := .delta dn ln, cur := d.cur + 1 }
  /-- The delta nibble asks for an extension, which fits (R131). -/
  | awaitDelta (dn ln : Nibble) (wide : Bool) (hs : d.stage = .delta dn ln) (hl : d.cur + extWidth wide ≤ len) :
      Goes len d { d with stage := .deltaExt wide ln }
  /-- The length nibble asks for one. -/
  | awaitLength (ln : Nibble) (wide : Bool) (hs : d.stage = .length ln) (hl : d.cur + extWidth wide ≤ len) :
      Goes len d { d with stage := .lengthExt wide }
  /-- The delta is known after `n` extension bytes (R183). -/
  | delta (ln : Nibble) (v n : Nat) (hv : v ≤ 65804) (hb : v ≤ 21935 * (1 + n))
      (hs : (∃ dn, d.stage = .delta dn ln) ∧ n = 0 ∨ ∃ wide, d.stage = .deltaExt wide ln ∧ n = extWidth wide) :
      Goes len d { d with delta := v, cur := d.cur + n, stage := .length ln }
  /-- The length is known after `n` extension bytes (R184). -/
  | length (v n : Nat) (hv : v ≤ 65804)
      (hs : (∃ ln, d.stage = .length ln) ∧ n = 0 ∨ ∃ wide, d.stage = .lengthExt wide ∧ n = extWidth wide) :
      Goes len d { d with length := v, cur := d.cur + n, last := d.last + d.delta, stage := .value }

/-- What a step of a running MSGDEC does (R190). -/
inductive DecRun.Step (d : DecRun) (s t : State) : Prop
  | goes (d' : DecRun) (hd : d.Goes s.rxLen d') (ht : t = { s with engine := .msgdec d' })
  /-- The option is accepted (R186). -/
  | accepts (hs : d.stage = .value) (hl : d.length ≤ s.rxLen - d.cur)
      (ht : t = { s with
        trace := s.trace ++ [{ num := d.last, off := d.cur, length := d.length }],
        engine := .msgdec { d with stage := .option, cur := d.cur + d.length, cnt := d.cnt + 1 } })
  /-- It fails, at an index that is inside the datagram where the cursor is. -/
  | fails (k : ErrKind) (pos : Nat) (hp : d.cur ≤ s.rxLen → pos ≤ s.rxLen) (ht : t = failRun k pos d s)
  /-- The payload ends it (R188). -/
  | ends (bytes : List Byte) (hs : d.stage = .payload) (hb : bytes.length = s.rxLen - d.cur)
      (ht : t = finishMsgdec { ver := d.ver, typ := d.typ, tkl := d.tkl, code := d.code, mid := d.mid, token := d.token }
        { cur := d.cur, last := d.last, cnt := d.cnt, trace := s.trace } bytes s)

/-- A header word of any of the three kinds is unpacked and checked alike (R173 to R175). -/
theorem exec_decodeHdr (b0 b1 b2 b3 : Byte) (s : State) :
    exec (decodeHdr b0 b1 b2 b3) s = takeHeader (verOf b0) (typOf b0) (tklOf b0) b1 (be16 b2 b3) s := by
  unfold decodeHdr
  split
  · rename_i hv
    split <;> simp [exec, execHdr, execHdrBadtkl, hv]
  · simp [exec, execHdrBadver]

/-- A step at the header (R172 to R175). -/
theorem step_at_header {s t : State} {d : DecRun} (he : s.engine = .msgdec d) (hs : d.stage = .header) (h : step s = .next t) :
    d.Step s t := by
  have hne : s.engine ≠ .idle := by simp [he]
  have hfetch : fetch s = fetchMsgdec d s := by simp [fetch, he]
  simp only [fetchMsgdec, hs] at hfetch
  split at hfetch
  · simp only [step_running hne, engineStep, hfetch, shortHeader, he] at h
    exact .fails _ 0 (fun _ => by omega) (next_inj h).symm
  · rename_i hl
    rw [step_takes hne hfetch rfl, exec_decodeHdr] at h
    simp only [takeHeader, he, hs] at h
    split at h
    · exact .fails _ 4 (fun _ => by omega) (next_inj h).symm
    · exact .goes _ (.header _ _ _ _ _ hs (by omega) ‹_›) (next_inj h).symm

/-- A token of at most 8 bytes decodes to itself (R95). -/
theorem decode_token {bs : List Byte} (h : bs.length ≤ 8) : decode (.token bs.length) bs = .ok (.token bs) [] := by
  simp [decode, takeRun, Nat.not_lt.mpr h]

/-- An option value of at most 65804 bytes decodes to itself (R102). -/
theorem decode_value {bs : List Byte} (h : bs.length ≤ 65804) : decode (.value bs.length) bs = .ok (.value bs) [] := by
  simp [decode, takeRun, Nat.not_lt.mpr h]

/-- A step at the token (R177). -/
theorem step_at_token {s t : State} {d : DecRun} (he : s.engine = .msgdec d) (hs : d.stage = .token) (h : step s = .next t) :
    d.Step s t := by
  have hne : s.engine ≠ .idle := by simp [he]
  have hfetch : fetch s = fetchMsgdec d s := by simp [fetch, he]
  simp only [fetchMsgdec, hs] at hfetch
  generalize hbs : bytesFrom s.rxByte d.cur d.tkl.toNat = bs at hfetch
  have hlen : bs.length = d.tkl.toNat := by simp [← hbs]
  rw [← hlen] at hfetch
  by_cases h8 : bs.length ≤ 8
  · rw [step_takes hne hfetch (decode_token h8)] at h
    simp only [exec, execToken, takeToken, he, hs] at h
    exact .goes _ (.token bs hs hlen) (next_inj h).symm
  · simp [step_running hne, engineStep, hfetch, decode, Nat.not_le.mp h8, outOfPlace] at h

/-- A step at the head of the option loop (R178 to R182). -/
theorem step_at_option {s t : State} {d : DecRun} (he : s.engine = .msgdec d) (hs : d.stage = .option) (h : step s = .next t) :
    d.Step s t := by
  have hne : s.engine ≠ .idle := by simp [he]
  have hfetch : fetch s = fetchMsgdec d s := by simp [fetch, he]
  simp only [fetchMsgdec, hs] at hfetch
  split at hfetch
  · rename_i hl
    rw [step_takes hne hfetch rfl, decodeOpth] at h
    split at h
    · simp only [exec, execMark, he, hs] at h
      exact .goes _ (.mark hs hl) (next_inj h).symm
    · split at h
      · simp only [exec, execOptDrsvd, he, hs] at h
        exact .fails _ (d.cur + 1) (fun _ => by omega) (next_inj h).symm
      · split at h
        · simp only [exec, execOptLrsvd, takeOptionHead, he, hs] at h
          exact .goes _ (.optionHead _ _ hs hl) (next_inj h).symm
        · simp only [exec, execOpt, takeOptionHead, he, hs] at h
          exact .goes _ (.optionHead _ _ hs hl) (next_inj h).symm
  · simp only [step_running hne, engineStep, hfetch, endOptions, he] at h
    exact .goes _ (.optionsEnd hs) (next_inj h).symm

/-- A step at the value (R185, R186). -/
theorem step_at_value {s t : State} {d : DecRun} (he : s.engine = .msgdec d) (hs : d.stage = .value) (h : step s = .next t) :
    d.Step s t := by
  have hne : s.engine ≠ .idle := by simp [he]
  have hfetch : fetch s = fetchMsgdec d s := by simp [fetch, he]
  simp only [fetchMsgdec, hs] at hfetch
  generalize hbs : bytesFrom s.rxByte d.cur (min d.length (s.rxLen - d.cur)) = bs at hfetch
  have hlen : bs.length = min d.length (s.rxLen - d.cur) := by simp [← hbs]
  rw [← hlen] at hfetch
  by_cases hv : bs.length ≤ 65804
  · rw [step_takes hne hfetch (decode_value hv)] at h
    simp only [exec, execValue, takeValue, he, hs] at h
    split at h
    · exact .fails _ d.cur id (next_inj h).symm
    · exact .accepts hs (by omega) (next_inj h).symm
  · simp [step_running hne, engineStep, hfetch, decode, Nat.not_le.mp hv, outOfPlace] at h

/-- A running MSGDEC does one of these. -/
theorem msgdec_step {s t : State} {d : DecRun} (he : s.engine = .msgdec d) (h : step s = .next t) : d.Step s t := by
  cases hs : d.stage with
  | header => exact step_at_header he hs h
  | token => exact step_at_token he hs h
  | option => exact step_at_option he hs h
  | delta dn ln =>
    rcases step_at_nibble (c := d.cur) (by simp [uvarPos, he, hs]) h with ⟨k, -, rfl⟩ | ⟨wide, hf, rfl⟩ | ⟨v, hv, rfl⟩
    · exact .fails k d.cur id (by simp [uvarRaise, he, failRun])
    · exact .goes _ (.awaitDelta dn ln wide hs hf) (by simp [awaitExt, he, hs])
    · exact .goes _ (.delta ln v 0 (by omega) (by omega) (.inl ⟨⟨dn, hs⟩, rfl⟩)) (by simp [deliver, he, hs])
  | deltaExt wide ln =>
    obtain ⟨v, ext, hx, hv, hb, rfl⟩ := step_at_extension (c := d.cur) (wide := wide) (by simp [uvarPos, he, hs]) h
    exact .goes _ (.delta ln v ext.length hv hb (.inr ⟨wide, hs, hx⟩)) (by simp [deliver, he, hs])
  | length ln =>
    rcases step_at_nibble (c := d.cur) (by simp [uvarPos, he, hs]) h with ⟨k, -, rfl⟩ | ⟨wide, hf, rfl⟩ | ⟨v, hv, rfl⟩
    · exact .fails k d.cur id (by simp [uvarRaise, he, failRun])
    · exact .goes _ (.awaitLength ln wide hs hf) (by simp [awaitExt, he, hs])
    · exact .goes _ (.length v 0 (by omega) (.inl ⟨⟨ln, hs⟩, rfl⟩)) (by simp [deliver, he, hs])
  | lengthExt wide =>
    obtain ⟨v, ext, hx, hv, -, rfl⟩ := step_at_extension (c := d.cur) (wide := wide) (by simp [uvarPos, he, hs]) h
    exact .goes _ (.length v ext.length hv (.inr ⟨wide, hs, hx⟩)) (by simp [deliver, he, hs])
  | value => exact step_at_value he hs h
  | payload =>
    have hfetch : fetch s = .bytes .payload (bytesFrom s.rxByte d.cur (s.rxLen - d.cur)) := by simp [fetch, he, fetchMsgdec, hs]
    rw [step_takes (by simp [he]) hfetch rfl] at h
    simp only [exec, execPayload, he, hs] at h
    exact .ends _ hs (by simp) (next_inj h).symm

/-! ### All commands -/

/-- What a step does, a running command's by its stage. -/
inductive StageEffect (s t : State) : Prop
  | stays (he : s.engine = .idle) (ht : t = s)
  | txn (rest : List HostTxn) (he : s.engine = .idle) (hx : TxnEffect { s with host := rest } t)
  | uvdec (u : UvRun) (he : s.engine = .uvdec u) (hu : u.Step s t)
  | msgenc (e : EncRun) (he : s.engine = .msgenc e) (hm : e.Step s t)
  | msgdec (d : DecRun) (he : s.engine = .msgdec d) (hm : d.Step s t)
  | fmt (cls : BitVec 3) (detail : BitVec 5) (he : s.engine = .fmt) (ht : t = formatCode cls detail s)

/-- A step does one of these. -/
theorem step_stageEffect {s t : State} (h : step s = .next t) : StageEffect s t := by
  cases he : s.engine with
  | idle =>
    unfold step at h
    split at h
    · split at h
      · exact .stays he (next_inj h).symm
      · exact .txn _ he (txn_effect h)
    · exact absurd he ‹_›
  | uvdec u => exact .uvdec u he (uvdec_step he h)
  | msgenc e => exact .msgenc e he (msgenc_step he h)
  | msgdec d => exact .msgdec d he (msgdec_step he h)
  | fmt =>
    have hfetch : fetch s = .bytes .code [s.fmtCode] := by simp [fetch, he]
    rw [step_takes (by simp [he]) hfetch rfl] at h
    simp only [exec, execCode, he] at h
    exact .fmt _ _ he (next_inj h).symm

end Sys2Proof.Machine

namespace Sys2Proof.Machine

/-! ## The transient state -/

/-! ### What MSGENC has written -/

/-- Indexes below a run's end are written, if those below its begin were. -/
theorem Memory.written_writeBytes {m : Memory} {a : Nat} (h : ∀ i, i < a → m.read i ≠ none) (bs : List Byte) :
    ∀ i, i < a + bs.length → (m.writeBytes a bs).read i ≠ none := by
  intro i hi
  by_cases ha : i < a
  · rw [Memory.read_writeBytes_outside _ _ _ (.inl ha)]
    exact h i ha
  · obtain ⟨j, rfl⟩ := Nat.exists_eq_add_of_le (Nat.not_lt.mp ha)
    have hj : j < bs.length := by omega
    rw [Memory.read_writeBytes_inside _ _ _ hj]
    simp [hj]

/-- Bytes 2 and 3 of a packet are its message id (R92, R94). -/
theorem Memory.read_messageId (m : Memory) (tkl : BitVec 4) (mid : BitVec 16) (rest : List Byte) :
    (m.writeBytes 0 (encode (.gethdr tkl mid) ++ rest)).read 2 = some (highByte mid) ∧
    (m.writeBytes 0 (encode (.gethdr tkl mid) ++ rest)).read 3 = some (lowByte mid) := by
  have h (j : Nat) (hj : j < 4) := Memory.read_writeBytes_inside m 0 (encode (.gethdr tkl mid) ++ rest) (j := j)
    (by simp [encode]; omega)
  exact ⟨(h 2 (by decide)).trans rfl, (h 3 (by decide)).trans rfl⟩

/-! ### Each command's step -/

/-- A step of UVDEC. -/
theorem UvRun.Step.transientOk {u : UvRun} {s t : State} (hstep : u.Step s t) (h : u.ok s) : t.transientOk := by
  obtain ⟨hmax, hcur, hlen, -⟩ := h
  cases hstep with
  | awaits wide _ hf ht => exact ht ▸ ⟨hmax, hcur, hlen, hf⟩
  | ends value ext _ ht => exact ht ▸ trivial
  | fails k ht => exact ht ▸ trivial

/-- A step of MSGENC: the bytes it emits follow those written, and the header keeps its place. -/
theorem EncRun.Step.transientOk {e : EncRun} {s t : State} (hstep : e.Step s t) (h : e.ok s) : t.transientOk := by
  cases hstep with
  | ends _ ht => exact ht ▸ trivial
  | emits bs e' _ hs hh _ hm ht =>
    obtain ⟨htkl, hpath, -, hwritten, hfirst, hlater⟩ := h
    have hid : 4 ≤ e.wp + bs.length ∧ (s.tx.writeBytes e.wp bs).read 2 = some (highByte s.midSrc) ∧
        (s.tx.writeBytes e.wp bs).read 3 = some (lowByte s.midSrc) := by
      by_cases hheader : e.stage = .header
      · rw [hh hheader, hfirst hheader]
        exact ⟨by simp [encode], by simpa using Memory.read_messageId s.tx s.encTkl s.midSrc []⟩
      · obtain ⟨h4, h2, h3⟩ := hlater hheader
        rw [Memory.read_writeBytes_outside _ _ _ (by omega), Memory.read_writeBytes_outside _ _ _ (by omega)]
        exact ⟨by omega, h2, h3⟩
    exact ht ▸ ⟨htkl, hpath, hm, Memory.written_writeBytes hwritten bs, fun hc => absurd hc hs, fun _ => hid⟩

/-- Past the token, a step that keeps what was captured and does not move the cursor back has only its place to show. -/
theorem DecRun.ok.of_placed {d d' : DecRun} {s : State} (h : d.ok s) (hs : d.stage ≠ .header ∧ d.stage ≠ .token)
    (hd : d' = { d with stage := d'.stage, cur := d'.cur, last := d'.last, delta := d'.delta, length := d'.length })
    (hcur : d.cur ≤ d'.cur) (hplaced : d'.placed s) : d'.ok s := by
  obtain ⟨hmax, hcnt, -, hheader, htoken⟩ := h
  obtain ⟨htok, h4⟩ := htoken hs.1 hs.2
  have hcaptured := hheader hs.1
  refine ⟨hmax, ?_, hplaced, fun _ => ?_, fun _ _ => ⟨?_, by omega⟩⟩
  all_goals rw [hd]; assumption

/-- The edges of R190 keep R40's and R58's bounds: an option has consumed a byte, and each byte pays for 21935 of a
delta. -/
theorem DecRun.Goes.ok {d d' : DecRun} {s : State} (hgoes : d.Goes s.rxLen d') (h : d.ok s) : d'.ok s := by
  have hok := h
  obtain ⟨hmax, hcnt, hplaced, hheader, -⟩ := h
  unfold DecRun.placed at hplaced
  cases hgoes with
  | header ver typ tkl code mid hs hl hc =>
    simp only [hs] at hplaced
    obtain ⟨-, hlast, hcount⟩ := hplaced
    obtain ⟨hver, htkl, hfits⟩ := headerCheck_none hc
    exact ⟨hmax, hcnt, ⟨rfl, hlast, hcount, by dsimp only; omega⟩, fun _ => ⟨hver, htkl⟩, fun _ hn => absurd rfl hn⟩
  | token bytes hs hb =>
    simp only [hs] at hplaced
    refine ⟨hmax, hcnt, ?_, fun _ => hheader (by simp [hs]), fun _ _ => ⟨hb, by dsimp only; omega⟩⟩
    simp only [DecRun.placed]
    omega
  | optionsEnd hs =>
    simp only [hs] at hplaced
    exact hok.of_placed (by simp [hs]) rfl (Nat.le_refl _) hplaced
  | mark hs hl =>
    simp only [hs] at hplaced
    exact hok.of_placed (by simp [hs]) rfl (Nat.le_succ _) (by simp only [DecRun.placed]; omega)
  | optionHead dn ln hs hl =>
    simp only [hs] at hplaced
    exact hok.of_placed (by simp [hs]) rfl (Nat.le_succ _) (by simp only [DecRun.placed]; omega)
  | awaitDelta dn ln wide hs hl =>
    simp only [hs] at hplaced
    exact hok.of_placed (by simp [hs]) rfl (Nat.le_refl _) ⟨hl, hplaced.2⟩
  | awaitLength ln wide hs hl =>
    simp only [hs] at hplaced
    exact hok.of_placed (by simp [hs]) rfl (Nat.le_refl _) ⟨hl, hplaced.2⟩
  | delta ln v n hv hb hs =>
    rcases hs with ⟨⟨dn, hs⟩, rfl⟩ | ⟨wide, hs, rfl⟩ <;> simp only [hs] at hplaced
    · exact hok.of_placed (by simp [hs]) rfl (Nat.le_refl _) (by simp only [DecRun.placed]; omega)
    · exact hok.of_placed (by simp [hs]) rfl (Nat.le_add_right _ _) (by simp only [DecRun.placed]; omega)
  | length v n hv hs =>
    rcases hs with ⟨⟨ln, hs⟩, rfl⟩ | ⟨wide, hs, rfl⟩ <;> simp only [hs] at hplaced
    · exact hok.of_placed (by simp [hs]) rfl (Nat.le_refl _) (by simp only [DecRun.placed]; omega)
    · exact hok.of_placed (by simp [hs]) rfl (Nat.le_add_right _ _) (by simp only [DecRun.placed]; omega)

/-- A step of MSGDEC. -/
theorem DecRun.Step.transientOk {d : DecRun} {s t : State} (hstep : d.Step s t) (h : d.ok s) : t.transientOk := by
  cases hstep with
  | goes d' hd ht => exact ht ▸ hd.ok h
  | accepts hs hl ht =>
    obtain ⟨hmax, hcnt, hplaced, hheader, htoken⟩ := h
    obtain ⟨htok, h4⟩ := htoken (by simp [hs]) (by simp [hs])
    simp only [DecRun.placed, hs] at hplaced
    refine ht ▸ ⟨hmax, by simp [hcnt], ?_, fun _ => hheader (by simp [hs]), fun _ _ => ⟨htok, by dsimp only; omega⟩⟩
    simp only [DecRun.placed]
    omega
  | fails k pos _ ht => exact ht ▸ trivial
  | ends bytes _ _ ht => exact ht ▸ trivial

/-- A command runs to its end, and no other host transaction begins one (R225). -/
theorem TxnEffect.engine_idle {s t : State} (hx : TxnEffect s t) (he : s.engine = .idle) : t.engine = .idle := by
  cases hx with
  | cmd v hc =>
    cases hc with
    | uvenc hu => rcases hu with rfl | ⟨nib, ext, -, rfl⟩ <;> rfl
    | uvdec hu => cases hu <;> subst_vars <;> rfl
    | msgenc hm => cases hm <;> subst_vars <;> rfl
    | msgdec _ hm => cases hm <;> subst_vars <;> rfl
    | fmt ht => exact ht ▸ rfl
    | clear ht => exact ht ▸ rfl
    | badcmd ht => exact ht ▸ rfl
  | read r ht => exact ht ▸ he
  | reg no v ht =>
    rw [ht, writeRegister_eq]
    exact he
  | buf id idx b ht =>
    rw [ht, writeBuffer_eq]
    exact he
  | reset ht => exact ht ▸ rfl

/-- With no command running there is no transient state to be wrong. -/
theorem State.transientOk.of_idle {s : State} (he : s.engine = .idle) : s.transientOk := by
  simp [State.transientOk, he]

/-- Settles O46: an idle engine has no transient state, and each running command's step keeps its own. -/
theorem stepKeepsTransientState : Obligations.StepKeepsTransientState := by
  intro s t h hstep
  cases step_stageEffect hstep with
  | stays _ ht => exact ht ▸ h
  | txn rest he hx => exact .of_idle (hx.engine_idle he)
  | uvdec u he hu =>
    simp only [State.transientOk, he] at h
    exact hu.transientOk h
  | msgenc e he hm =>
    simp only [State.transientOk, he] at h
    exact hm.transientOk h
  | msgdec d he hm =>
    simp only [State.transientOk, he] at h
    exact hm.transientOk h
  | fmt cls detail _ ht => exact ht ▸ trivial

end Sys2Proof.Machine

namespace Sys2Proof.Machine

/-! ## The widths -/

/-- What R8 asks of the parameters, as far as widths go. -/
theorem legal_bounds {p : Config.Params} (h : p.legal = true) :
    p.rxMax ≤ 2047 ∧ p.rxMax < 2 ^ p.curW ∧ p.txMax < 2 ^ p.curW := by
  simp only [Config.Params.legal, Bool.and_eq_true, decide_eq_true_eq] at h
  omega

/-! ### The bounds of R58 along the option walk -/

/-- One record of a datagram of `len` bytes: R58's bound on its number, R40's on its offset, R100's on its length. -/
def OptionEvent.within (len : Nat) (e : OptionEvent) : Prop := e.num ≤ 21935 * len ∧ e.off ≤ len ∧ e.length ≤ 65804

/-- Such a record fits its widths where the datagram does. -/
theorem OptionEvent.within.fits {p : Config.Params} (hp : p.legal = true) {len : Nat} (hl : len ≤ p.rxMax) {e : OptionEvent}
    (h : e.within len) : e.fits p.curW := by
  obtain ⟨hmax, hcurW, -⟩ := legal_bounds hp
  obtain ⟨hnum, hoff, hlength⟩ := h
  exact ⟨by omega, by omega, hlength⟩

/-- What a walk over a datagram of `len` bytes has recorded. -/
def WalkState.within (len : Nat) (w : WalkState) : Prop := w.cur ≤ len ∧ w.cnt ≤ len ∧ ∀ e ∈ w.trace, e.within len

/-- The walk's state where it ends. -/
def Walked.state : Walked → WalkState
  | .reached w => w
  | .failed _ _ w => w

/-- The bytes an extended value takes pay for it: each, and its nibble, at most 21935 (R58). -/
theorem uvarDecode_value_le {nib : Nibble} {rd : Nat → Byte} {c fin n c' : Nat} (h : uvarDecode nib rd c fin = .ok (n, c')) :
    n + 21935 * c ≤ 21935 * (c' + 1) := by
  rcases uvarDecode_cases h with ⟨hn, -, rfl, rfl⟩ | ⟨-, -, rfl, rfl⟩ | ⟨-, -, rfl, rfl⟩ <;> omega

/-- The option walk keeps the bounds: an option has consumed a byte, and each byte pays for 21935 of a delta (R58, R187). -/
theorem walkOptions_within (rd : Nat → Byte) (len n : Nat) (w : WalkState) (h : w.within len) (hlast : w.last ≤ 21935 * w.cur)
    (hcnt : w.cnt ≤ w.cur) : (walkOptions rd len n w).state.within len := by
  induction n generalizing w with
  | zero => exact h
  | succ n ih =>
    obtain ⟨hcur, hcount, htrace⟩ := id h
    simp only [walkOptions]
    split
    · rename_i hlt
      split
      · exact ⟨hlt, hcount, htrace⟩
      · split
        · exact h
        · rename_i delta c1 hd
          have hc1 := uvarDecode_le hd hlt
          have hdelta := uvarDecode_value_le hd
          split
          · exact h
          · rename_i length c2 hl
            have hc2 := uvarDecode_le hl hc1.2.1
            split
            · exact ⟨hcur, hcount, htrace⟩
            · refine ih _ ⟨?_, ?_, ?_⟩ ?_ ?_
              · dsimp only; omega
              · dsimp only; omega
              · simp only [List.forall_mem_append, List.forall_mem_singleton]
                exact ⟨htrace, by dsimp only; omega, hc2.2.1, hc2.2.2⟩
              · dsimp only; omega
              · dsimp only; omega
    · exact h

/-- How decoding a datagram ends: inside it, with all it has recorded inside it. -/
theorem decodeDatagram_within (s : State) :
    ∃ w : WalkState, w.within s.rxLen ∧
      ((∃ k pos, pos ≤ s.rxLen ∧ decodeDatagram s = failMsgdec k pos w s) ∨
       ∃ c bytes, decodeDatagram s = finishMsgdec c w bytes s) := by
  have hempty : WalkState.empty.within s.rxLen := ⟨Nat.zero_le _, Nat.zero_le _, by simp [WalkState.empty]⟩
  unfold decodeDatagram
  split
  · exact ⟨_, hempty, .inl ⟨_, 0, Nat.zero_le _, rfl⟩⟩
  · dsimp only
    split
    · exact ⟨_, hempty, .inl ⟨_, 4, by omega, rfl⟩⟩
    · rename_i hc
      obtain ⟨-, -, htkl⟩ := headerCheck_none hc
      have hstart : 4 + (tklOf (s.rxByte 0)).toNat ≤ s.rxLen := by omega
      have hok := walkOptions_ok s.rxByte s.rxLen s.rxLen
        { cur := 4 + (tklOf (s.rxByte 0)).toNat, last := 0, cnt := 0, trace := [] } hstart rfl
      have hwithin := walkOptions_within s.rxByte s.rxLen s.rxLen
        { cur := 4 + (tklOf (s.rxByte 0)).toNat, last := 0, cnt := 0, trace := [] }
        ⟨hstart, Nat.zero_le _, by simp⟩ (Nat.zero_le _) (Nat.zero_le _)
      rw [← walkFrom] at hok hwithin
      split
      · rename_i k pos w hw
        rw [hw] at hok hwithin
        obtain ⟨-, -, hpos, -⟩ := hok
        exact ⟨w, hwithin, .inl ⟨k, pos, hpos, rfl⟩⟩
      · rename_i w hw
        rw [hw] at hwithin
        exact ⟨w, hwithin, .inr ⟨_, _, rfl⟩⟩

/-! ### The ends of a command -/

/-- A success keeps the widths. -/
theorem State.widthsOk.succeed {s : State} (h : s.widthsOk) (f : ValidFlag) : (succeed f s).widthsOk := by
  obtain ⟨hlegal, ⟨-, hregisters⟩, htrace, -⟩ := h
  exact ⟨hlegal, ⟨Nat.two_pow_pos _, hregisters⟩, htrace, trivial⟩

/-- A failure keeps the widths, if its position and the options it counts fit. -/
theorem State.widthsOk.raise {s : State} (h : s.widthsOk) (c : Failing) (k : ErrKind) {pos : Nat} (hpos : pos < 2 ^ s.cfg.curW)
    (hcnt : ∀ last cnt, c = .msgdec last cnt → cnt < 2 ^ s.cfg.curW) : (raise c k pos s).widthsOk := by
  obtain ⟨hlegal, ⟨-, huvCur, hpathLen, htxLen, hrxLen, hpayOff, hpayLen, hoptCnt⟩, htrace, -⟩ := h
  have hzero := Nat.two_pow_pos s.cfg.curW
  cases c with
  | uvenc => exact ⟨hlegal, ⟨hpos, huvCur, hpathLen, htxLen, hrxLen, hpayOff, hpayLen, hoptCnt⟩, htrace, trivial⟩
  | uvdec => exact ⟨hlegal, ⟨hpos, huvCur, hpathLen, htxLen, hrxLen, hpayOff, hpayLen, hoptCnt⟩, htrace, trivial⟩
  | msgenc => exact ⟨hlegal, ⟨hpos, huvCur, hpathLen, hzero, hrxLen, hpayOff, hpayLen, hoptCnt⟩, htrace, trivial⟩
  | msgdec last cnt => exact ⟨hlegal, ⟨hpos, huvCur, hpathLen, htxLen, hrxLen, hzero, hzero, hcnt _ _ rfl⟩, htrace, trivial⟩
  | none => exact ⟨hlegal, ⟨hpos, huvCur, hpathLen, htxLen, hrxLen, hpayOff, hpayLen, hoptCnt⟩, htrace, trivial⟩

/-- UVDEC's results fit if its cursor does. -/
theorem State.widthsOk.finishUvdec {s : State} (h : s.widthsOk) (value : Nat) {cur : Nat} (ext : List Byte)
    (hcur : cur < 2 ^ s.cfg.curW) : (finishUvdec value cur ext s).widthsOk := by
  obtain ⟨hlegal, ⟨herrPos, -, hregisters⟩, htrace, hengine⟩ := h
  refine State.widthsOk.succeed ?_ _
  exact ⟨hlegal, ⟨herrPos, hcur, hregisters⟩, htrace, hengine⟩

/-- MSGENC's results fit if the packet does; what TXBUF holds is no register. -/
theorem State.widthsOk.finishMsgenc {s : State} (h : s.widthsOk) {n : Nat} (tx : Memory) (hn : n ≤ s.cfg.txMax) :
    (finishMsgenc n { s with tx := tx }).widthsOk := by
  obtain ⟨hlegal, ⟨herrPos, huvCur, hpathLen, -, hregisters⟩, htrace, hengine⟩ := h
  obtain ⟨-, -, htx⟩ := legal_bounds hlegal
  refine State.widthsOk.succeed ?_ _
  exact ⟨hlegal, ⟨herrPos, huvCur, hpathLen, by dsimp only; omega, hregisters⟩, htrace, hengine⟩

/-- The results of MSGDEC fit if what its walk has recorded lies inside the datagram. -/
theorem State.widthsOk.finishMsgdec {s : State} (h : s.widthsOk) (c : Captured) {w : WalkState} (bytes : List Byte)
    (hcur : w.cur ≤ s.rxLen) (hcnt : w.cnt ≤ s.rxLen) (htrace : ∀ e ∈ w.trace, e.fits s.cfg.curW) :
    (finishMsgdec c w bytes s).widthsOk := by
  obtain ⟨hlegal, ⟨herrPos, huvCur, hpathLen, htxLen, hrxLen, -, -, -⟩, -, hengine⟩ := h
  refine State.widthsOk.succeed ?_ _
  refine ⟨hlegal, ⟨herrPos, huvCur, hpathLen, htxLen, hrxLen, ?_, ?_, ?_⟩, htrace, hengine⟩
  all_goals dsimp only; omega

/-! ### Host transactions -/

/-- The command MSGDEC keeps the widths. -/
theorem State.widthsOk.msgdec {s t : State} (h : s.widthsOk) (hexec : exec .msgdec s = .next t) : t.widthsOk := by
  have hok := h
  obtain ⟨hlegal, hregisters, htrace, hengine⟩ := h
  have hzero := Nat.two_pow_pos s.cfg.curW
  obtain ⟨-, hrxMax, -⟩ := legal_bounds hlegal
  simp only [exec, execMsgdec] at hexec
  split at hexec
  · rename_i hl
    obtain ⟨w, ⟨hcur, hcnt, hw⟩, ⟨k, pos, hpos, heq⟩ | ⟨c, bytes, heq⟩⟩ := decodeDatagram_within s
    · rw [← next_inj hexec, heq]
      have hrecorded : State.widthsOk { s with trace := w.trace } :=
        ⟨hlegal, hregisters, fun e he => (hw e he).fits hlegal hl, hengine⟩
      refine hrecorded.raise _ _ ?_ ?_
      · dsimp only; omega
      · rintro last cnt ⟨⟩
        dsimp only; omega
    · rw [← next_inj hexec, heq]
      exact hok.finishMsgdec c bytes hcur hcnt fun e he => (hw e he).fits hlegal hl
  · rw [← next_inj hexec]
    refine State.widthsOk.raise (s := { s with trace := [] }) ⟨hlegal, hregisters, by simp, hengine⟩ _ _ hzero ?_
    rintro last cnt ⟨⟩
    exact hzero

/-- A command keeps the widths. -/
theorem State.widthsOk.cmd {s t : State} (h : s.widthsOk) (hc : CmdEffect s t) : t.widthsOk := by
  have hzero := Nat.two_pow_pos s.cfg.curW
  cases hc with
  | uvenc hu =>
    rcases hu with rfl | ⟨nib, ext, -, rfl⟩
    · exact h.raise _ _ hzero nofun
    · exact State.widthsOk.succeed (by exact h) _
  | uvdec hu =>
    obtain ⟨-, ⟨-, huvCur, -, -, hrxLen, -⟩, -⟩ := id h
    cases hu with
    | bad _ ht => exact ht ▸ h.raise _ _ hzero nofun
    | fails k _ _ ht => exact ht ▸ h.raise _ _ huvCur nofun
    | ends v c hl hd ht =>
      simp only [uvdecLegal, Bool.and_eq_true, decide_eq_true_eq] at hl
      have hcur := uvarDecode_le hd hl.2
      exact ht ▸ h.finishUvdec v _ (by omega)
  | msgenc hm =>
    cases hm with
    | bad _ ht => exact ht ▸ h.raise _ _ hzero nofun
    | ends p _ _ hp ht => exact ht ▸ h.finishMsgenc _ hp
  | msgdec hexec _ => exact h.msgdec hexec
  | fmt ht => exact ht ▸ State.widthsOk.succeed (by exact h) _
  | clear ht =>
    exact ht ▸ ⟨h.1, ⟨hzero, hzero, hzero, hzero, hzero, hzero, hzero, hzero⟩, by simp [clearedRegisters, State.reset],
      trivial⟩
  | badcmd ht => exact ht ▸ h.raise _ _ hzero nofun

/-- A RW register keeps its low bits of what is written (log entry 5). -/
theorem State.widthsOk.writeRegister {s : State} (h : s.widthsOk) (no : BitVec 6) (v : Nat) : (writeRegister s no v).widthsOk := by
  have hfit : s.fit v < 2 ^ s.cfg.curW := Nat.mod_lt _ (Nat.two_pow_pos _)
  have hok := h
  obtain ⟨hlegal, ⟨herrPos, huvCur, hpathLen, htxLen, hrxLen, hresults⟩, htrace, hengine⟩ := h
  unfold Machine.writeRegister
  split
  -- UV_CUR, PATHLEN and RXLEN are CURW bits wide; the other registers are bit vectors.
  case h_3 => exact ⟨hlegal, ⟨herrPos, hfit, hpathLen, htxLen, hrxLen, hresults⟩, htrace, hengine⟩
  case h_6 => exact ⟨hlegal, ⟨herrPos, huvCur, hfit, htxLen, hrxLen, hresults⟩, htrace, hengine⟩
  case h_7 => exact ⟨hlegal, ⟨herrPos, huvCur, hpathLen, htxLen, hfit, hresults⟩, htrace, hengine⟩
  all_goals exact hok

/-- A host transaction keeps the widths. -/
theorem State.widthsOk.txn {s t : State} (h : s.widthsOk) (hx : TxnEffect s t) : t.widthsOk := by
  cases hx with
  | cmd v hc => exact State.widthsOk.cmd (s := { s with reply := none, cmd := v }) h hc
  | read r ht => exact ht ▸ h
  | reg no v ht => exact ht ▸ State.widthsOk.writeRegister (s := { s with reply := none }) h no v
  | buf id idx b ht =>
    rw [ht, writeBuffer_eq]
    exact h
  | reset ht =>
    have hzero := Nat.two_pow_pos s.cfg.curW
    exact ht ▸ ⟨h.1, ⟨hzero, hzero, hzero, hzero, hzero, hzero, hzero, hzero⟩, by simp [resetBlock, State.reset], trivial⟩

/-! ### Running commands -/

/-- A running MSGDEC's bounds that hold at every stage (R40, R58). -/
theorem DecRun.ok.bounds {d : DecRun} {s : State} (h : d.ok s) :
    d.cur ≤ s.rxLen ∧ d.cnt ≤ d.cur ∧ d.last ≤ 21935 * d.cur := by
  obtain ⟨-, -, hplaced, -⟩ := h
  unfold DecRun.placed at hplaced
  cases hs : d.stage <;> simp only [hs] at hplaced <;> omega

/-- The extended values a MSGDEC goes on with come from UvarDecode (R100). -/
theorem DecRun.Goes.valuesFrom {len : Nat} {d d' : DecRun} (h : d.Goes len d') : d.ValuesFrom d' := by
  cases h with
  | delta ln v n hv => exact ⟨.inr hv, .inl rfl⟩
  | length v n hv => exact ⟨.inl rfl, .inr hv⟩
  | _ => exact ⟨.inl rfl, .inl rfl⟩

/-- A consistent MSGDEC fits its widths if its extended values do (R56, R58). -/
theorem DecRun.ok.fits {d : DecRun} {s : State} (h : d.ok s) (hlegal : s.cfg.legal = true) (hdelta : d.delta < 2 ^ 17)
    (hlength : d.length < 2 ^ 17) : (Engine.msgdec d).fits s.cfg.curW := by
  obtain ⟨hmax, hcurW, -⟩ := legal_bounds hlegal
  obtain ⟨hcur, hcnt, hlast⟩ := h.bounds
  have hrx := h.1
  exact ⟨by omega, by omega, by omega, hdelta, hlength⟩

/-- Moving a read index over separators leaves it inside the path, or where it was. -/
theorem skipSeparators_le (rd : Nat → Byte) (fin n rp : Nat) : skipSeparators rd fin n rp ≤ max rp fin := by
  induction n generalizing rp with
  | zero => simp [skipSeparators]
  | succ n ih =>
    simp only [skipSeparators]
    split
    · have := ih (rp + 1)
      omega
    · omega

/-- Moving it over a segment does too. -/
theorem segmentEnd_le (rd : Nat → Byte) (fin n rp : Nat) : segmentEnd rd fin n rp ≤ max rp fin := by
  induction n generalizing rp with
  | zero => simp [segmentEnd]
  | succ n ih =>
    simp only [segmentEnd]
    split
    · have := ih (rp + 1)
      omega
    · omega

/-- The next segment lies inside the path, or where the read index was. -/
theorem nextSegment_le (s : State) (rp : Nat) :
    (nextSegment s rp).1 ≤ max rp s.pathLen ∧ (nextSegment s rp).2 ≤ max rp s.pathLen := by
  have hstart := skipSeparators_le s.pathByte s.pathLen s.pathLen rp
  have hend := segmentEnd_le s.pathByte s.pathLen s.pathLen (skipSeparators s.pathByte s.pathLen s.pathLen rp)
  simp only [nextSegment]
  omega

/-- A step of UVDEC keeps the widths. -/
theorem UvRun.Step.widthsOk {u : UvRun} {s t : State} (hstep : u.Step s t) (hok : u.ok s) (h : s.widthsOk)
    (he : s.engine = .uvdec u) : t.widthsOk := by
  obtain ⟨hlegal, hregisters, htrace, hengine⟩ := id h
  rw [he] at hengine
  obtain ⟨-, -, -, -, hrxLen, -⟩ := id hregisters
  obtain ⟨-, -, hcur, hext⟩ := hok
  cases hstep with
  | awaits wide _ _ ht => exact ht ▸ ⟨hlegal, hregisters, htrace, hengine⟩
  | ends value ext hx ht =>
    refine ht ▸ h.finishUvdec value ext ?_
    rcases hx with ⟨-, hx⟩ | ⟨wide, hs, hx⟩
    · omega
    · simp only [hs] at hext
      omega
  | fails k ht => exact ht ▸ h.raise _ _ hengine nofun

/-- A step of MSGENC keeps the widths. -/
theorem EncRun.Step.widthsOk {e : EncRun} {s t : State} (hstep : e.Step s t) (hok : e.ok s) (h : s.widthsOk)
    (he : s.engine = .msgenc e) : t.widthsOk := by
  obtain ⟨hlegal, hregisters, htrace, hengine⟩ := id h
  obtain ⟨-, -, htx⟩ := legal_bounds hlegal
  cases hstep with
  | ends _ ht =>
    obtain ⟨-, -, hwp, -⟩ := hok
    exact ht ▸ h.finishMsgenc s.tx hwp
  | emits bs e' _ _ _ hx hm ht =>
    rw [he] at hengine
    obtain ⟨hrp, -, hstart, hprev⟩ := hengine
    obtain ⟨-, -, hpathLen, -⟩ := id hregisters
    obtain ⟨hindexes, hprev'⟩ := hx
    have hnext := nextSegment_le s e.rp
    have hsr : e'.rp < 2 ^ s.cfg.curW ∧ e'.start < 2 ^ s.cfg.curW := by
      rcases hindexes with hi | hi
      · obtain ⟨hs, hr⟩ := Prod.mk.inj hi
        omega
      · rw [← hi] at hnext
        omega
    exact ht ▸ ⟨hlegal, hregisters, htrace, hsr.1, by dsimp only; omega, hsr.2, by dsimp only; omega⟩

/-- A step of MSGDEC keeps the widths: what it becomes is consistent, so R58's bounds hold of it. -/
theorem DecRun.Step.widthsOk {d : DecRun} {s t : State} (hstep : d.Step s t) (hok : d.ok s) (h : s.widthsOk)
    (he : s.engine = .msgdec d) : t.widthsOk := by
  have htransient := hstep.transientOk hok
  obtain ⟨hcur, hcnt, hlast⟩ := hok.bounds
  obtain ⟨hlegal, hregisters, htrace, hengine⟩ := id h
  obtain ⟨-, hrxMax, -⟩ := legal_bounds hlegal
  have hrx := hok.1
  rw [he] at hengine
  obtain ⟨-, -, -, hdelta, hlength⟩ := hengine
  cases hstep with
  | goes d' hd ht =>
    subst ht
    obtain ⟨hdelta', hlength'⟩ := hd.valuesFrom
    exact ⟨hlegal, hregisters, htrace, DecRun.ok.fits htransient hlegal (by omega) (by omega)⟩
  | accepts hs hl ht =>
    subst ht
    refine ⟨hlegal, hregisters, ?_, DecRun.ok.fits htransient hlegal hdelta hlength⟩
    obtain ⟨-, -, hplaced, -⟩ := hok
    simp only [DecRun.placed, hs] at hplaced
    have hnew : OptionEvent.within s.rxLen { num := d.last, off := d.cur, length := d.length } :=
      ⟨by dsimp only; omega, hcur, hplaced.2.2.2⟩
    simp only [List.forall_mem_append, List.forall_mem_singleton]
    exact ⟨htrace, hnew.fits hlegal hrx⟩
  | fails k pos hp ht =>
    subst ht
    refine h.raise _ _ ?_ ?_
    · have := hp hcur
      omega
    · rintro last cnt ⟨⟩
      omega
  | ends bytes _ _ ht => exact ht ▸ h.finishMsgdec _ bytes hcur (hcnt.trans hcur) htrace

/-- Settles O47: R58's bounds, for the command MSGDEC along its walk and for a running one by `DecRun.ok`. -/
theorem stepKeepsWidths : Obligations.StepKeepsWidths := by
  intro s t h htransient hstep
  cases step_stageEffect hstep with
  | stays _ ht => exact ht ▸ h
  | txn rest he hx => exact State.widthsOk.txn (s := { s with host := rest }) h hx
  | uvdec u he hu =>
    simp only [State.transientOk, he] at htransient
    exact hu.widthsOk htransient h he
  | msgenc e he hm =>
    simp only [State.transientOk, he] at htransient
    exact hm.widthsOk htransient h he
  | msgdec d he hm =>
    simp only [State.transientOk, he] at htransient
    exact hm.widthsOk htransient h he
  | fmt cls detail _ ht => exact ht ▸ State.widthsOk.succeed (by exact h) _

end Sys2Proof.Machine

namespace Sys2Proof.Machine

/-! ## The result registers

Each unit's results are read together with its own valid flag, so an end of one command has its own unit's results to show,
and keeps those of the others. -/

/-! ### The valid flags -/

/-- A success sets the flag of its unit (R259). -/
theorem valid_succeed_same (f : ValidFlag) (s : State) : (succeed f s).valid f = true := by
  obtain ⟨-, -, hf, -⟩ := statusSucceed_bits f s.status
  exact hf

/-- A success keeps the flags of the other units (R259). -/
theorem valid_succeed_other {f g : ValidFlag} (h : f ≠ g) (s : State) : (succeed f s).valid g = s.valid g := by
  refine statusSucceed_other f s.status g.bit ?_ ?_ ?_
  · cases g <;> decide
  · cases g <;> decide
  · revert h
    cases f <;> cases g <;> decide

/-- A failure clears the flag of its unit (R255). -/
theorem valid_raise_same {c : Failing} {f : ValidFlag} (h : c.flag = some f) (k : ErrKind) (pos : Nat) (s : State) :
    (raise c k pos s).valid f = false := by
  obtain ⟨-, -, hf, -⟩ := statusFail_bits f s.status
  simpa [State.valid, h] using hf

/-- A failure keeps the flags of the other units (R255). -/
theorem valid_raise_other {c : Failing} {g : ValidFlag} (h : c.flag ≠ some g) (k : ErrKind) (pos : Nat) (s : State) :
    (raise c k pos s).valid g = s.valid g := by
  have hbit : g.bit < 8 ∧ g.bit ≠ 0 ∧ g.bit ≠ 1 := by cases g <;> decide
  unfold State.valid
  rw [raise_status]
  cases hc : c.flag with
  | none => exact (statusFail_none_bits s.status).2.2 g.bit hbit.1 hbit.2.1 hbit.2.2
  | some f =>
    refine statusFail_other f s.status g.bit hbit.2.1 hbit.2.2 ?_
    rw [hc] at h
    revert h
    cases f <;> cases g <;> decide

/-! ### MessageDecoder -/

/-- Another unit's success keeps the decoder's results. -/
theorem State.decodeOk.succeed {s : State} (h : s.decodeOk) (hn : s.noMsgdec) {f : ValidFlag} (hf : f ≠ .decv) :
    (succeed f s).decodeOk := by
  have hv := valid_succeed_other hf s
  obtain ⟨hset, hclear, hcnt⟩ := h
  exact ⟨fun hd => hset (hv.symm.trans hd), fun hd => hclear (hv.symm.trans hd), fun _ => hcnt hn⟩

/-- Another unit's failure keeps them. -/
theorem State.decodeOk.raise {s : State} (h : s.decodeOk) (hn : s.noMsgdec) {c : Failing} (hc : c.flag ≠ some .decv)
    (k : ErrKind) (pos : Nat) : (raise c k pos s).decodeOk := by
  have hv := valid_raise_other hc k pos s
  obtain ⟨hset, hclear, hcnt⟩ := h
  cases c with
  | msgdec last cnt => exact absurd rfl hc
  | _ => exact ⟨fun hd => hset (hv.symm.trans hd), fun hd => hclear (hv.symm.trans hd), fun _ => hcnt hn⟩

/-- A failing MSGDEC leaves zero results, and the count of its trace (R258). -/
theorem decodeOk_raise_msgdec {s : State} {cnt : Nat} (hcnt : cnt = s.trace.length) (last : Nat) (k : ErrKind) (pos : Nat) :
    (raise (.msgdec last cnt) k pos s).decodeOk := by
  have hv := valid_raise_same (c := .msgdec last cnt) rfl k pos s
  exact ⟨fun hd => absurd (hv.symm.trans hd) (by decide), fun _ => ⟨rfl, rfl, rfl, rfl, rfl, rfl, rfl, rfl, rfl⟩, fun _ => hcnt⟩

/-- A successful MSGDEC leaves the results of an accepted header and token (R170). -/
theorem decodeOk_finishMsgdec {s : State} {c : Captured} {w : WalkState} {bytes : List Byte} (hver : c.ver = 1#2)
    (htkl : c.tkl.toNat ≤ 8) (htoken : c.token.length = c.tkl.toNat) (hbytes : bytes.length = s.rxLen - w.cur)
    (hcnt : w.cnt = w.trace.length) : (finishMsgdec c w bytes s).decodeOk := by
  refine ⟨fun _ => ⟨hver, htkl, hbytes, fun i hi hge => ?_⟩, fun hd => ?_, fun _ => hcnt⟩
  · exact (pad8_getElem c.token i hi).trans (List.getD_eq_default _ _ (htoken.trans_le hge))
  · exact absurd ((valid_succeed_same .decv _).symm.trans hd) (by decide)

/-! ### MessageEncoder -/

/-- Another unit's success keeps the encoder's results. -/
theorem State.encodeOk.succeed {s : State} (h : s.encodeOk) (hn : s.noMsgenc) {f : ValidFlag} (hf : f ≠ .encv) :
    (succeed f s).encodeOk := by
  have hv := valid_succeed_other hf s
  obtain ⟨hset, hclear⟩ := h
  exact ⟨fun hd _ => hset (hv.symm.trans hd) hn, fun hd => hclear (hv.symm.trans hd)⟩

/-- Another unit's failure keeps them. -/
theorem State.encodeOk.raise {s : State} (h : s.encodeOk) (hn : s.noMsgenc) {c : Failing} (hc : c.flag ≠ some .encv)
    (k : ErrKind) (pos : Nat) : (raise c k pos s).encodeOk := by
  have hv := valid_raise_other hc k pos s
  obtain ⟨hset, hclear⟩ := h
  cases c with
  | msgenc => exact absurd rfl hc
  | _ => exact ⟨fun hd _ => hset (hv.symm.trans hd) hn, fun hd => hclear (hv.symm.trans hd)⟩

/-- A failing MSGENC leaves zero results (R257). -/
theorem encodeOk_raise_msgenc (k : ErrKind) (pos : Nat) (s : State) : (raise .msgenc k pos s).encodeOk := by
  have hv := valid_raise_same (c := .msgenc) rfl k pos s
  exact ⟨fun hd => absurd (hv.symm.trans hd) (by decide), fun _ => ⟨rfl, rfl, rfl⟩⟩

/-- A successful MSGENC leaves a packet that is written and carries the message id (R158). -/
theorem encodeOk_finishMsgenc {s : State} {n : Nat} (h4 : 4 ≤ n) (hwritten : ∀ i, i < n → s.tx.read i ≠ none)
    (hid : s.tx.read 2 = some (highByte s.midSrc) ∧ s.tx.read 3 = some (lowByte s.midSrc)) : (finishMsgenc n s).encodeOk :=
  ⟨fun _ _ => ⟨h4, hwritten, hid⟩, fun hd => absurd ((valid_succeed_same .encv _).symm.trans hd) (by decide)⟩

/-- A packet begins with its header (R152). -/
theorem packetBytes_header {tkl : BitVec 4} {mid : BitVec 16} {token path p : List Byte}
    (h : packetBytes tkl mid token path = some p) : ∃ rest, p = encode (.gethdr tkl mid) ++ rest := by
  unfold packetBytes at h
  split at h
  · rename_i opts _
    exact ⟨token ++ opts, by simpa using (Option.some.inj h).symm⟩
  · simp at h

/-! ### UvarCodec and StatusFormatter -/

/-- A success of the encoder or the decoder keeps UvarCodec's and StatusFormatter's results. -/
theorem State.uvarFormatOk.succeed {s : State} (h : s.uvarFormatOk) {f : ValidFlag} (hu : f ≠ .uvv) (hf : f ≠ .fmtv) :
    (succeed f s).uvarFormatOk := by
  have huv := valid_succeed_other hu s
  have hfv := valid_succeed_other hf s
  obtain ⟨hlen, huvar, hset, hclear⟩ := h
  exact ⟨hlen, fun hd => huvar (huv.symm.trans hd), fun hd => hset (hfv.symm.trans hd), fun hd => hclear (hfv.symm.trans hd)⟩

/-- UVENC or UVDEC succeeds with at most two extension bytes (R28). -/
theorem State.uvarFormatOk.succeed_uvv {s : State} (h : s.uvarFormatOk) (val : BitVec 32) (nib : BitVec 4) (cur : Nat)
    {ext : List Byte} (hx : ext.length ≤ 2) :
    State.uvarFormatOk (Machine.succeed .uvv
      { s with uvVal := val, uvNib := nib, uvCur := cur, uvExtLen := BitVec.ofNat 2 ext.length, uvExt := pad2 ext }) := by
  have hfv := valid_succeed_other (f := .uvv) (g := .fmtv) (by decide)
    { s with uvVal := val, uvNib := nib, uvCur := cur, uvExtLen := BitVec.ofNat 2 ext.length, uvExt := pad2 ext }
  have hlen : BitVec.ofNat 2 ext.length ≠ 3#2 := by
    generalize ext.length = n at hx
    interval_cases n <;> decide
  obtain ⟨-, -, hset, hclear⟩ := h
  exact ⟨hlen, fun hd => absurd ((valid_succeed_same .uvv _).symm.trans hd) (by decide), fun hd => hset (hfv.symm.trans hd),
    fun hd => hclear (hfv.symm.trans hd)⟩

/-- FMT leaves the string of class and detail (R210). -/
theorem State.uvarFormatOk.formatCode {s : State} (h : s.uvarFormatOk) (cls : BitVec 3) (detail : BitVec 5) :
    (formatCode cls detail s).uvarFormatOk := by
  have huv := valid_succeed_other (f := .fmtv) (g := .uvv) (by decide)
    { s with fmtClass := cls, fmtDetail := detail, fmtStr := formatString cls detail }
  obtain ⟨hlen, huvar, -, -⟩ := h
  exact ⟨hlen, fun hd => huvar (huv.symm.trans hd), fun _ => rfl,
    fun hd => absurd ((valid_succeed_same .fmtv _).symm.trans hd) (by decide)⟩

/-- No failure gives UV_EXTLEN the value 3, and none touches StatusFormatter (R256). -/
theorem State.uvarFormatOk.raise {s : State} (h : s.uvarFormatOk) (c : Failing) (k : ErrKind) (pos : Nat) :
    (raise c k pos s).uvarFormatOk := by
  have hfv := valid_raise_other (c := c) (g := .fmtv) (by cases c <;> simp [Failing.flag]) k pos s
  obtain ⟨hlen, huvar, hset, hclear⟩ := h
  have hformat : ((Machine.raise c k pos s).valid .fmtv = true → s.fmtStr = formatString s.fmtClass s.fmtDetail) ∧
      ((Machine.raise c k pos s).valid .fmtv = false → s.fmtClass = 0#3 ∧ s.fmtDetail = 0#5 ∧ s.fmtStr = #v[0, 0, 0, 0]) :=
    ⟨fun hd => hset (hfv.symm.trans hd), fun hd => hclear (hfv.symm.trans hd)⟩
  have hkept (hc : c.flag ≠ some .uvv) (hd : (Machine.raise c k pos s).valid .uvv = false) :
      s.uvExtLen = 0#2 ∧ s.uvExt = #v[0, 0] :=
    huvar ((valid_raise_other hc k pos s).symm.trans hd)
  cases c with
  | uvenc => exact ⟨by simp [zeroResults], fun _ => ⟨rfl, rfl⟩, hformat⟩
  | uvdec => exact ⟨by simp [zeroResults], fun _ => ⟨rfl, rfl⟩, hformat⟩
  | msgenc => exact ⟨hlen, hkept (by decide), hformat⟩
  | msgdec last cnt => exact ⟨hlen, hkept (by simp [Failing.flag]), hformat⟩
  | none => exact ⟨hlen, hkept (by decide), hformat⟩

/-! ### The four units together -/

/-- Every unit's results agree with its valid flag. -/
def State.resultsOk (s : State) : Prop := s.decodeOk ∧ s.encodeOk ∧ s.uvarFormatOk

/-- Results that are all 0 under valid flags that are all 0 agree (R57). -/
theorem resultsOk_reset : State.reset.resultsOk :=
  ⟨⟨fun hd => absurd hd (by decide), fun _ => ⟨rfl, rfl, rfl, rfl, rfl, rfl, rfl, rfl, rfl⟩, fun _ => rfl⟩,
   ⟨fun hd => absurd hd (by decide), fun _ => ⟨rfl, rfl, rfl⟩⟩,
   by decide, fun _ => ⟨rfl, rfl⟩, fun hd => absurd hd (by decide), fun _ => ⟨rfl, rfl, rfl⟩⟩

/-- A failure of any command but MSGDEC. -/
theorem State.resultsOk.raise {s : State} (h : s.resultsOk) (hdec : s.noMsgdec) (henc : s.noMsgenc) {c : Failing}
    (hc : c.flag ≠ some .decv) (k : ErrKind) (pos : Nat) : (raise c k pos s).resultsOk := by
  obtain ⟨hdecode, hencode, huvar⟩ := h
  refine ⟨hdecode.raise hdec hc k pos, ?_, huvar.raise c k pos⟩
  by_cases hm : c.flag = some .encv
  · cases c <;> simp only [Failing.flag, reduceCtorEq, Option.some.injEq] at hm
    exact encodeOk_raise_msgenc k pos s
  · exact hencode.raise henc hm k pos

/-- A failure of MSGDEC, with its trace. -/
theorem State.resultsOk.raise_msgdec {s : State} (h : s.resultsOk) (henc : s.noMsgenc) {cnt : Nat} {trace : List OptionEvent}
    (hcnt : cnt = trace.length) (last : Nat) (k : ErrKind) (pos : Nat) :
    State.resultsOk (Machine.raise (.msgdec last cnt) k pos { s with trace := trace }) := by
  obtain ⟨-, hencode, huvar⟩ := h
  exact ⟨decodeOk_raise_msgdec hcnt last k pos, State.encodeOk.raise (by exact hencode) henc (by simp [Failing.flag]) k pos,
    State.uvarFormatOk.raise (by exact huvar) _ k pos⟩

/-- A success of MSGDEC. -/
theorem State.resultsOk.finishMsgdec {s : State} (h : s.resultsOk) (henc : s.noMsgenc) {c : Captured} {w : WalkState}
    {bytes : List Byte} (hdecode : (finishMsgdec c w bytes s).decodeOk) : (finishMsgdec c w bytes s).resultsOk := by
  obtain ⟨-, hencode, huvar⟩ := h
  exact ⟨hdecode, State.encodeOk.succeed (by exact hencode) henc (by decide),
    State.uvarFormatOk.succeed (by exact huvar) (by decide) (by decide)⟩

/-- A success of MSGENC. -/
theorem State.resultsOk.finishMsgenc {s : State} (h : s.resultsOk) (hdec : s.noMsgdec) {n : Nat} {tx : Memory}
    (hencode : (finishMsgenc n { s with tx := tx }).encodeOk) : (finishMsgenc n { s with tx := tx }).resultsOk := by
  obtain ⟨hdecode, -, huvar⟩ := h
  exact ⟨State.decodeOk.succeed (by exact hdecode) hdec (by decide), hencode,
    State.uvarFormatOk.succeed (by exact huvar) (by decide) (by decide)⟩

/-- A success of UVENC or UVDEC. -/
theorem State.resultsOk.succeed_uvv {s : State} (h : s.resultsOk) (hdec : s.noMsgdec) (henc : s.noMsgenc) (val : BitVec 32)
    (nib : BitVec 4) (cur : Nat) {ext : List Byte} (hx : ext.length ≤ 2) :
    State.resultsOk (succeed .uvv
      { s with uvVal := val, uvNib := nib, uvCur := cur, uvExtLen := BitVec.ofNat 2 ext.length, uvExt := pad2 ext }) := by
  obtain ⟨hdecode, hencode, huvar⟩ := h
  exact ⟨State.decodeOk.succeed (by exact hdecode) hdec (by decide), State.encodeOk.succeed (by exact hencode) henc (by decide),
    huvar.succeed_uvv val nib cur hx⟩

/-- A success of FMT. -/
theorem State.resultsOk.formatCode {s : State} (h : s.resultsOk) (hdec : s.noMsgdec) (henc : s.noMsgenc) (cls : BitVec 3)
    (detail : BitVec 5) : (formatCode cls detail s).resultsOk := by
  obtain ⟨hdecode, hencode, huvar⟩ := h
  exact ⟨State.decodeOk.succeed (by exact hdecode) hdec (by decide), State.encodeOk.succeed (by exact hencode) henc (by decide),
    huvar.formatCode cls detail⟩

/-! ### Host transactions -/

/-- The extension bytes UvarEncode gives are at most two (R130). -/
theorem uvarEncode_ext_length {n : Nat} {nib : Nibble} {ext : List Byte} (h : uvarEncode n = some (nib, ext)) :
    ext.length ≤ 2 := by
  rcases uvarEncode_cases h with ⟨-, -, -, rfl⟩ | ⟨-, -, -, e, rfl, -⟩ | ⟨-, -, -, a, b, rfl, -⟩ <;> simp

/-- UvarDecode consumes at most two bytes (R131). -/
theorem uvarDecode_cur_le {nib : Nibble} {rd : Nat → Byte} {c fin n c' : Nat} (h : uvarDecode nib rd c fin = .ok (n, c')) :
    c' - c ≤ 2 := by
  rcases uvarDecode_cases h with ⟨-, -, -, rfl⟩ | ⟨-, -, -, rfl⟩ | ⟨-, -, -, rfl⟩ <;> omega

/-- A command keeps the results in agreement. -/
theorem State.resultsOk.cmd {s t : State} (h : s.resultsOk) (hdec : s.noMsgdec) (henc : s.noMsgenc) (hc : CmdEffect s t) :
    t.resultsOk := by
  cases hc with
  | uvenc hu =>
    rcases hu with rfl | ⟨nib, ext, he, rfl⟩
    · exact h.raise hdec henc (by decide) _ _
    · exact h.succeed_uvv hdec henc s.uvVal nib s.uvCur (uvarEncode_ext_length he)
  | uvdec hu =>
    cases hu with
    | bad _ ht => exact ht ▸ h.raise hdec henc (by decide) _ _
    | fails k _ _ ht => exact ht ▸ h.raise hdec henc (by decide) _ _
    | ends v c _ hd ht =>
      exact ht ▸ h.succeed_uvv hdec henc _ s.uvNib c (by simpa using uvarDecode_cur_le hd)
  | msgenc hm =>
    cases hm with
    | bad _ ht => exact ht ▸ h.raise hdec henc (by decide) _ _
    | ends p _ hp _ ht =>
      obtain ⟨rest, hrest⟩ := packetBytes_header hp
      have hwritten := Memory.written_writeBytes (m := s.tx) (a := 0) (fun i hi => absurd hi (Nat.not_lt_zero i)) p
      rw [Nat.zero_add] at hwritten
      have hid := Memory.read_messageId s.tx s.encTkl s.midSrc rest
      rw [← hrest] at hid
      exact ht ▸ h.finishMsgenc hdec (encodeOk_finishMsgenc (by simp [hrest, encode]) hwritten hid)
  | msgdec _ hm =>
    cases hm with
    | bad _ ht => exact ht ▸ h.raise_msgdec henc rfl _ _ _
    | fails k pos w _ hw _ _ ht => exact ht ▸ h.raise_msgdec henc hw _ _ _
    | ends w _ hv hk h4 hw ht =>
      have hok := walkOptions_ok s.rxByte s.rxLen s.rxLen
        { cur := 4 + (tklOf (s.rxByte 0)).toNat, last := 0, cnt := 0, trace := [] } h4 rfl
      rw [← walkFrom, hw] at hok
      exact ht ▸ h.finishMsgdec henc (decodeOk_finishMsgdec hv hk (by simp) (by simp) hok.2.2)
  | fmt ht => exact ht ▸ h.formatCode hdec henc _ _
  | clear ht =>
    obtain ⟨hdecode, -, huvar⟩ := resultsOk_reset
    have hencode : (clearedRegisters s).encodeOk :=
      ⟨fun hd => absurd (show State.reset.valid .encv = true from hd) (by decide), fun _ => ⟨rfl, rfl, rfl⟩⟩
    exact ht ▸ ⟨hdecode, hencode, huvar⟩
  | badcmd ht => exact ht ▸ h.raise hdec henc (by decide) _ _

/-- A host transaction keeps the results in agreement: the host writes no result register, and no byte of TXBUF. -/
theorem State.resultsOk.txn {s t : State} (h : s.resultsOk) (he : s.engine = .idle) (hx : TxnEffect s t) : t.resultsOk := by
  have hdec : s.noMsgdec := by simp [State.noMsgdec, he]
  have henc : s.noMsgenc := by simp [State.noMsgenc, he]
  cases hx with
  | cmd v hc => exact State.resultsOk.cmd (s := { s with reply := none, cmd := v }) h hdec henc hc
  | read r ht => exact ht ▸ h
  | reg no v ht =>
    rw [ht, writeRegister_eq]
    exact h
  | buf id idx b ht =>
    rw [ht, writeBuffer_eq]
    exact h
  | reset ht => exact ht ▸ resultsOk_reset

/-! ### Running commands -/

/-- A step of UVDEC keeps the results in agreement. -/
theorem UvRun.Step.resultsOk {u : UvRun} {s t : State} (hstep : u.Step s t) (h : s.resultsOk) (he : s.engine = .uvdec u) :
    t.resultsOk := by
  have hdec : s.noMsgdec := by simp [State.noMsgdec, he]
  have henc : s.noMsgenc := by simp [State.noMsgenc, he]
  cases hstep with
  | awaits wide _ _ ht =>
    obtain ⟨⟨hset, hclear, hcnt⟩, ⟨hpacket, hnone⟩, huvar⟩ := h
    exact ht ▸ ⟨⟨hset, hclear, fun _ => hcnt hdec⟩, ⟨fun hd _ => hpacket hd henc, hnone⟩, huvar⟩
  | ends value ext hx ht =>
    refine ht ▸ h.succeed_uvv hdec henc _ s.uvNib _ ?_
    rcases hx with ⟨-, hx⟩ | ⟨wide, -, hx⟩
    · omega
    · cases wide <;> simp [hx, extWidth]
  | fails k ht => exact ht ▸ h.raise hdec henc (by decide) _ _

/-- A step of MSGENC keeps the results in agreement: TXBUF is spoken of when it ends. -/
theorem EncRun.Step.resultsOk {e : EncRun} {s t : State} (hstep : e.Step s t) (hok : e.ok s) (h : s.resultsOk)
    (he : s.engine = .msgenc e) : t.resultsOk := by
  have hdec : s.noMsgdec := by simp [State.noMsgdec, he]
  cases hstep with
  | emits bs e' _ _ _ _ _ ht =>
    obtain ⟨⟨hset, hclear, hcnt⟩, ⟨-, hnone⟩, huvar⟩ := h
    exact ht ▸ ⟨⟨hset, hclear, fun _ => hcnt hdec⟩, ⟨fun _ hn => hn.elim, hnone⟩, huvar⟩
  | ends hs ht =>
    obtain ⟨-, -, -, hwritten, -, hlater⟩ := hok
    obtain ⟨h4, hid⟩ := hlater (by simp [hs])
    exact ht ▸ h.finishMsgenc hdec (encodeOk_finishMsgenc h4 hwritten hid)

/-- A step of MSGDEC keeps the results in agreement: what it captured was accepted, and it counts what it traces. -/
theorem DecRun.Step.resultsOk {d : DecRun} {s t : State} (hstep : d.Step s t) (hok : d.ok s) (h : s.resultsOk)
    (he : s.engine = .msgdec d) : t.resultsOk := by
  have henc : s.noMsgenc := by simp [State.noMsgenc, he]
  obtain ⟨-, hcount, -, hheader, htoken⟩ := hok
  cases hstep with
  | goes d' _ ht =>
    obtain ⟨⟨hset, hclear, -⟩, ⟨hpacket, hnone⟩, huvar⟩ := h
    exact ht ▸ ⟨⟨hset, hclear, fun hn => hn.elim⟩, ⟨fun hd _ => hpacket hd henc, hnone⟩, huvar⟩
  | accepts _ _ ht =>
    obtain ⟨⟨hset, hclear, -⟩, ⟨hpacket, hnone⟩, huvar⟩ := h
    exact ht ▸ ⟨⟨hset, hclear, fun hn => hn.elim⟩, ⟨fun hd _ => hpacket hd henc, hnone⟩, huvar⟩
  | fails k pos _ ht => exact ht ▸ h.raise_msgdec (trace := s.trace) henc hcount _ _ _
  | ends bytes hs hb ht =>
    obtain ⟨hver, htkl⟩ := hheader (by simp [hs])
    obtain ⟨htok, -⟩ := htoken (by simp [hs]) (by simp [hs])
    exact ht ▸ h.finishMsgdec henc (decodeOk_finishMsgdec hver htkl htok hb hcount)

/-- Settles O48: each command's end leaves its own unit's results right and keeps the others'. -/
theorem stepKeepsResultsValid : Obligations.StepKeepsResultsValid := by
  intro s t htransient hdecode hencode huvar hstep
  have h : s.resultsOk := ⟨hdecode, hencode, huvar⟩
  show t.resultsOk
  cases step_stageEffect hstep with
  | stays _ ht => exact ht ▸ h
  | txn rest he hx => exact State.resultsOk.txn (s := { s with host := rest }) h he hx
  | uvdec u he hu => exact hu.resultsOk h he
  | msgenc e he hm =>
    simp only [State.transientOk, he] at htransient
    exact hm.resultsOk htransient h he
  | msgdec d he hm =>
    simp only [State.transientOk, he] at htransient
    exact hm.resultsOk htransient h he
  | fmt cls detail he ht =>
    exact ht ▸ h.formatCode (by simp [State.noMsgdec, he]) (by simp [State.noMsgenc, he]) cls detail

end Sys2Proof.Machine

namespace Sys2Proof.Machine

/-! ## Reset -/

/-- Settles O1: each register number, each array and each buffer read off the reset state (R57). -/
theorem resetStateIsAllZero : Obligations.ResetStateIsAllZero := by
  refine ⟨?registers, ?arrays, ?buffers, rfl, rfl⟩
  case registers =>
    intro no
    unfold readRegister
    split <;> rfl
  case arrays =>
    intro id idx h3 h7 hi
    interval_cases id
    all_goals
      simp only [capacity] at hi
      interval_cases idx <;> rfl
  case buffers =>
    intro id idx h2
    interval_cases id <;> rfl

/-- Settles O49: no command runs, the buffers and the trace are empty, and STATUS has no flag set. -/
theorem invariantsHoldAtReset : Obligations.InvariantsHoldAtReset := by
  refine ⟨?buffers, .of_zero rfl rfl rfl, trivial, ?widths, resultsOk_reset⟩
  case buffers => exact ⟨⟨rfl, rfl⟩, ⟨rfl, rfl⟩, rfl, rfl⟩
  case widths => exact ⟨by decide, by decide, by simp [State.reset], trivial⟩

end Sys2Proof.Machine

namespace Sys2Proof.Machine

/-! ## Reads inside the valid extents

A command's next state is computed from bytes below RXLEN or PATHLEN, and no command writes RXBUF or PATHBUF: so replacing
such a buffer by one that agrees on the valid extent carries over to the next state. -/

/-- A byte as it is read depends on what is written there. -/
theorem byteOr_congr {m m' : Memory} {i : Nat} (h : m'.read i = m.read i) (draw id : Nat) :
    byteOr m' draw id i = byteOr m draw id i := by
  simp only [byteOr, h]

/-- UVDEC answers what its effect says. -/
theorem UvdecEffect.exec {s t : State} (h : UvdecEffect s t) : exec .uvdec s = .next t := by
  cases h with
  | bad hl ht => simp [Machine.exec, execUvdec, hl, ht]
  | fails k hl hd ht => simp [Machine.exec, execUvdec, hl, hd, ht]
  | ends v c hl hd ht => simp [Machine.exec, execUvdec, hl, hd, ht]

/-- MSGENC answers what its effect says. -/
theorem MsgencEffect.exec {s t : State} (h : MsgencEffect s t) : exec .msgenc s = .next t := by
  cases h with
  | bad hl ht => simp [Machine.exec, execMsgenc, hl, ht]
  | ends p hl hp hm ht => simp [Machine.exec, execMsgenc, hl, hp, hm, ht]

/-- MSGDEC of a legal RXLEN decodes the datagram (R170). -/
theorem exec_msgdec_of_le {s : State} (h : s.rxLen ≤ s.cfg.rxMax) : exec .msgdec s = .next (decodeDatagram s) :=
  if_pos h

/-- MSGDEC of an illegal RXLEN fails (R171). -/
theorem exec_msgdec_of_not_le {s : State} (h : ¬ s.rxLen ≤ s.cfg.rxMax) :
    exec .msgdec s = .next (raise (.msgdec 0 0) .badParam 0 { s with trace := [] }) :=
  if_neg h

section Rx

variable {s : State} {m : Memory} (hagree : ∀ a, a < s.rxLen → m.read a = s.rx.read a)
include hagree

/-- Below RXLEN a command reads the same bytes. -/
theorem rxByte_withRx (i : Nat) (hi : i < s.rxLen) : State.rxByte { s with rx := m } i = s.rxByte i :=
  byteOr_congr (hagree i hi) _ _

/-- A run of bytes inside RXLEN is the same. -/
theorem bytesFrom_withRx {c n : Nat} (hn : n = 0 ∨ c + n ≤ s.rxLen) :
    bytesFrom (State.rxByte { s with rx := m }) c n = bytesFrom s.rxByte c n :=
  bytesFrom_congr fun i hc hi => rxByte_withRx hagree i (by omega)

/-- UVDEC's effect speaks of no byte at or beyond RXLEN. -/
theorem UvdecEffect.withRx {t : State} (h : UvdecEffect s t) : UvdecEffect { s with rx := m } { t with rx := m } := by
  have hdecode := uvarDecode_congr (nib := s.uvNib) (c := s.uvCur) (rxByte_withRx hagree)
  cases h with
  | bad hl ht => exact .bad hl (by rw [ht]; rfl)
  | fails k hl hd ht => exact .fails k hl (hdecode.trans hd) (by rw [ht]; rfl)
  | ends v c hl hd ht =>
    have hcur : s.uvCur ≤ s.rxLen := by
      simp only [uvdecLegal, Bool.and_eq_true, decide_eq_true_eq] at hl
      exact hl.2
    obtain ⟨hle, hfin, -⟩ := uvarDecode_le hd hcur
    have hext := bytesFrom_withRx hagree (c := s.uvCur) (n := c - s.uvCur) (.inr (by omega))
    exact .ends v c hl (hdecode.trans hd) (by rw [hext, ht]; rfl)

/-- The option walk reads no byte at or beyond RXLEN. -/
theorem walkFrom_withRx (start : Nat) :
    walkFrom (State.rxByte { s with rx := m }) s.rxLen start = walkFrom s.rxByte s.rxLen start :=
  walkOptions_congr (rxByte_withRx hagree) _ _

/-- Decoding a datagram reads no byte at or beyond RXLEN (R63). -/
theorem decodeDatagram_withRx : decodeDatagram { s with rx := m } = { decodeDatagram s with rx := m } := by
  simp only [decodeDatagram]
  split
  · rfl
  · have hbyte (i : Nat) (hi : i < 4) := rxByte_withRx hagree i (by omega)
    rw [hbyte 0 (by omega), hbyte 1 (by omega), hbyte 2 (by omega), hbyte 3 (by omega), walkFrom_withRx hagree]
    split
    · rfl
    · rename_i hcheck
      obtain ⟨-, -, htkl⟩ := headerCheck_none hcheck
      split
      · rfl
      · rename_i w _
        rw [bytesFrom_withRx hagree (c := 4) (.inr (by omega)), bytesFrom_withRx hagree (c := w.cur) (by omega)]
        rfl

/-- MSGDEC reads no byte at or beyond RXLEN (R63, R196). -/
theorem exec_msgdec_withRx {t : State} (h : exec .msgdec s = .next t) :
    exec .msgdec { s with rx := m } = .next { t with rx := m } := by
  by_cases hlen : s.rxLen ≤ s.cfg.rxMax
  · rw [exec_msgdec_of_le hlen] at h
    rw [exec_msgdec_of_le (s := { s with rx := m }) hlen, decodeDatagram_withRx hagree, next_inj h]
  · rw [exec_msgdec_of_not_le hlen] at h
    rw [exec_msgdec_of_not_le (s := { s with rx := m }) hlen, ← next_inj h]
    rfl

end Rx

/-- The path is made of the bytes below PATHLEN. -/
theorem pathBytes_withPath {s : State} {m : Memory} (hagree : ∀ a, a < s.pathLen → m.read a = s.path.read a) :
    State.pathBytes { s with path := m } = s.pathBytes :=
  bytesFrom_congr fun i _ hi => byteOr_congr (hagree i (Nat.zero_add s.pathLen ▸ hi)) _ _

/-- MSGENC's effect speaks of no byte at or beyond PATHLEN. -/
theorem MsgencEffect.withPath {s t : State} {m : Memory} (hagree : ∀ a, a < s.pathLen → m.read a = s.path.read a)
    (h : MsgencEffect s t) : MsgencEffect { s with path := m } { t with path := m } := by
  cases h with
  | bad hl ht => exact .bad hl (by rw [ht]; rfl)
  | ends p hl hp hm ht => exact .ends p hl (by rw [pathBytes_withPath hagree]; exact hp) hm (by rw [ht]; rfl)

/-- Settles O21: each command's effect is carried over to the state with the other buffer. -/
theorem commandsReadInsideTheirBounds : Obligations.CommandsReadInsideTheirBounds := by
  intro s t m
  refine ⟨fun hagree => ⟨exec_msgdec_withRx hagree, fun h => ?uvdec⟩, fun hagree h => ?msgenc⟩
  case uvdec => exact ((uvdec_effect h).withRx hagree).exec
  case msgenc => exact ((msgenc_effect h).withPath hagree).exec

end Sys2Proof.Machine

namespace Sys2Proof.Machine

/-! ## The reference bus map -/

/-- Where each window ends before the later ones begin, every byte of a window stands at the window's offset plus its
index. -/
theorem windowTarget_of_mem {p : Config.Params} {ws : List (Nat × Nat)} {base id idx : Nat}
    (hrising : ws.Pairwise fun v w => v.1 + capacity p v.2 ≤ w.1) (hmem : (base, id) ∈ ws) (hidx : idx < capacity p id) :
    windowTarget p (base + idx) ws = .byte id idx := by
  induction ws with
  | nil => cases hmem
  | cons v ws ih =>
    obtain ⟨hfirst, hrest⟩ := List.pairwise_cons.mp hrising
    simp only [windowTarget]
    rcases List.mem_cons.mp hmem with rfl | hlater
    · rw [if_pos ⟨by omega, Nat.add_lt_add_left hidx base⟩, Nat.add_sub_cancel_left]
    · have hend := hfirst _ hlater
      rw [if_neg (by omega), ih hrest hlater]

/-- A window gives only indexes inside the capacity of its byte space. -/
theorem windowTarget_lt_capacity {p : Config.Params} {ws : List (Nat × Nat)} {off id idx : Nat}
    (h : windowTarget p off ws = .byte id idx) : idx < capacity p id := by
  induction ws with
  | nil => cases h
  | cons v ws ih =>
    simp only [windowTarget] at h
    split at h
    · obtain ⟨rfl, rfl⟩ := BusTarget.byte.inj h
      omega
    · exact ih h

/-- Under R8's bounds no window of R67's table reaches the next one. -/
theorem busWindows_rising {p : Config.Params} (hp : p.legal = true) :
    busWindows.Pairwise fun v w => v.1 + capacity p v.2 ≤ w.1 := by
  simp only [Config.Params.legal, Bool.and_eq_true, decide_eq_true_eq] at hp
  simp [busWindows, capacity]
  omega

/-- The windows stand above the registers. -/
theorem busWindows_base_ge {base id : Nat} (h : (base, id) ∈ busWindows) : 0x100 ≤ base := by
  have hall : ∀ w ∈ busWindows, 0x100 ≤ w.1 := by decide
  exact hall _ h

/-- Every byte space that has a byte has a window. -/
theorem exists_busWindow {p : Config.Params} {id idx : Nat} (h : idx < capacity p id) : ∃ base, (base, id) ∈ busWindows := by
  have hid : id ≤ 7 := by
    by_contra hgt
    rw [capacity] at h <;> omega
  interval_cases id <;> simp [busWindows]

/-- A register stands at four times its number. -/
theorem busTarget_register (p : Config.Params) (no : BitVec 6) : busTarget p (4 * no.toNat) = .register no := by
  have hno := no.isLt
  rw [busTarget, if_pos (by omega), if_pos (by omega), Nat.mul_div_cancel_left _ (by omega), BitVec.ofNat_toNat,
    BitVec.setWidth_eq]

/-- A byte of a window stands at the window's offset plus its index. -/
theorem busTarget_window {p : Config.Params} (hp : p.legal = true) {base id idx : Nat} (hmem : (base, id) ∈ busWindows)
    (hidx : idx < capacity p id) : busTarget p (base + idx) = .byte id idx := by
  have hbase := busWindows_base_ge hmem
  rw [busTarget, if_neg (by omega), windowTarget_of_mem (busWindows_rising hp) hmem hidx]

/-- A byte offset is inside the capacity of its byte space. -/
theorem busTarget_lt_capacity {p : Config.Params} {off id idx : Nat} (h : busTarget p off = .byte id idx) :
    idx < capacity p id := by
  unfold busTarget at h
  split at h
  · split at h <;> cases h
  · exact windowTarget_lt_capacity h

/-- A read of a hole returns 0 and changes nothing else. -/
theorem perform_busRead_hole {p : Config.Params} {off : Nat} (h : busTarget p off = .hole) (s : State) :
    perform (busRead p off) s = .next { s with reply := some 0 } := by
  rw [busRead, h]
  rfl

/-- A write to a hole is ignored. -/
theorem perform_busWrite_hole {p : Config.Params} {off : Nat} (h : busTarget p off = .hole) (v : Nat) (s : State) :
    perform (busWrite p off v) s = .next { s with reply := none } := by
  rw [busWrite, h]
  rfl

/-- Settles O57: the windows stand apart under legal parameters, and a hole goes to the reserved register 63. -/
theorem busMapReachesTheBlock : Obligations.BusMapReachesTheBlock := by
  intro p hp
  refine ⟨busTarget_register p, fun _ _ _ hmem hidx => busTarget_window hp hmem hidx, ?reached,
    fun _ _ _ => busTarget_lt_capacity, fun s _ v h => ⟨perform_busRead_hole h s, perform_busWrite_hole h v s⟩⟩
  case reached =>
    intro id idx hidx
    obtain ⟨base, hmem⟩ := exists_busWindow hidx
    exact ⟨base + idx, busTarget_window hp hmem hidx⟩

end Sys2Proof.Machine

namespace Sys2Proof.Machine

/-! # Encoding and decoding

Each slot has one decoder for its format. From an instruction: its packed fields are read back as they were. From the
bytes: the answer is a well-formed instruction of the slot with these bytes (`Encodes`). -/

/-! ## From an instruction to its bytes and back -/

/-- A value that is no command is decoded as itself (R119). -/
theorem decodeCmd_of_illegal {v : BitVec 8} (h : v.toNat = 0 ∨ 6 < v.toNat) : decodeCmd v = .badcmd v := by
  unfold decodeCmd
  split
  case h_7 => rfl
  all_goals omega

/-- A packed header word is read by its version, then by its token length (R92, R93). -/
theorem decodeHdr_pack (ver typ : BitVec 2) (tkl : BitVec 4) (code : BitVec 8) (mid : BitVec 16) :
    decodeHdr (packFirst ver typ tkl) code (highByte mid) (lowByte mid) =
      if ver = 1#2 then if 8 < tkl.toNat then .hdrBadtkl typ tkl code mid else .hdr typ tkl code mid
      else .hdrBadver ver typ tkl code mid := by
  simp only [decodeHdr, verOf_pack, typOf_pack, tklOf_pack, be16_highByte_lowByte]

/-- The header MSGENC emits is one of R94. -/
theorem isGetHdr_pack {tkl : BitVec 4} (h : tkl.toNat ≤ 8) : isGetHdr (packFirst 1#2 0#2 tkl) 1#8 = true := by
  simp [isGetHdr, verOf_pack, typOf_pack, tklOf_pack, h]

/-- A byte of two nibbles is read by the tests of R103. -/
theorem decodeOpth_join (dn ln : Nibble) :
    decodeOpth (joinNibbles dn ln) =
      if dn = 15#4 ∧ ln = 15#4 then .mark
      else if dn = 15#4 then .optDrsvd ln
      else if ln = 15#4 then .optLrsvd dn
      else .opt dn ln := by
  simp only [decodeOpth, join_eq_mark, hiNibble_join, loNibble_join]

/-- A nibble up to 12 is a literal (R98). -/
theorem decodeNibble_lit {nib : Nibble} (h : nib.toNat ≤ 12) : decodeNibble nib = .nibLit nib := by
  unfold decodeNibble
  split
  case h_4 => rfl
  all_goals omega

/-- The class of a packed code byte (R108). -/
theorem classOf_pack (cls : BitVec 3) (detail : BitVec 5) : classOf (packCode cls detail) = cls := by revert cls detail; decide

/-- Its detail. -/
theorem detailOf_pack (cls : BitVec 3) (detail : BitVec 5) : detailOf (packCode cls detail) = detail := by
  revert cls detail; decide

/-- A run is taken from the bytes that begin with it. -/
theorem takeRun_append (bytes rest : List Byte) (mk : List Byte → Instr) :
    takeRun bytes.length (bytes ++ rest) mk = .ok (mk bytes) rest := by
  simp [takeRun]

/-- Settles O59: constructor by constructor, each format reads its packed fields back, and well-formedness is what tells the
constructors of one slot apart. -/
theorem decodeOfEncodeIsTheInstruction : Obligations.DecodeOfEncodeIsTheInstruction := by
  intro i rest hwf hpayload
  cases i with
  | uvenc => rfl
  | uvdec => rfl
  | msgenc => rfl
  | msgdec => rfl
  | fmt => rfl
  | clear => rfl
  | badcmd v => simp [decode, slotOf, encode, decodeCmd_of_illegal (of_decide_eq_true hwf)]
  | hdr typ tkl code mid =>
    have htkl : ¬ 8 < tkl.toNat := Nat.not_lt.mpr (of_decide_eq_true hwf)
    simp [decode, slotOf, encode, decodeHdr_pack, htkl]
  | hdrBadver ver typ tkl code mid =>
    have hver : ver ≠ 1#2 := of_decide_eq_true hwf
    simp [decode, slotOf, encode, decodeHdr_pack, hver]
  | hdrBadtkl typ tkl code mid =>
    have htkl : 8 < tkl.toNat := of_decide_eq_true hwf
    simp [decode, slotOf, encode, decodeHdr_pack, htkl]
  | gethdr tkl mid =>
    simp [decode, slotOf, encode, isGetHdr_pack (of_decide_eq_true hwf), tklOf_pack, be16_highByte_lowByte]
  | mark => rfl
  | optDrsvd ln =>
    have hln : ln ≠ 15#4 := of_decide_eq_true hwf
    simp [decode, slotOf, encode, decodeOpth_join, hln]
  | optLrsvd dn =>
    have hdn : dn ≠ 15#4 := of_decide_eq_true hwf
    simp [decode, slotOf, encode, decodeOpth_join, hdn]
  | opt dn ln =>
    obtain ⟨hdn, hln⟩ : dn ≠ 15#4 ∧ ln ≠ 15#4 := of_decide_eq_true hwf
    simp [decode, slotOf, encode, decodeOpth_join, hdn, hln]
  | nibLit nib =>
    simp [decode, slotOf, encode, hiNibble_join, loNibble_join, decodeNibble_lit (of_decide_eq_true hwf)]
  | nibExt8 => rfl
  | nibExt16 => rfl
  | nibRsvd => rfl
  | ext8 e => rfl
  | ext16 h l => rfl
  | code cls detail => simp [decode, slotOf, encode, classOf_pack, detailOf_pack]
  | token bytes =>
    have hlen : bytes.length ≤ 8 := of_decide_eq_true hwf
    simp [decode, slotOf, encode, takeRun_append, hlen]
  | value bytes =>
    have hlen : bytes.length ≤ 65804 := of_decide_eq_true hwf
    simp [decode, slotOf, encode, takeRun_append, hlen]
  | payload bytes => simp [decode, slotOf, encode, hpayload rfl]

/-! ## From bytes to an instruction and back -/

/-- `i` is a well-formed instruction of `slot` with the bytes `bs`. -/
def Encodes (i : Instr) (slot : Slot) (bs : List Byte) : Prop := i.wf = true ∧ slotOf i = slot ∧ encode i = bs

/-- With bytes that follow. -/
theorem Encodes.append {i : Instr} {slot : Slot} {bs : List Byte} (h : Encodes i slot bs) (rest : List Byte) :
    i.wf = true ∧ slotOf i = slot ∧ encode i ++ rest = bs ++ rest := by
  obtain ⟨hwf, hslot, rfl⟩ := h
  exact ⟨hwf, hslot, rfl⟩

/-- A first header byte is its three fields packed (R92). -/
theorem pack_fields (b : Byte) : packFirst (verOf b) (typOf b) (tklOf b) = b := by revert b; decide

/-- A code byte is its class and its detail packed (R108). -/
theorem pack_class_detail (c : Byte) : packCode (classOf c) (detailOf c) = c := by revert c; decide

/-- CMD8: every value is a command or illegal (R118, R119). -/
theorem decodeCmd_encodes (v : BitVec 8) : Encodes (decodeCmd v) .cmd [v] := by
  unfold Encodes
  revert v
  decide

/-- HDR32: every word is one of the three kinds of header (R92, R93). -/
theorem decodeHdr_encodes (b0 b1 b2 b3 : Byte) : Encodes (decodeHdr b0 b1 b2 b3) .header [b0, b1, b2, b3] := by
  have hpack := pack_fields b0
  unfold decodeHdr
  split
  · rename_i hver
    rw [hver] at hpack
    split
    · rename_i htkl
      exact ⟨decide_eq_true htkl, rfl, by simp [encode, hpack, highByte_be16, lowByte_be16]⟩
    · rename_i htkl
      exact ⟨decide_eq_true (Nat.not_lt.mp htkl), rfl, by simp [encode, hpack, highByte_be16, lowByte_be16]⟩
  · rename_i hver
    exact ⟨decide_eq_true hver, rfl, by simp [encode, hpack, highByte_be16, lowByte_be16]⟩

/-- A word of R94's shape is the header MSGENC emits. -/
theorem gethdr_encodes {b0 b1 : Byte} (h : isGetHdr b0 b1 = true) (b2 b3 : Byte) :
    Encodes (.gethdr (tklOf b0) (be16 b2 b3)) .getHeader [b0, b1, b2, b3] := by
  simp only [isGetHdr, Bool.and_eq_true, decide_eq_true_eq] at h
  obtain ⟨⟨⟨hver, htyp⟩, htkl⟩, rfl⟩ := h
  have hpack := pack_fields b0
  rw [hver, htyp] at hpack
  exact ⟨decide_eq_true htkl, rfl, by simp [encode, hpack, highByte_be16, lowByte_be16]⟩

/-- OPTH8: every byte is MARK, an option header, or reserved in one of two ways (R103). -/
theorem decodeOpth_encodes (b : Byte) : Encodes (decodeOpth b) .optionHead [b] := by
  have hjoin := join_nibbles b
  unfold decodeOpth
  split
  · rename_i hmark
    exact ⟨rfl, rfl, by rw [hmark]; rfl⟩
  · rename_i hmark
    split
    · rename_i hhi
      have hlo : loNibble b ≠ 15#4 := fun hlo => hmark (by rw [← hjoin, hhi, hlo]; rfl)
      rw [hhi] at hjoin
      exact ⟨decide_eq_true hlo, rfl, by rw [encode, hjoin]⟩
    · rename_i hhi
      split
      · rename_i hlo
        rw [hlo] at hjoin
        exact ⟨decide_eq_true hhi, rfl, by rw [encode, hjoin]⟩
      · rename_i hlo
        exact ⟨decide_eq_true ⟨hhi, hlo⟩, rfl, by rw [encode, hjoin]⟩

/-- NIB4: every nibble has its class (R98). -/
theorem decodeNibble_encodes {b : Byte} (h : hiNibble b = 0#4) : Encodes (decodeNibble (loNibble b)) .nibble [b] := by
  unfold Encodes
  revert b
  decide

/-- A run that is taken has the bytes asked for, and the rest follows it. -/
theorem takeRun_ok {n : Nat} {bs rest : List Byte} {mk : List Byte → Instr} {i : Instr} (h : takeRun n bs mk = .ok i rest) :
    ∃ bytes, bytes.length = n ∧ i = mk bytes ∧ bytes ++ rest = bs := by
  unfold takeRun at h
  split at h
  · cases h
  · cases h
    exact ⟨bs.take n, by simp; omega, rfl, List.take_append_drop n bs⟩

/-- Settles O60: slot by slot, the decoder of the slot's format answers an instruction with the bytes it read. -/
theorem encodeOfDecodeIsTheBytes : Obligations.EncodeOfDecodeIsTheBytes := by
  intro slot bs rest i h
  cases slot with
  | cmd =>
    simp only [decode] at h
    split at h <;> cases h
    exact (decodeCmd_encodes _).append rest
  | header =>
    simp only [decode] at h
    split at h <;> cases h
    exact (decodeHdr_encodes _ _ _ _).append rest
  | getHeader =>
    simp only [decode] at h
    split at h
    · split at h <;> cases h
      exact (gethdr_encodes ‹_› _ _).append rest
    · cases h
  | optionHead =>
    simp only [decode] at h
    split at h <;> cases h
    exact (decodeOpth_encodes _).append rest
  | nibble =>
    simp only [decode] at h
    split at h
    · split at h <;> cases h
      exact (decodeNibble_encodes ‹_›).append rest
    · cases h
  | ext8 =>
    simp only [decode] at h
    split at h <;> cases h
    exact ⟨rfl, rfl, rfl⟩
  | ext16 =>
    simp only [decode] at h
    split at h <;> cases h
    exact ⟨rfl, rfl, rfl⟩
  | code =>
    simp only [decode] at h
    split at h <;> cases h
    exact ⟨rfl, rfl, by simp [encode, pack_class_detail]⟩
  | token n =>
    simp only [decode] at h
    split at h
    · cases h
    · obtain ⟨bytes, rfl, rfl, hbs⟩ := takeRun_ok h
      exact ⟨decide_eq_true (Nat.not_lt.mp ‹_›), rfl, hbs⟩
  | value n =>
    simp only [decode] at h
    split at h
    · cases h
    · obtain ⟨bytes, rfl, rfl, hbs⟩ := takeRun_ok h
      exact ⟨decide_eq_true (Nat.not_lt.mp ‹_›), rfl, hbs⟩
  | payload =>
    cases h
    exact ⟨rfl, rfl, by simp [encode]⟩

/-! ## Words and illegal commands -/

/-- Settles O58: nine closed words, each evaluated. -/
theorem wordsDecodeToTheirInstructions : Obligations.WordsDecodeToTheirInstructions := by
  unfold Obligations.WordsDecodeToTheirInstructions
  decide

/-- Settles O26: BADCMD raises BadCommand, which has no unit: no flag is cleared and no result zeroed. -/
theorem badCommandChangesOnlyTheReport : Obligations.BadCommandChangesOnlyTheReport := by
  intro v s hv
  obtain ⟨hdone, herr, -⟩ := statusFail_none_bits s.status
  exact ⟨decodeCmd_of_illegal hv, raise .none .badCommand 0 s, rfl, hdone, herr, rfl, rfl,
    fun f => valid_raise_other (by simp [Failing.flag]) _ _ _, rfl⟩

end Sys2Proof.Machine

namespace Sys2Proof.Machine

/-! # The packet of MSGENC, received

A well-formed datagram is decoded to its own fields, and a request is one. -/

/-! ## The option walk over encoded options -/

/-- Bytes read as a run from index 0 stand there, inside the extent they were read from. -/
theorem HoldsAt.of_bytesFrom {rd : Nat → Byte} {len : Nat} {bs : List Byte} (h : bytesFrom rd 0 len = bs) :
    len = bs.length ∧ HoldsAt rd 0 len bs := by
  have hlen : len = bs.length := by rw [← h, bytesFrom_length]
  exact ⟨hlen, by rw [← hlen, h], by omega⟩

/-- UvarDecode reads back what UvarEncode gave (R132). -/
theorem uvarDecode_of_uvarEncode {n : Nat} {nib : Nibble} {ext : List Byte} {rd : Nat → Byte} {c fin : Nat}
    (h : uvarEncode n = some (nib, ext)) (hext : HoldsAt rd c fin ext) : uvarDecode nib rd c fin = .ok (n, c + ext.length) := by
  rcases uvarEncode_cases h with ⟨-, rfl, hlit, rfl⟩ | ⟨-, -, rfl, e, rfl, rfl⟩ | ⟨-, -, rfl, a, b, rfl, rfl⟩
  · simp [uvarDecode, hlit]
  · obtain ⟨rfl, hlt, -⟩ := hext.cons
    have hfit : ¬ fin - c < 1 := by omega
    simp [uvarDecode, nibClass, hfit]
  · obtain ⟨rfl, -, hnext⟩ := hext.cons
    obtain ⟨rfl, hlt, -⟩ := hnext.cons
    have hfit : ¬ fin - c < 2 := by omega
    simp [uvarDecode, nibClass, hfit]

/-- UvarEncode gives no reserved nibble (R130). -/
theorem uvarEncode_nibble_ne {n : Nat} {nib : Nibble} {ext : List Byte} (h : uvarEncode n = some (nib, ext)) : nib ≠ 15#4 := by
  rcases uvarEncode_cases h with ⟨hn, hnib, -⟩ | ⟨-, -, rfl, -⟩ | ⟨-, -, rfl, -⟩
  · rintro rfl
    simp at hnib
    omega
  · decide
  · decide

/-- A well-formed option has bytes (R96, R100). -/
theorem optionItem_of_wf {o : Opt} (h : o.wf = true) :
    ∃ dn dext ln lext, uvarEncode o.delta = some (dn, dext) ∧ uvarEncode o.value.length = some (ln, lext) ∧
      (optionItem o.delta o.value).getD [] = joinNibbles dn ln :: (dext ++ lext ++ o.value) := by
  simp only [Opt.wf, Bool.and_eq_true, decide_eq_true_eq] at h
  obtain ⟨dn, dext, hd⟩ := uvarEncode_isSome h.1
  obtain ⟨ln, lext, hl⟩ := uvarEncode_isSome h.2
  exact ⟨dn, dext, ln, lext, hd, hl, by simp [optionItem, hd, hl]⟩

/-- What a walk has after the options `os` (R44, R102, R184 to R186). -/
def WalkState.after (w : WalkState) (os : List Opt) : WalkState where
  cur := w.cur + (optsBytes os).length
  last := optsLast w.last os
  cnt := w.cnt + os.length
  trace := w.trace ++ optsTrace w.cur w.last os

/-- No option leaves the walk where it is. -/
@[simp] theorem WalkState.after_nil (w : WalkState) : w.after [] = w := by
  simp [WalkState.after, optsBytes, optsLast, optsTrace]

/-- One option after another. -/
theorem WalkState.after_cons (w : WalkState) (o : Opt) (os : List Opt) : w.after (o :: os) = (w.after [o]).after os := by
  simp [WalkState.after, optsBytes, optsLast, optsTrace, Nat.add_assoc, Nat.add_comm 1]

/-- The walk accepts one well-formed option (R180 to R187). -/
theorem walkOptions_option {rd : Nat → Byte} {len : Nat} {o : Opt} (ho : o.wf = true) {w : WalkState}
    (h : HoldsAt rd w.cur len ((optionItem o.delta o.value).getD [])) (n : Nat) :
    walkOptions rd len (n + 1) w = walkOptions rd len n (w.after [o]) := by
  obtain ⟨dn, dext, ln, lext, hd, hl, hitem⟩ := optionItem_of_wf ho
  rw [hitem] at h
  obtain ⟨hhead, hlt, hmore⟩ := h.cons
  obtain ⟨hexts, hvalue⟩ := hmore.append
  obtain ⟨hdext, hlext⟩ := hexts.append
  have hmark : joinNibbles dn ln ≠ 0xFF#8 := fun hm => uvarEncode_nibble_ne hd ((join_eq_mark dn ln).mp hm).1
  have hfit : ¬ len - (w.cur + 1 + dext.length + lext.length) < o.value.length := by
    have := hvalue.2
    simp only [List.length_append] at this
    omega
  have hafter : w.after [o] =
      { cur := w.cur + 1 + dext.length + lext.length + o.value.length, last := w.last + o.delta, cnt := w.cnt + 1,
        trace := w.trace ++
          [{ num := w.last + o.delta, off := w.cur + 1 + dext.length + lext.length, length := o.value.length }] } := by
    simp [WalkState.after, optsBytes, optsLast, optsTrace, hitem]
    omega
  simp only [walkOptions, if_pos hlt, hhead, if_neg hmark, hiNibble_join, loNibble_join,
    uvarDecode_of_uvarEncode hd hdext, uvarDecode_of_uvarEncode hl hlext, if_neg hfit, hafter]

/-- The walk accepts well-formed options one after another. -/
theorem walkOptions_opts {rd : Nat → Byte} {len : Nat} {os : List Opt} (hos : os.all Opt.wf = true) {w : WalkState}
    (h : HoldsAt rd w.cur len (optsBytes os)) (n : Nat) :
    walkOptions rd len (n + os.length) w = walkOptions rd len n (w.after os) := by
  induction os generalizing w with
  | nil => simp
  | cons o os ih =>
    simp only [List.all_cons, Bool.and_eq_true] at hos
    obtain ⟨hhead, hrest⟩ := HoldsAt.append (as := (optionItem o.delta o.value).getD []) h
    have hcur : (w.after [o]).cur = w.cur + ((optionItem o.delta o.value).getD []).length := by
      simp [WalkState.after, optsBytes]
    rw [List.length_cons, ← Nat.add_assoc, walkOptions_option hos.1 hhead, ih hos.2 (hcur ▸ hrest), ← WalkState.after_cons]

/-- The walk ends at the end of the buffer, or past a MARK (R178, R179). -/
theorem walkOptions_tail {rd : Nat → Byte} {len : Nat} {payload : Option (List Byte)} {w : WalkState}
    (h : HoldsAt rd w.cur len (tailBytes payload)) (hend : w.cur + (tailBytes payload).length = len) (n : Nat) :
    walkOptions rd len (n + 1) w = .reached { w with cur := len - (payload.getD []).length } := by
  cases payload with
  | none =>
    obtain rfl : w.cur = len := hend
    simp [walkOptions]
  | some bytes =>
    obtain ⟨hmark, hlt, -⟩ := HoldsAt.cons h
    have hcur : len - bytes.length = w.cur + 1 := by
      simp only [tailBytes, List.length_cons] at hend
      omega
    simp [walkOptions, hlt, hmark, hcur]

/-- The payload stands at the end of the buffer (R188). -/
theorem HoldsAt.payload {rd : Nat → Byte} {c len : Nat} {payload : Option (List Byte)} (h : HoldsAt rd c len (tailBytes payload))
    (hend : c + (tailBytes payload).length = len) :
    bytesFrom rd (len - (payload.getD []).length) (payload.getD []).length = payload.getD [] := by
  cases payload with
  | none => rfl
  | some bytes =>
    obtain ⟨-, -, hbytes, -⟩ := HoldsAt.cons h
    have hcur : len - bytes.length = c + 1 := by
      simp only [tailBytes, List.length_cons] at hend
      omega
    simpa [hcur] using hbytes

/-- Every option has at least one byte (R187). -/
theorem length_le_optsBytes {os : List Opt} (hos : os.all Opt.wf = true) : os.length ≤ (optsBytes os).length := by
  induction os with
  | nil => exact Nat.zero_le _
  | cons o os ih =>
    simp only [List.all_cons, Bool.and_eq_true] at hos
    obtain ⟨dn, dext, ln, lext, -, -, hitem⟩ := optionItem_of_wf hos.1
    have hrest := ih hos.2
    simp only [optsBytes, hitem, List.length_cons, List.length_append] at hrest ⊢
    omega

/-- The walk over the options of a well-formed datagram, up to its payload (R178 to R188). -/
theorem walkFrom_opts {rd : Nat → Byte} {start len : Nat} {os : List Opt} {payload : Option (List Byte)}
    (hos : os.all Opt.wf = true) (h : HoldsAt rd start len (optsBytes os ++ tailBytes payload))
    (hend : start + (optsBytes os ++ tailBytes payload).length = len) (hstart : 0 < start) :
    walkFrom rd len start =
      .reached
        { cur := len - (payload.getD []).length, last := optsLast 0 os, cnt := os.length, trace := optsTrace start 0 os } := by
  obtain ⟨hopts, htail⟩ := h.append
  rw [List.length_append] at hend
  have hle := length_le_optsBytes hos
  have hfuel : len - os.length - 1 + 1 + os.length = len := by omega
  have hwalk := walkOptions_opts hos (w := { cur := start, last := 0, cnt := 0, trace := [] }) hopts (len - os.length - 1 + 1)
  rw [hfuel, walkOptions_tail (payload := payload) htail (by simp only [WalkState.after]; omega)] at hwalk
  simpa [walkFrom, WalkState.after] using hwalk

/-! ## A well-formed datagram -/

/-- The token length field holds the token's length (R95). -/
theorem Datagram.tkl_toNat {d : Datagram} (h : d.token.length ≤ 8) : d.tkl.toNat = d.token.length := by
  simp [Datagram.tkl]
  omega

/-- An accepted header passes the three checks (R173, R174, R176). -/
theorem headerCheck_eq_none {tkl : BitVec 4} {len : Nat} (htkl : tkl.toNat ≤ 8) (hlen : 4 + tkl.toNat ≤ len) :
    headerCheck 1#2 tkl len = none := by
  have hlong : ¬ 8 < tkl.toNat := by omega
  have hshort : ¬ len - 4 < tkl.toNat := by omega
  simp [headerCheck, hlong, hshort]

/-- A datagram of written bytes is read as they were written. -/
theorem State.holdsDatagram.datagram_eq {s : State} {bs : List Byte} (h : s.holdsDatagram bs) : s.datagram = bs := by
  obtain ⟨hlen, hread⟩ := h
  apply List.ext_getElem?
  intro i
  by_cases hi : i < bs.length
  · rw [State.datagram, bytesFrom_getElem? _ _ _ _ (by omega)]
    simp [State.rxByte, byteOr, hread i hi, hi]
  · rw [List.getElem?_eq_none (by simp [State.datagram]; omega), List.getElem?_eq_none (by omega)]

/-- A datagram at index 0: its header bytes, its token, and its options and payload after them (R90, R92). -/
theorem HoldsAt.datagram {rd : Nat → Byte} {len : Nat} {d : Datagram} (h : HoldsAt rd 0 len d.bytes) :
    (rd 0 = packFirst 1#2 d.typ d.tkl ∧ rd 1 = d.code ∧ rd 2 = highByte d.mid ∧ rd 3 = lowByte d.mid) ∧
    bytesFrom rd 4 d.token.length = d.token ∧
    HoldsAt rd (4 + d.token.length) len (optsBytes d.opts ++ tailBytes d.payload) := by
  rw [Datagram.bytes, List.append_assoc, List.append_assoc] at h
  obtain ⟨hheader, h⟩ := h.append
  obtain ⟨htoken, hrest⟩ := h.append
  obtain ⟨h0, -, hheader⟩ := HoldsAt.cons hheader
  obtain ⟨h1, -, hheader⟩ := hheader.cons
  obtain ⟨h2, -, hheader⟩ := hheader.cons
  obtain ⟨h3, -, -⟩ := hheader.cons
  exact ⟨⟨h0, h1, h2, h3⟩, htoken.1, hrest⟩

/-- A datagram's length, part by part. -/
theorem Datagram.bytes_length (d : Datagram) :
    d.bytes.length = 4 + d.token.length + (optsBytes d.opts ++ tailBytes d.payload).length := by
  simp [Datagram.bytes, encode]
  omega

/-- The payload is the last part of a datagram. -/
theorem payload_length_le (payload : Option (List Byte)) : (payload.getD []).length ≤ (tailBytes payload).length := by
  cases payload <;> simp [tailBytes]

/-- A well-formed datagram is decoded to its own fields, token, options and payload (R170, R175 to R188). -/
theorem decodeDatagram_of_bytes {s : State} {d : Datagram} (hwf : d.wf = true) (hd : s.datagram = d.bytes) :
    decodeDatagram s =
      succeed .decv
        { s with
          decVer := 1, decType := d.typ, decTkl := d.tkl, decCode := d.code, decMid := d.mid, decToken := pad8 d.token,
          payOff := d.bytes.length - (d.payload.getD []).length, payLen := (d.payload.getD []).length,
          payload := d.payload.getD [], optLast := BitVec.ofNat 32 (optsLast 0 d.opts), optCnt := d.opts.length,
          trace := optsTrace (4 + d.token.length) 0 d.opts } := by
  simp only [Datagram.wf, Bool.and_eq_true, decide_eq_true_eq] at hwf
  obtain ⟨htoken, hopts⟩ := hwf
  have htkl := Datagram.tkl_toNat htoken
  obtain ⟨hlen, hholds⟩ := HoldsAt.of_bytesFrom hd
  rw [← hlen]
  rw [Datagram.bytes_length] at hlen
  obtain ⟨⟨h0, h1, h2, h3⟩, htokenBytes, hrest⟩ := hholds.datagram
  have hpayload := hrest.append.2.payload (by rw [List.length_append] at hlen; omega)
  have hpayLen : s.rxLen - (s.rxLen - (d.payload.getD []).length) = (d.payload.getD []).length := by
    have := payload_length_le d.payload
    rw [List.length_append] at hlen
    omega
  have hheader : ¬ s.rxLen < 4 := by omega
  have hcheck : headerCheck 1#2 d.tkl s.rxLen = none := headerCheck_eq_none (by omega) (by omega)
  have hwalk := walkFrom_opts hopts hrest hlen.symm (by omega)
  simp only [decodeDatagram, if_neg hheader, h0, h1, h2, h3, verOf_pack, typOf_pack, tklOf_pack, be16_highByte_lowByte, hcheck,
    htkl, htokenBytes, hwalk, finishMsgdec, hpayLen, hpayload]
  rfl

/-! ## The request of a MSGENC -/

/-- The Uri-Path options of the segments, the previous option number being `prev` (R112, R156). -/
def uriPathOpts (prev : Nat) : List (List Byte) → List Opt
  | [] => []
  | seg :: rest => { delta := 11 - prev, value := seg } :: uriPathOpts 11 rest

/-- UvarEncode is defined at most up to 65804 (R134). -/
theorem uvarEncode_le {n : Nat} {nib : Nibble} {ext : List Byte} (h : uvarEncode n = some (nib, ext)) : n ≤ 65804 := by
  by_contra hn
  have hundefined : uvarEncode n = none := by
    rw [uvarEncode, if_neg (by omega), if_neg (by omega), if_neg hn]
  simp [hundefined] at h

/-- An option that has bytes is well formed (R100, R134). -/
theorem Opt.wf_of_optionItem {delta : Nat} {value bytes : List Byte} (h : optionItem delta value = some bytes) :
    Opt.wf { delta := delta, value := value } = true := by
  unfold optionItem at h
  split at h
  · rename_i hdelta hlength
    simp [Opt.wf, uvarEncode_le hdelta, uvarEncode_le hlength]
  · cases h

/-- The options MSGENC emits are well formed and have the bytes it emits. -/
theorem optionsBytes_eq_optsBytes {segs : List (List Byte)} {prev : Nat} {bytes : List Byte}
    (h : optionsBytes prev segs = some bytes) :
    (uriPathOpts prev segs).all Opt.wf = true ∧ optsBytes (uriPathOpts prev segs) = bytes := by
  induction segs generalizing prev bytes with
  | nil => exact ⟨rfl, Option.some.inj h⟩
  | cons seg rest ih =>
    simp only [optionsBytes] at h
    split at h
    · rename_i item tail hitem htail
      obtain ⟨hwf, rfl⟩ := ih htail
      cases h
      rw [optionBytes] at hitem
      exact ⟨by simp [uriPathOpts, Opt.wf_of_optionItem hitem, hwf], by simp [uriPathOpts, optsBytes, hitem]⟩
    · cases h

/-- Every option of a request is traced with the number 11 (R156). -/
theorem optsTrace_uriPathOpts_num {prev : Nat} (h : prev ≤ 11) (cur : Nat) (segs : List (List Byte)) :
    (optsTrace cur prev (uriPathOpts prev segs)).map (fun e => e.num) = segs.map fun _ => 11 := by
  induction segs generalizing prev cur with
  | nil => rfl
  | cons seg rest ih =>
    have hnum : prev + (11 - prev) = 11 := by omega
    simp [uriPathOpts, optsTrace, hnum, ih (Nat.le_refl 11)]

/-- Every option of a request is traced with its segment's length (R155). -/
theorem optsTrace_uriPathOpts_length (prev cur last : Nat) (segs : List (List Byte)) :
    (optsTrace cur last (uriPathOpts prev segs)).map (fun e => e.length) = segs.map List.length := by
  induction segs generalizing prev cur last with
  | nil => rfl
  | cons seg rest ih => simp [uriPathOpts, optsTrace, ih]

/-- The datagram that the MSGENC of `s` builds (R112). -/
def State.request (s : State) : Datagram where
  typ := 0
  code := 0x01#8
  mid := s.midSrc
  token := s.tokenSource
  opts := uriPathOpts 0 (segments s.pathBytes)
  payload := none

/-- ENC_TKL bytes of TOKSRC make the token (R50). -/
theorem State.tokenSource_length {s : State} (h : s.encTkl.toNat ≤ 8) : s.tokenSource.length = s.encTkl.toNat := by
  simp [State.tokenSource, h]

/-- The token length field of the request is ENC_TKL. -/
theorem State.request_tkl {s : State} (h : s.encTkl.toNat ≤ 8) : s.request.tkl = s.encTkl := by
  simp [Datagram.tkl, State.request, State.tokenSource_length h]

/-- The packet of a MSGENC is its request, a well-formed datagram (R90, R150). -/
theorem packetBytes_eq_request {s : State} (htkl : s.encTkl.toNat ≤ 8) {packet : List Byte}
    (h : packetBytes s.encTkl s.midSrc s.tokenSource s.pathBytes = some packet) :
    s.request.wf = true ∧ s.request.bytes = packet := by
  unfold packetBytes at h
  split at h
  · rename_i opts hopts
    obtain ⟨hwf, hbytes⟩ := optionsBytes_eq_optsBytes hopts
    cases h
    constructor
    · simpa [Datagram.wf, State.request, State.tokenSource_length htkl, htkl] using hwf
    · rw [Datagram.bytes, State.request_tkl htkl]
      simp [State.request, hbytes, tailBytes, encode]
  · cases h

/-- A failed MSGENC reports its failure (R255). -/
theorem err_raise (c : Failing) (k : ErrKind) (pos : Nat) (s : State) : (raise c k pos s).err = true :=
  (statusFail_report c.flag s.status).2.1

/-- A success reports none (R259). -/
theorem err_succeed (f : ValidFlag) (s : State) : (succeed f s).err = false := (statusSucceed_bits f s.status).2.1

/-- Settles O22: the packet is a well-formed datagram, the request, and MSGDEC decodes such a datagram to its own parts. -/
theorem encodedRequestDecodes : Obligations.EncodedRequestDecodes := by
  intro s t r _ hexec herr hlen hmax hrx
  cases msgenc_effect hexec with
  | bad _ ht => simp [ht, err_raise] at herr
  | ends packet hlegal hpacket _ ht =>
    subst ht
    simp only [msgencLegal, Bool.and_eq_true, decide_eq_true_eq] at hlegal
    obtain ⟨hwf, rfl⟩ := packetBytes_eq_request hlegal.1 hpacket
    have hholds : r.holdsDatagram s.request.bytes := by
      refine ⟨hlen, fun i hi => ?_⟩
      rw [hrx i hi]
      simpa [finishMsgenc] using Memory.read_writeBytes_inside s.tx 0 s.request.bytes hi
    rw [exec_msgdec_of_le hmax, decodeDatagram_of_bytes hwf hholds.datagram_eq]
    exact ⟨_, rfl, err_succeed _ _, valid_succeed_same _ _, rfl, rfl, rfl, State.request_tkl hlegal.1, rfl, rfl, rfl,
      optsTrace_uriPathOpts_num (Nat.zero_le 11) _ _, optsTrace_uriPathOpts_length _ _ _ _⟩

end Sys2Proof.Machine

namespace Sys2Proof.Machine

/-! # UvarCodec

What UvarEncode and UvarDecode answer for each class of nibble; from this the commands UVENC and UVDEC, and UvarDecode
item by item. -/

/-! ## UvarEncode and UvarDecode, class by class -/

/-- A value below 65536 is assembled from its quotient and its remainder by 256 (R60). -/
theorem be16_ofNat_toNat {n : Nat} (h : n < 65536) : (be16 (BitVec.ofNat 8 (n / 256)) (BitVec.ofNat 8 (n % 256))).toNat = n := by
  rw [be16_toNat]
  simp
  omega

/-- A nibble up to 12 is literal (R98). -/
theorem nibClass_literal {nib : Nibble} (h : nib.toNat ≤ 12) : nibClass nib = .lit := by
  rcases nibClass_cases nib with ⟨-, hlit⟩ | rfl | rfl | rfl
  · exact hlit
  all_goals simp at h

/-- The values of a literal nibble (R130). -/
theorem uvarEncode_literal {nib : Nibble} (h : nib.toNat ≤ 12) : uvarEncode nib.toNat = some (nib, []) := by
  rw [uvarEncode, if_pos (by omega), BitVec.ofNat_toNat, BitVec.setWidth_eq]

/-- The values of one extension byte (R130). -/
theorem uvarEncode_ext8 (e : Byte) : uvarEncode (13 + e.toNat) = some (13#4, [e]) := by
  have hlt := e.isLt
  rw [uvarEncode, if_neg (by omega), if_pos (by omega), Nat.add_sub_cancel_left, BitVec.ofNat_toNat, BitVec.setWidth_eq]

/-- The values of two extension bytes (R130). -/
theorem uvarEncode_ext16 (h l : Byte) : uvarEncode (269 + (be16 h l).toNat) = some (14#4, [h, l]) := by
  have hlt := (be16 h l).isLt
  rw [uvarEncode, if_neg (by omega), if_neg (by omega), if_pos (by omega), Nat.add_sub_cancel_left, BitVec.ofNat_toNat,
    BitVec.setWidth_eq, highByte_be16, lowByte_be16]

/-- A literal nibble takes no byte (R131). -/
theorem uvarDecode_literal {nib : Nibble} (h : nib.toNat ≤ 12) (rd : Nat → Byte) (c fin : Nat) :
    uvarDecode nib rd c fin = .ok (nib.toNat, c) := by
  rw [uvarDecode, nibClass_literal h]

/-- Nibble 13 takes one byte, which is there (R131). -/
theorem uvarDecode_ext8 {c fin : Nat} (h : c + 1 ≤ fin) (rd : Nat → Byte) :
    uvarDecode 13#4 rd c fin = .ok (13 + (rd c).toNat, c + 1) :=
  if_neg (by omega)

/-- Nibble 14 takes two bytes, which are there (R131). -/
theorem uvarDecode_ext16 {c fin : Nat} (h : c + 2 ≤ fin) (rd : Nat → Byte) :
    uvarDecode 14#4 rd c fin = .ok (269 + (be16 (rd c) (rd (c + 1))).toNat, c + 2) :=
  if_neg (by omega)

/-- Nibble 15 is reserved, whatever follows (R131, R139). -/
theorem uvarDecode_reserved (rd : Nat → Byte) (c fin : Nat) : uvarDecode 15#4 rd c fin = .error .reservedNibble := rfl

/-- An extension that does not fit (R131). -/
theorem uvarDecode_truncated {nib : Nibble} {c fin : Nat} (h : fin - c < (nibClass nib).extBytes) (rd : Nat → Byte) :
    uvarDecode nib rd c fin = .error .truncatedExtension := by
  have hne : nib ≠ 15#4 := by
    rintro rfl
    exact Nat.not_lt_zero _ h
  rw [uvarDecode_eq, if_neg hne, if_pos h]

/-- What UvarDecode answers is encoded by the nibble and the bytes consumed (R132). -/
theorem uvarEncode_of_uvarDecode {nib : Nibble} {rd : Nat → Byte} {c fin n c' : Nat} (h : uvarDecode nib rd c fin = .ok (n, c')) :
    uvarEncode n = some (nib, bytesFrom rd c (c' - c)) := by
  rcases uvarDecode_cases h with ⟨hn, -, rfl, rfl⟩ | ⟨rfl, -, rfl, rfl⟩ | ⟨rfl, -, rfl, rfl⟩
  · rw [Nat.sub_self, bytesFrom_zero, uvarEncode_literal hn]
  · rw [Nat.add_sub_cancel_left, uvarEncode_ext8]
    rfl
  · rw [Nat.add_sub_cancel_left, uvarEncode_ext16]
    rfl

/-- Settles O10: UvarDecode reads back what UvarEncode gave, and UvarEncode gives back what UvarDecode read. -/
theorem uvarRoundTrip : Obligations.UvarRoundTrip := by
  refine ⟨fun n hn => ?_, fun nib rd c fin n c' h => uvarEncode_of_uvarDecode h⟩
  obtain ⟨nib, ext, henc⟩ := uvarEncode_isSome hn
  exact ⟨nib, ext, henc, fun rd c fin hext hfit => uvarDecode_of_uvarEncode henc ⟨hext, hfit⟩⟩

/-! ## The command UVENC -/

/-- UVENC of a value that UvarEncode is defined on (R133). -/
theorem exec_uvenc {s : State} {nib : Nibble} {ext : List Byte} (h : uvarEncode s.uvVal.toNat = some (nib, ext)) :
    exec .uvenc s = .next (succeed .uvv { s with uvNib := nib, uvExtLen := BitVec.ofNat 2 ext.length, uvExt := pad2 ext }) := by
  simp only [exec, execUvenc, h]

/-- Settles O6: a value of each of R130's ranges is the value of a nibble and its extension bytes. -/
theorem uvencEncodesItsValue : Obligations.UvencEncodesItsValue := by
  rintro s n rfl
  refine ⟨fun hn => exec_uvenc (ext := []) ?literal, fun hlo hhi => exec_uvenc (ext := [_]) ?ext8,
    fun hlo hhi => exec_uvenc (ext := [_, _]) ?ext16⟩
  case literal =>
    have hval : (BitVec.ofNat 4 s.uvVal.toNat).toNat = s.uvVal.toNat := Nat.mod_eq_of_lt (by omega)
    have henc := uvarEncode_literal (nib := BitVec.ofNat 4 s.uvVal.toNat) (by omega)
    rwa [hval] at henc
  case ext8 =>
    have hval : 13 + (BitVec.ofNat 8 (s.uvVal.toNat - 13)).toNat = s.uvVal.toNat := by
      rw [BitVec.toNat_ofNat]
      omega
    have henc := uvarEncode_ext8 (BitVec.ofNat 8 (s.uvVal.toNat - 13))
    rwa [hval] at henc
  case ext16 =>
    have hval := be16_ofNat_toNat (n := s.uvVal.toNat - 269) (by omega)
    have henc := uvarEncode_ext16 (BitVec.ofNat 8 ((s.uvVal.toNat - 269) / 256)) (BitVec.ofNat 8 ((s.uvVal.toNat - 269) % 256))
    rwa [hval, Nat.add_sub_cancel' hlo] at henc

/-! ## The command UVDEC -/

/-- What R136 asks of the operands. -/
theorem uvdecLegal_iff {s : State} : uvdecLegal s = true ↔ s.rxLen ≤ s.cfg.rxMax ∧ s.uvCur ≤ s.rxLen := by
  simp [uvdecLegal]

/-- Illegal operands end UVDEC before anything else (R136). -/
theorem exec_uvdec_illegal {s : State} (h : ¬ (s.rxLen ≤ s.cfg.rxMax ∧ s.uvCur ≤ s.rxLen)) :
    exec .uvdec s = .next (raise .uvdec .badParam 0 s) :=
  (UvdecEffect.bad (Bool.eq_false_iff.mpr (mt uvdecLegal_iff.mp h)) rfl).exec

section Legal

variable {s : State} (hmax : s.rxLen ≤ s.cfg.rxMax) (hcur : s.uvCur ≤ s.rxLen)
include hmax hcur

/-- With legal operands UVDEC ends with UvarDecode's value and cursor (R135). -/
theorem exec_uvdec_of_ok {v c : Nat} (h : uvarDecode s.uvNib s.rxByte s.uvCur s.rxLen = .ok (v, c)) :
    exec .uvdec s = .next (finishUvdec v c (bytesFrom s.rxByte s.uvCur (c - s.uvCur)) s) :=
  (UvdecEffect.ends v c (uvdecLegal_iff.mpr ⟨hmax, hcur⟩) h rfl).exec

/-- With legal operands UVDEC raises UvarDecode's failure at the cursor (R131). -/
theorem exec_uvdec_of_error {k : ErrKind} (h : uvarDecode s.uvNib s.rxByte s.uvCur s.rxLen = .error k) :
    exec .uvdec s = .next (raise .uvdec k s.uvCur s) :=
  (UvdecEffect.fails k (uvdecLegal_iff.mpr ⟨hmax, hcur⟩) h rfl).exec

end Legal

/-- Settles O8: for each class of nibble, UvarDecode's value and cursor are UVDEC's. -/
theorem uvdecDecodesAtItsCursor : Obligations.UvdecDecodesAtItsCursor := by
  intro s hmax hcur
  refine ⟨fun hnib => ?literal, fun hnib hfit => ?ext8, fun hnib hfit => ?ext16⟩
  case literal =>
    rw [exec_uvdec_of_ok hmax hcur (uvarDecode_literal hnib _ _ _), Nat.sub_self]
    rfl
  case ext8 =>
    rw [exec_uvdec_of_ok hmax hcur (hnib ▸ uvarDecode_ext8 hfit _), Nat.add_sub_cancel_left]
    rfl
  case ext16 =>
    rw [exec_uvdec_of_ok hmax hcur (hnib ▸ uvarDecode_ext16 hfit _), Nat.add_sub_cancel_left, be16_toNat, ← Nat.add_assoc]
    rfl

/-- Settles O9: illegal operands are refused first; with legal ones UVDEC fails where UvarDecode does. -/
theorem uvdecFailures : Obligations.UvdecFailures := by
  intro s
  refine ⟨fun hbad => exec_uvdec_illegal (by omega), fun hmax hcur => ⟨fun hnib => ?reserved, fun hshort => ?truncated⟩,
    fun k pos => rfl⟩
  case reserved => exact exec_uvdec_of_error hmax hcur (hnib ▸ uvarDecode_reserved _ _ _)
  case truncated =>
    refine exec_uvdec_of_error hmax hcur (uvarDecode_truncated ?_ _)
    rcases hshort with ⟨hnib, hlt⟩ | ⟨hnib, hlt⟩
    · rwa [hnib]
    · rwa [hnib]

/-! ## UVDEC after UVENC -/

/-- Byte `i` of padded extension bytes: 0 beyond their number (R53). -/
theorem pad2_getElem (bs : List Byte) (i : Nat) (h : i < 2) : (pad2 bs)[i] = bs.getD i 0 := by
  interval_cases i <;> rfl

/-- Bytes that are read one by one at an index stand there. -/
theorem HoldsAt.of_getElem? {rd : Nat → Byte} {c fin : Nat} {bs : List Byte} (h : ∀ i, i < bs.length → some (rd (c + i)) = bs[i]?)
    (hfit : c + bs.length ≤ fin) : HoldsAt rd c fin bs := by
  refine ⟨List.ext_getElem? fun i => ?_, hfit⟩
  by_cases hi : i < bs.length
  · rw [bytesFrom_getElem? _ _ _ _ hi, h i hi]
  · rw [List.getElem?_eq_none (by simpa using hi), List.getElem?_eq_none (by omega)]

/-- Settles O11: UVDEC finds UvarEncode's extension bytes at its cursor, and UvarDecode reads them back. -/
theorem uvdecReadsBackUvenc : Obligations.UvdecReadsBackUvenc := by
  intro s t u hval hexec hnib hmax hfit hread
  obtain ⟨nib, ext, henc⟩ := uvarEncode_isSome hval
  obtain rfl := next_inj ((exec_uvenc henc).symm.trans hexec)
  have hlen := uvarEncode_ext_length henc
  have hextLen : (BitVec.ofNat 2 ext.length).toNat = ext.length := Nat.mod_eq_of_lt (by omega)
  simp only [succeed_uvNib, succeed_uvExtLen, succeed_uvExt, hextLen] at hnib hfit hread ⊢
  have hholds : HoldsAt u.rxByte u.uvCur u.rxLen ext := by
    refine .of_getElem? (fun i hi => ?_) hfit
    have hbyte := hread i (by omega) hi
    rw [pad2_getElem] at hbyte
    simp [State.rxByte, byteOr, hbyte, hi]
  have hdecode := uvarDecode_of_uvarEncode henc hholds
  rw [← hnib] at hdecode
  refine ⟨_, exec_uvdec_of_ok hmax (by omega) hdecode, ?_⟩
  rw [Nat.add_sub_cancel_left, hholds.1]
  exact ⟨by simp [finishUvdec], rfl, rfl, rfl, err_succeed _ _⟩

end Sys2Proof.Machine

namespace Sys2Proof.Machine

/-! # UvarDecode, item by item

First what a nibble or an extension does to whichever UvarDecode waits for it; then what that is in UVDEC and in MSGDEC;
then that the items of one UvarDecode together do what the whole of it does. -/

/-! ## A nibble and an extension -/

section Nibble

variable {s : State} {c : Nat} (hp : uvarPos s = .nibble c)
include hp

/-- A literal nibble is the value (R131). -/
theorem exec_nibLit (nib : Nibble) : exec (.nibLit nib) s = .next (deliver nib.toNat c [] s) := by
  simp only [exec, execNibLit, hp]

/-- Nibble 13 waits for a byte that is there (R131). -/
theorem exec_nibExt8_of_le (h : c + 1 ≤ s.rxLen) : exec .nibExt8 s = .next (awaitExt false s) := by
  simp only [exec, execNibExt8, hp, if_neg (show ¬ s.rxLen - c < 1 by omega)]

/-- Nibble 13 fails without one (R131). -/
theorem exec_nibExt8_of_lt (h : s.rxLen - c < 1) : exec .nibExt8 s = .next (uvarRaise .truncatedExtension c s) := by
  simp only [exec, execNibExt8, hp, if_pos h]

/-- Nibble 14 waits for two bytes that are there (R131). -/
theorem exec_nibExt16_of_le (h : c + 2 ≤ s.rxLen) : exec .nibExt16 s = .next (awaitExt true s) := by
  simp only [exec, execNibExt16, hp, if_neg (show ¬ s.rxLen - c < 2 by omega)]

/-- Nibble 14 fails without them (R131). -/
theorem exec_nibExt16_of_lt (h : s.rxLen - c < 2) : exec .nibExt16 s = .next (uvarRaise .truncatedExtension c s) := by
  simp only [exec, execNibExt16, hp, if_pos h]

/-- Nibble 15 fails (R131, R139). -/
theorem exec_nibRsvd : exec .nibRsvd s = .next (uvarRaise .reservedNibble c s) := by
  simp only [exec, execNibRsvd, hp]

end Nibble

/-- No UvarDecode runs in MSGENC. -/
theorem engine_ne_msgenc_of_uvarPos {s : State} (h : uvarPos s ≠ .nowhere) (e : EncRun) : s.engine ≠ .msgenc e := by
  intro he
  simp [uvarPos, he] at h

/-- One extension byte (R131). -/
theorem exec_ext8 {s : State} {c : Nat} (hp : uvarPos s = .ext false c) (e : Byte) :
    exec (.ext8 e) s = .next (deliver (13 + e.toNat) (c + 1) [e] s) := by
  have hne := engine_ne_msgenc_of_uvarPos (s := s) (by simp [hp])
  simp only [exec, execExt8, hp]

/-- Two extension bytes (R131). -/
theorem exec_ext16 {s : State} {c : Nat} (hp : uvarPos s = .ext true c) (h l : Byte) :
    exec (.ext16 h l) s = .next (deliver (269 + 256 * h.toNat + l.toNat) (c + 2) [h, l] s) := by
  have hne := engine_ne_msgenc_of_uvarPos (s := s) (by simp [hp])
  simp only [exec, execExt16, hp, be16_toNat, Nat.add_assoc]

/-! ## In UVDEC -/

section Uvdec

variable {s : State} {u : UvRun} (he : s.engine = .uvdec u)
include he

/-- UVDEC waits for its nibble. -/
theorem uvarPos_uvdec_nibble (hs : u.stage = .nibble) : uvarPos s = .nibble u.cur := by
  simp only [uvarPos, he, hs]

/-- UVDEC waits for its extension. -/
theorem uvarPos_uvdec_ext {wide : Bool} (hs : u.stage = .ext wide) : uvarPos s = .ext wide u.cur := by
  simp only [uvarPos, he, hs]

/-- UVDEC ends with the value (R135). -/
theorem deliver_uvdec (v c : Nat) (ext : List Byte) : deliver v c ext s = finishUvdec v c ext s := by
  simp only [deliver, he]

/-- UVDEC goes on to its extension. -/
theorem awaitExt_uvdec (wide : Bool) : awaitExt wide s = { s with engine := .uvdec { u with stage := .ext wide } } := by
  simp only [awaitExt, he]

/-- UVDEC fails (R256). -/
theorem uvarRaise_uvdec (k : ErrKind) (c : Nat) : uvarRaise k c s = raise .uvdec k c s := by
  simp only [uvarRaise, he]

end Uvdec

/-- Settles O33: what each item does to the UvarDecode of UVDEC. -/
theorem uvdecItems : Obligations.UvdecItems := by
  intro s u he
  refine ⟨fun hs => ?nibble, fun hs e => ?ext8, fun hs h l => ?ext16⟩
  case nibble =>
    have hp := uvarPos_uvdec_nibble he hs
    simp only [← awaitExt_uvdec he, ← uvarRaise_uvdec he]
    refine ⟨fun nib _ => ?_, exec_nibExt8_of_le hp, exec_nibExt8_of_lt hp, exec_nibExt16_of_le hp, exec_nibExt16_of_lt hp,
      exec_nibRsvd hp⟩
    rw [exec_nibLit hp, deliver_uvdec he]
    rfl
  case ext8 =>
    rw [exec_ext8 (uvarPos_uvdec_ext he hs), deliver_uvdec he]
    rfl
  case ext16 =>
    rw [exec_ext16 (uvarPos_uvdec_ext he hs), deliver_uvdec he]
    rfl

/-! ## In MSGDEC -/

section Msgdec

variable {s : State} {d : DecRun} (he : s.engine = .msgdec d)
include he

/-- MSGDEC waits for the nibble of a delta or of a length. -/
theorem uvarPos_msgdec_nibble (hs : (∃ dn ln, d.stage = .delta dn ln) ∨ ∃ ln, d.stage = .length ln) :
    uvarPos s = .nibble d.cur := by
  rcases hs with ⟨dn, ln, hs⟩ | ⟨ln, hs⟩
  · simp only [uvarPos, he, hs]
  · simp only [uvarPos, he, hs]

/-- MSGDEC waits for the extension of a delta. -/
theorem uvarPos_deltaExt {wide : Bool} {ln : Nibble} (hs : d.stage = .deltaExt wide ln) : uvarPos s = .ext wide d.cur := by
  simp only [uvarPos, he, hs]

/-- MSGDEC waits for the extension of a length. -/
theorem uvarPos_lengthExt {wide : Bool} (hs : d.stage = .lengthExt wide) : uvarPos s = .ext wide d.cur := by
  simp only [uvarPos, he, hs]

/-- A delta that is decoded is kept, and the length comes next (R183). -/
theorem deliver_delta {ln : Nibble} (hs : (∃ dn, d.stage = .delta dn ln) ∨ ∃ wide, d.stage = .deltaExt wide ln) (v c : Nat)
    (ext : List Byte) :
    deliver v c ext s = { s with engine := .msgdec { d with delta := v, cur := c, stage := .length ln } } := by
  rcases hs with ⟨dn, hs⟩ | ⟨wide, hs⟩
  · simp only [deliver, he, hs]
  · simp only [deliver, he, hs]

/-- With the length decoded the option number grows by the delta, and the value comes next (R184). -/
theorem deliver_length (hs : (∃ ln, d.stage = .length ln) ∨ ∃ wide, d.stage = .lengthExt wide) (v c : Nat) (ext : List Byte) :
    deliver v c ext s =
      { s with engine := .msgdec { d with length := v, cur := c, last := d.last + d.delta, stage := .value } } := by
  rcases hs with ⟨ln, hs⟩ | ⟨wide, hs⟩
  · simp only [deliver, he, hs]
  · simp only [deliver, he, hs]

/-- MSGDEC goes on to the extension of a delta. -/
theorem awaitExt_delta {dn ln : Nibble} (hs : d.stage = .delta dn ln) (wide : Bool) :
    awaitExt wide s = { s with engine := .msgdec { d with stage := .deltaExt wide ln } } := by
  simp only [awaitExt, he, hs]

/-- MSGDEC goes on to the extension of a length. -/
theorem awaitExt_length {ln : Nibble} (hs : d.stage = .length ln) (wide : Bool) :
    awaitExt wide s = { s with engine := .msgdec { d with stage := .lengthExt wide } } := by
  simp only [awaitExt, he, hs]

/-- MSGDEC fails with the options it has counted (R258). -/
theorem uvarRaise_msgdec (k : ErrKind) (c : Nat) : uvarRaise k c s = raise (.msgdec d.last d.cnt) k c s := by
  simp only [uvarRaise, he]

end Msgdec

/-- Settles O34: what each item does to the UvarDecode of a delta, and to that of a length. -/
theorem msgdecUvarItems : Obligations.MsgdecUvarItems := by
  intro s d he
  refine ⟨fun dn ln hs => ?delta, fun ln hs => ?length, fun hs => ?fails, fun ln hs e => ?deltaExt8, fun ln hs h l => ?deltaExt16,
    fun hs e => ?lengthExt8, fun hs h l => ?lengthExt16⟩
  case delta =>
    have hp := uvarPos_msgdec_nibble he (.inl ⟨dn, ln, hs⟩)
    simp only [← awaitExt_delta he hs]
    refine ⟨fun nib _ => ?_, exec_nibExt8_of_le hp, exec_nibExt16_of_le hp⟩
    rw [exec_nibLit hp, deliver_delta he (.inl ⟨dn, hs⟩)]
  case length =>
    have hp := uvarPos_msgdec_nibble he (.inr ⟨ln, hs⟩)
    simp only [← awaitExt_length he hs]
    refine ⟨fun nib _ => ?_, exec_nibExt8_of_le hp, exec_nibExt16_of_le hp⟩
    rw [exec_nibLit hp, deliver_length he (.inl ⟨ln, hs⟩)]
  case fails =>
    have hp := uvarPos_msgdec_nibble he hs
    simp only [← uvarRaise_msgdec he]
    exact ⟨exec_nibExt8_of_lt hp, exec_nibExt16_of_lt hp, exec_nibRsvd hp⟩
  case deltaExt8 => rw [exec_ext8 (uvarPos_deltaExt he hs), deliver_delta he (.inr ⟨_, hs⟩)]
  case deltaExt16 => rw [exec_ext16 (uvarPos_deltaExt he hs), deliver_delta he (.inr ⟨_, hs⟩)]
  case lengthExt8 => rw [exec_ext8 (uvarPos_lengthExt he hs), deliver_length he (.inr ⟨_, hs⟩)]
  case lengthExt16 => rw [exec_ext16 (uvarPos_lengthExt he hs), deliver_length he (.inr ⟨_, hs⟩)]

/-! ## The items together -/

/-- A step, then the rest of a run. -/
theorem run_succ {s t : State} (h : step s = .next t) (k : Nat) : core.run (k + 1) s = core.run k t := by
  have hcore : core.step s = .next t := h
  simp only [Host.Core.run, hcore]

/-- A run of one step. -/
theorem run_one {s t : State} (h : step s = .next t) : core.run 1 s = .next t := run_succ h 0

/-- A UvarDecode that goes on to its extension waits for it at the same cursor. -/
theorem uvarPos_awaitExt {s : State} {c : Nat} (hp : uvarPos s = .nibble c) (wide : Bool) :
    uvarPos (awaitExt wide s) = .ext wide c := by
  rcases uvarPos_nibble hp with ⟨u, he, -, rfl⟩ | ⟨d, he, rfl, ⟨dn, ln, hs⟩ | ⟨ln, hs⟩⟩
  · rw [awaitExt_uvdec he]
    rfl
  · rw [awaitExt_delta he hs]
    rfl
  · rw [awaitExt_length he hs]
    rfl

/-- What the end of a UvarDecode does is the same after its nibble. -/
theorem deliver_awaitExt {s : State} {c : Nat} (hp : uvarPos s = .nibble c) (wide : Bool) (v c' : Nat) (ext : List Byte) :
    deliver v c' ext (awaitExt wide s) = deliver v c' ext s := by
  rcases uvarPos_nibble hp with ⟨u, he, -, -⟩ | ⟨d, he, -, ⟨dn, ln, hs⟩ | ⟨ln, hs⟩⟩
  · rw [awaitExt_uvdec he, deliver_uvdec he]
    rfl
  · rw [awaitExt_delta he hs, deliver_delta he (.inl ⟨dn, hs⟩)]
    rfl
  · rw [awaitExt_length he hs, deliver_length he (.inl ⟨ln, hs⟩)]
    rfl

/-- Waiting changes no byte of RXBUF. -/
theorem rxByte_awaitExt (wide : Bool) (s : State) : (awaitExt wide s).rxByte = s.rxByte := by
  unfold awaitExt
  split
  · rfl
  · split <;> rfl
  · rfl

/-- The extension a UvarDecode waits for is fetched at its cursor (R131). -/
theorem fetch_ext {s : State} {c : Nat} {wide : Bool} (hp : uvarPos s = .ext wide c) :
    fetch s = if wide then .bytes .ext16 [s.rxByte c, s.rxByte (c + 1)] else .bytes .ext8 [s.rxByte c] := by
  rcases uvarPos_ext hp with ⟨u, he, hs, rfl⟩ | ⟨d, he, rfl, ⟨ln, hs⟩ | hs⟩
  · cases wide <;> simp [fetch, he, fetchUvdec, hs]
  · cases wide <;> simp [fetch, he, fetchMsgdec, hs]
  · cases wide <;> simp [fetch, he, fetchMsgdec, hs]

/-- A step at one extension byte. -/
theorem step_ext8 {s : State} {c : Nat} (hp : uvarPos s = .ext false c) :
    step s = .next (deliver (13 + (s.rxByte c).toNat) (c + 1) [s.rxByte c] s) := by
  rw [← exec_ext8 hp]
  exact step_takes (engine_ne_idle_of_uvarPos (by simp [hp])) (fetch_ext hp) rfl

/-- A step at two extension bytes. -/
theorem step_ext16 {s : State} {c : Nat} (hp : uvarPos s = .ext true c) :
    step s = .next (deliver (269 + 256 * (s.rxByte c).toNat + (s.rxByte (c + 1)).toNat) (c + 2)
      [s.rxByte c, s.rxByte (c + 1)] s) := by
  rw [← exec_ext16 hp]
  exact step_takes (engine_ne_idle_of_uvarPos (by simp [hp])) (fetch_ext hp) rfl

/-- A nibble up to 12 decodes to NIB.LIT (R98). -/
theorem decodeNibble_literal {nib : Nibble} (h : nib.toNat ≤ 12) : decodeNibble nib = .nibLit nib := by
  revert nib
  decide

section Run

variable {s : State} {c : Nat} {nib : Nibble} (hp : uvarPos s = .nibble c)
  (hf : fetch s = .bytes .nibble [joinNibbles 0#4 nib])
include hp hf

/-- A step at a nibble executes the item of its class. -/
theorem step_nibble : step s = exec (decodeNibble nib) s :=
  step_takes (engine_ne_idle_of_uvarPos (by simp [hp])) hf (decode_joinNibbles nib)

/-- Where UvarDecode fails, its nibble's step raises the failure (R131). -/
theorem run_uvarDecode_error {k : ErrKind} (h : uvarDecode nib s.rxByte c s.rxLen = .error k) :
    core.run 1 s = .next (uvarRaise k c s) := by
  apply run_one
  rw [step_nibble hp hf]
  rcases nibClass_cases nib with ⟨hnib, -⟩ | rfl | rfl | rfl
  · simp [uvarDecode_literal hnib] at h
  · by_cases hfit : c + 1 ≤ s.rxLen
    · simp [uvarDecode_ext8 hfit] at h
    · have hshort : s.rxLen - c < 1 := by omega
      rw [uvarDecode_truncated (nib := 13#4) hshort] at h
      cases h
      exact exec_nibExt8_of_lt hp hshort
  · by_cases hfit : c + 2 ≤ s.rxLen
    · simp [uvarDecode_ext16 hfit] at h
    · have hshort : s.rxLen - c < 2 := by omega
      rw [uvarDecode_truncated (nib := 14#4) hshort] at h
      cases h
      exact exec_nibExt16_of_lt hp hshort
  · cases h
    exact exec_nibRsvd hp

/-- Where UvarDecode succeeds, its nibble's step and that of an extension deliver its value, its cursor and the bytes
consumed (R131). -/
theorem run_uvarDecode_ok {v c' : Nat} (h : uvarDecode nib s.rxByte c s.rxLen = .ok (v, c')) :
    ∃ k, k ≤ 2 ∧ core.run k s = .next (deliver v c' (bytesFrom s.rxByte c (c' - c)) s) := by
  have hstep := step_nibble hp hf
  rcases uvarDecode_cases h with ⟨hnib, -, rfl, rfl⟩ | ⟨rfl, hfit, rfl, rfl⟩ | ⟨rfl, hfit, rfl, rfl⟩
  · rw [decodeNibble_literal hnib, exec_nibLit hp] at hstep
    exact ⟨1, by omega, by rw [run_one hstep, Nat.sub_self, bytesFrom_zero]⟩
  · refine ⟨2, Nat.le_refl 2, ?_⟩
    rw [run_succ (hstep.trans (exec_nibExt8_of_le hp hfit)), run_one (step_ext8 (uvarPos_awaitExt hp false)),
      deliver_awaitExt hp, rxByte_awaitExt, Nat.add_sub_cancel_left]
    rfl
  · refine ⟨2, Nat.le_refl 2, ?_⟩
    rw [run_succ (hstep.trans (exec_nibExt16_of_le hp hfit)), run_one (step_ext16 (uvarPos_awaitExt hp true)),
      deliver_awaitExt hp, rxByte_awaitExt, Nat.add_sub_cancel_left, be16_toNat, ← Nat.add_assoc]
    rfl

end Run

/-- UVDEC run item by item (R131, R135). -/
theorem run_startUvdec {s t : State} (hmax : s.rxLen ≤ s.cfg.rxMax) (hcur : s.uvCur ≤ s.rxLen) (h : exec .uvdec s = .next t) :
    ∃ k, k ≤ 2 ∧ core.run k (startUvdec s) = .next t := by
  have hp : uvarPos (startUvdec s) = .nibble s.uvCur := rfl
  have hf : fetch (startUvdec s) = .bytes .nibble [joinNibbles 0#4 s.uvNib] := rfl
  cases uvdec_effect h with
  | bad hl _ => simp [uvdecLegal_iff.mpr ⟨hmax, hcur⟩] at hl
  | fails k _ hd ht => exact ⟨1, by omega, ht ▸ run_uvarDecode_error hp hf hd⟩
  | ends v c _ hd ht => exact ht ▸ run_uvarDecode_ok hp hf hd

/-- FMT run item by item: its code byte (R210). -/
theorem run_startFmt {s t : State} (h : exec .fmt s = .next t) : core.run 1 (startFmt s) = .next t := by
  obtain rfl := next_inj h
  exact run_one (step_takes (s := startFmt s) (i := .code (classOf s.fmtCode) (detailOf s.fmtCode)) nofun rfl rfl)

/-- Settles O42: UVDEC's items are those of its UvarDecode, and FMT's is its code byte. -/
theorem uvdecAndFmtItemRunsEqualCommands : Obligations.UvdecAndFmtItemRunsEqualCommands :=
  ⟨fun _ _ hmax hcur h => run_startUvdec hmax hcur h, fun _ _ h => run_startFmt h⟩

end Sys2Proof.Machine

namespace Sys2Proof.Machine

/-! # What a command leaves unchanged

An end of a command is `succeed` or `raise` over its own unit's results (R255, R259), so its frame is read off its effect. -/

/-- What UVENC changes (R229). -/
theorem uvenc_frame {s t : State} (h : exec .uvenc s = .next t) :
    t = { s with
      uvNib := t.uvNib, uvExtLen := t.uvExtLen, uvExt := t.uvExt, status := t.status, errKind := t.errKind,
      errPos := t.errPos, engine := t.engine } := by
  rcases uvenc_effect h with rfl | ⟨nib, ext, -, rfl⟩
  · rfl
  · rfl

/-- What UVDEC changes. -/
theorem uvdec_frame {s t : State} (h : exec .uvdec s = .next t) :
    t = { s with
      uvVal := t.uvVal, uvExtLen := t.uvExtLen, uvExt := t.uvExt, uvCur := t.uvCur, status := t.status,
      errKind := t.errKind, errPos := t.errPos, engine := t.engine } := by
  cases uvdec_effect h with
  | bad _ ht => exact ht ▸ rfl
  | fails k _ _ ht => exact ht ▸ rfl
  | ends v c _ _ ht => exact ht ▸ rfl

/-- What MSGENC changes. -/
theorem msgenc_frame {s t : State} (h : exec .msgenc s = .next t) :
    t = { s with
      txLen := t.txLen, midOut := t.midOut, tokOut := t.tokOut, tx := t.tx, status := t.status, errKind := t.errKind,
      errPos := t.errPos, engine := t.engine } := by
  cases msgenc_effect h with
  | bad _ ht => exact ht ▸ rfl
  | ends p _ _ _ ht => exact ht ▸ rfl

/-- MSGENC keeps TXBUF from TXLEN on: a failure writes no byte, a success those of its packet. -/
theorem msgenc_tx_frame {s t : State} (h : exec .msgenc s = .next t) {a : Nat} (ha : t.txLen ≤ a) : t.tx.read a = s.tx.read a := by
  cases msgenc_effect h with
  | bad _ ht => rw [ht, raise_tx]
  | ends p _ _ _ ht =>
    subst ht
    exact Memory.read_writeBytes_outside s.tx 0 p (.inr ((Nat.zero_add _).trans_le ha))

/-- What MSGDEC changes. -/
theorem msgdec_frame {s t : State} (h : exec .msgdec s = .next t) :
    t = { s with
      decVer := t.decVer, decType := t.decType, decTkl := t.decTkl, decCode := t.decCode, decMid := t.decMid,
      decToken := t.decToken, payOff := t.payOff, payLen := t.payLen, payload := t.payload, optLast := t.optLast,
      optCnt := t.optCnt, trace := t.trace, status := t.status, errKind := t.errKind, errPos := t.errPos,
      engine := t.engine } := by
  cases msgdec_effect h with
  | bad _ ht => exact ht ▸ rfl
  | fails k pos w _ _ _ _ ht => exact ht ▸ rfl
  | ends w _ _ _ _ _ ht => exact ht ▸ rfl

/-- What FMT changes. -/
theorem fmt_frame {s t : State} (h : exec .fmt s = .next t) :
    t = { s with
      fmtClass := t.fmtClass, fmtDetail := t.fmtDetail, fmtStr := t.fmtStr, status := t.status, errKind := t.errKind,
      errPos := t.errPos, engine := t.engine } := by
  obtain rfl := next_inj h
  rfl

/-- A working command ends in a success or a failure of its own unit (R255, R259). -/
theorem status_of_ownFlag {i : Instr} {f : ValidFlag} {s t : State} (hf : ownFlag i = some f) (h : exec i s = .next t) :
    t.status = statusSucceed f s.status ∨ t.status = statusFail (some f) s.status := by
  cases i with
  | uvenc =>
    cases hf
    rcases uvenc_effect h with rfl | ⟨nib, ext, -, rfl⟩
    · exact .inr rfl
    · exact .inl rfl
  | uvdec =>
    cases hf
    cases uvdec_effect h with
    | bad _ ht => exact .inr (ht ▸ rfl)
    | fails k _ _ ht => exact .inr (ht ▸ rfl)
    | ends v c _ _ ht => exact .inl (ht ▸ rfl)
  | msgenc =>
    cases hf
    cases msgenc_effect h with
    | bad _ ht => exact .inr (ht ▸ rfl)
    | ends p _ _ _ ht => exact .inl (ht ▸ rfl)
  | msgdec =>
    cases hf
    cases msgdec_effect h with
    | bad _ ht => exact .inr (ht ▸ rfl)
    | fails k pos w _ _ _ _ ht => exact .inr (ht ▸ rfl)
    | ends w _ _ _ _ _ ht => exact .inl (ht ▸ rfl)
  | fmt =>
    cases hf
    obtain rfl := next_inj h
    exact .inl rfl
  | _ => cases hf

/-- Of STATUS a working command changes DONE, ERR and its own valid flag alone (R229). -/
theorem status_other_of_ownFlag {i : Instr} {f : ValidFlag} {s t : State} (hf : ownFlag i = some f) (h : exec i s = .next t)
    (n : Nat) (hdone : n ≠ 0) (herr : n ≠ 1) (hown : n ≠ f.bit) : t.status.getLsbD n = s.status.getLsbD n := by
  rcases status_of_ownFlag hf h with hs | hs
  · rw [hs, statusSucceed_other f _ _ hdone herr hown]
  · rw [hs, statusFail_other f _ _ hdone herr hown]

/-- Settles O50: each command's frame and its STATUS bits, read off its effect. -/
theorem commandFrames : Obligations.CommandFrames := by
  intro s t
  refine ⟨uvenc_frame, uvdec_frame, fun h => ⟨msgenc_frame h, fun a ha => msgenc_tx_frame h ha⟩, msgdec_frame, fmt_frame,
    fun h => ?uvar, status_other_of_ownFlag (f := .encv) rfl, status_other_of_ownFlag (f := .decv) rfl,
    status_other_of_ownFlag (f := .fmtv) rfl⟩
  case uvar =>
    rcases h with h | h
    · exact status_other_of_ownFlag (f := .uvv) rfl h
    · exact status_other_of_ownFlag (f := .uvv) rfl h

end Sys2Proof.Machine

namespace Sys2Proof.Machine

/-! # MessageEncoder

The path and its segments, then the command as a whole: its packet, and that the packet fits. -/

/-! ## The path -/

/-- A separator ends the segment begun, and what follows it is split afresh (R154). -/
theorem segmentsFrom_append_separator (acc a b : List Byte) :
    segmentsFrom acc (a ++ separator :: b) = segmentsFrom acc a ++ segments b := by
  induction a generalizing acc with
  | nil =>
    simp only [List.nil_append, segmentsFrom, if_true]
    split <;> rfl
  | cons c a ih =>
    simp only [List.cons_append, segmentsFrom, ih]
    split
    · split <;> rfl
    · rfl

/-- A byte that is no separator goes to the segment begun (R154). -/
theorem segmentsFrom_cons_of_ne {c : Byte} (h : c ≠ separator) (acc bs : List Byte) :
    segmentsFrom acc (c :: bs) = segmentsFrom (acc ++ [c]) bs :=
  if_neg h

/-- So does a run of such bytes. -/
theorem segmentsFrom_of_not_mem {a : List Byte} (h : separator ∉ a) (acc : List Byte) :
    segmentsFrom acc a = segmentsFrom (acc ++ a) [] := by
  induction a generalizing acc with
  | nil => rw [List.append_nil]
  | cons c a ih =>
    obtain ⟨hc, ha⟩ := List.ne_and_not_mem_of_not_mem_cons h
    rw [segmentsFrom_cons_of_ne hc.symm, ih ha, List.append_assoc, List.singleton_append]

/-- Settles O12: a separator closes the segment begun; a run without one is kept whole. -/
theorem pathSplitsAtSeparators : Obligations.PathSplitsAtSeparators := by
  refine ⟨rfl, rfl, segmentsFrom_append_separator [], fun a hne hrun => ?_⟩
  rw [segments, segmentsFrom_of_not_mem hrun, List.nil_append, segmentsFrom, if_neg hne]

/-- Every segment has a byte of its own: one of the segment begun, or one of the path. -/
theorem segmentsFrom_count (acc bs : List Byte) : (segmentsFrom acc bs).length ≤ acc.length + bs.length := by
  induction bs generalizing acc with
  | nil =>
    rw [segmentsFrom]
    split
    · exact Nat.zero_le _
    · exact Nat.le_add_right_of_le (List.length_pos_iff.mpr ‹_›)
  | cons b bs ih =>
    rw [segmentsFrom]
    split
    · have hrest : (segmentsFrom [] bs).length ≤ 0 + bs.length := ih []
      split
      · rw [List.length_cons]
        omega
      · have hpos := List.length_pos_iff.mpr ‹_›
        rw [List.length_cons, List.length_cons]
        omega
    · have hrest := ih (acc ++ [b])
      rw [List.length_append, List.length_singleton] at hrest
      rw [List.length_cons]
      omega

/-- A path has no more segments than bytes. -/
theorem segments_count (bs : List Byte) : (segments bs).length ≤ bs.length :=
  (segmentsFrom_count [] bs).trans (Nat.zero_add _).le

/-- A path of written bytes is read as they were written (R43). -/
theorem State.holdsPath.pathBytes_eq {s : State} {path : List Byte} (h : s.holdsPath path) : s.pathBytes = path := by
  obtain ⟨hlen, hread⟩ := h
  have hholds : HoldsAt s.pathByte 0 path.length path := by
    refine .of_getElem? (fun i hi => ?_) (by omega)
    simp [State.pathByte, byteOr, hread i hi, hi]
  rw [State.pathBytes, hlen, hholds.1]

/-! ## The command -/

/-- What R151 asks of the operands. -/
theorem msgencLegal_iff {s : State} : msgencLegal s = true ↔ s.encTkl.toNat ≤ 8 ∧ s.pathLen ≤ s.cfg.pathMax := by
  simp [msgencLegal]

/-- R8's bounds on the path and on the packet. -/
theorem legal_encoder_bounds {p : Config.Params} (h : p.legal = true) :
    p.pathMax ≤ 2047 ∧ 13 + p.pathMax + p.pathMax / 13 ≤ p.txMax := by
  simp only [Config.Params.legal, Bool.and_eq_true, decide_eq_true_eq] at h
  omega

/-- The packet that the MSGENC of `s` emits (R112). -/
def State.packet (s : State) : List Byte :=
  requestPacket s.encTkl.toNat s.midSrc.toNat s.tokenSource (segments s.pathBytes)

/-- The packet's length is within R162's bounds. -/
theorem State.packet_length {s : State} (htkl : s.encTkl.toNat ≤ 8) :
    4 ≤ s.packet.length ∧ s.packet.length ≤ 13 + s.pathLen + s.pathLen / 13 := by
  have htoken : s.tokenSource.length ≤ 8 := (State.tokenSource_length htkl).trans_le htkl
  obtain ⟨hhi, hlo⟩ := requestPacket_length s.encTkl.toNat s.midSrc.toNat s.tokenSource s.pathBytes htoken
  rw [pathBytes_length] at hhi
  exact ⟨(Nat.le_add_right 4 _).trans hlo, hhi⟩

section Legal

variable {s : State} (hcfg : s.cfg.legal = true) (htkl : s.encTkl.toNat ≤ 8) (hpath : s.pathLen ≤ s.cfg.pathMax)
include hcfg htkl hpath

/-- The packet fits in TXBUF (R162). -/
theorem packet_fits : s.packet.length ≤ s.cfg.txMax := by
  have hlen := State.packet_length htkl
  have hmax := legal_encoder_bounds hcfg
  omega

/-- MSGENC of legal operands emits its packet (R150). -/
theorem exec_msgenc_of_legal :
    exec .msgenc s = .next (finishMsgenc s.packet.length { s with tx := s.tx.writeBytes 0 s.packet }) := by
  have hshort : s.pathBytes.length ≤ 65804 := by
    have hmax := legal_encoder_bounds hcfg
    rw [pathBytes_length]
    omega
  exact (MsgencEffect.ends s.packet (msgencLegal_iff.mpr ⟨htkl, hpath⟩) (packetBytes_eq _ _ _ _ hshort)
    (packet_fits hcfg htkl hpath) rfl).exec

end Legal

/-- MSGENC of illegal operands fails (R151). -/
theorem exec_msgenc_of_illegal {s : State} (h : ¬ (s.encTkl.toNat ≤ 8 ∧ s.pathLen ≤ s.cfg.pathMax)) :
    exec .msgenc s = .next (raise .msgenc .badParam 0 s) :=
  (MsgencEffect.bad (Bool.eq_false_iff.mpr (mt msgencLegal_iff.mp h)) rfl).exec

/-- TOKOUT holds the token, and 0 beyond it (R51, R158). -/
theorem pad8_tokenSource (s : State) :
    pad8 s.tokenSource = Vector.ofFn fun i => if i.val < s.encTkl.toNat then s.tokSrc[i] else 0 := by
  ext i hi
  rw [pad8_getElem, Vector.getElem_ofFn]
  by_cases h : i < s.encTkl.toNat <;> simp [State.tokenSource, List.getD, h, hi]

/-- Settles O13: with legal operands the packet, which is the request, is written from index 0 on. -/
theorem msgencBuildsTheRequest : Obligations.MsgencBuildsTheRequest := by
  intro s hcfg htkl hpath
  refine ⟨fun path hholds => hholds.pathBytes_eq, _, s.packet, rfl, exec_msgenc_of_legal hcfg htkl hpath, fun i hi => ?_,
    fun i hi => ?_, ?_⟩
  · simpa [finishMsgenc] using Memory.read_writeBytes_inside s.tx 0 s.packet hi
  · simpa [finishMsgenc] using Memory.read_writeBytes_outside s.tx 0 s.packet (.inr ((Nat.zero_add _).trans_le hi))
  · rw [finishMsgenc, pad8_tokenSource]
    rfl

/-- Settles O14: illegal operands are reported; with legal ones the packet is within R162's bounds. -/
theorem msgencNeverOverflows : Obligations.MsgencNeverOverflows := by
  intro s hcfg
  by_cases hlegal : s.encTkl.toNat ≤ 8 ∧ s.pathLen ≤ s.cfg.pathMax
  · obtain ⟨htkl, hpath⟩ := hlegal
    obtain ⟨hlo, hhi⟩ := State.packet_length htkl
    exact ⟨_, exec_msgenc_of_legal hcfg htkl hpath, fun _ => ⟨hlo, hhi, packet_fits hcfg htkl hpath⟩⟩
  · refine ⟨_, exec_msgenc_of_illegal hlegal, fun herr => ?_⟩
    rw [err_raise] at herr
    cases herr

end Sys2Proof.Machine

namespace Sys2Proof.Machine

/-! # MessageEncoder, item by item

What each emitted item does to the state is one update, `emitted`; consecutive emissions are one emission of the joined
bytes, and so a run over the segments writes what the command writes at once. -/

/-! ## One emission -/

/-- `s` with `bs` written at the write index and `e` moved past them (R150). -/
def emitted (bs : List Byte) (e : EncRun) (s : State) : State :=
  { s with tx := s.tx.writeBytes e.wp bs, engine := .msgenc { e with wp := e.wp + bs.length } }

/-- Bytes that fit are emitted. -/
theorem emitBytes_of_le {bs : List Byte} {e : EncRun} {s : State} (h : e.wp + bs.length ≤ s.cfg.txMax) :
    emitBytes bs e s = .next (emitted bs e s) :=
  if_pos h

/-- Two emissions one after the other are one. -/
theorem emitted_emitted {e e' : EncRun} {bs : List Byte} (h : e'.wp = e.wp + bs.length) (cs : List Byte) (s : State) :
    emitted cs e' (emitted bs e s) = emitted (bs ++ cs) { e' with wp := e.wp } s := by
  simp only [emitted, h, Memory.writeBytes_append, List.length_append, Nat.add_assoc]

section Emission

variable {s : State} {e : EncRun} (he : s.engine = .msgenc e)
include he

/-- GETHDR emitted (R152). -/
theorem exec_gethdr_emitted (hs : e.stage = .header) {tkl : BitVec 4} {mid : BitVec 16}
    (hfit : e.wp + (encode (.gethdr tkl mid)).length ≤ s.cfg.txMax) :
    exec (.gethdr tkl mid) s = .next (emitted (encode (.gethdr tkl mid)) { e with stage := .token } s) := by
  simp only [exec, execGethdr, he, hs]
  exact emitBytes_of_le hfit

/-- TOKEN emitted (R153). -/
theorem exec_token_emitted (hs : e.stage = .token) {bytes : List Byte} (hfit : e.wp + bytes.length ≤ s.cfg.txMax) :
    exec (.token bytes) s = .next (emitted bytes { e with stage := .options } s) := by
  simp only [exec, execToken, he, emitToken, hs]
  exact emitBytes_of_le hfit

/-- An option header byte emitted (R155). -/
theorem exec_opt_emitted (hs : e.stage = .options) (dn ln : Nibble) (hfit : e.wp + 1 ≤ s.cfg.txMax) :
    exec (.opt dn ln) s =
      .next (emitted [joinNibbles dn ln]
        { e with stage := afterOptionHead ln, start := (nextSegment s e.rp).1, rp := (nextSegment s e.rp).2 } s) := by
  simp only [exec, execOpt, he, emitOptionHead, hs]
  exact emitBytes_of_le hfit

/-- EXT8 emitted (R155). -/
theorem exec_ext8_emitted (hs : e.stage = .ext false) (x : Byte) (hfit : e.wp + 1 ≤ s.cfg.txMax) :
    exec (.ext8 x) s = .next (emitted [x] { e with stage := .value } s) := by
  simp only [exec, execExt8, he, emitExt, hs, if_true]
  exact emitBytes_of_le hfit

/-- EXT16 emitted (R155). -/
theorem exec_ext16_emitted (hs : e.stage = .ext true) (h l : Byte) (hfit : e.wp + 2 ≤ s.cfg.txMax) :
    exec (.ext16 h l) s = .next (emitted [h, l] { e with stage := .value } s) := by
  simp only [exec, execExt16, he, emitExt, hs, if_true]
  exact emitBytes_of_le hfit

/-- VALUE emitted (R155, R156). -/
theorem exec_value_emitted (hs : e.stage = .value) {bytes : List Byte} (hfit : e.wp + bytes.length ≤ s.cfg.txMax) :
    exec (.value bytes) s = .next (emitted bytes { e with stage := .options, prev := 11 } s) := by
  simp only [exec, execValue, he, emitValue, hs]
  exact emitBytes_of_le hfit

end Emission

/-- An option header byte as a number (R96). -/
theorem joinNibbles_eq_ofNat (dn ln : Nibble) : joinNibbles dn ln = BitVec.ofNat 8 (16 * dn.toNat + ln.toNat) := by
  revert dn ln
  decide

/-- After a literal length nibble comes the value (R99). -/
theorem afterOptionHead_literal {ln : Nibble} (h : ln.toNat ≤ 12) : afterOptionHead ln = .value := by
  rw [afterOptionHead, nibClass_literal h]

/-- Settles O29: the header's four bytes are R94's. -/
theorem requestHeaderItem : Obligations.RequestHeaderItem := by
  intro s e tkl mid he hs _ hfit
  rw [exec_gethdr_emitted he hs hfit, encode_gethdr]
  rfl

/-- Settles O32: the emission moves the write index, and the class of the length nibble chooses the stage. -/
theorem emittedOptionHeadItem : Obligations.EmittedOptionHeadItem := by
  intro s e dn ln he hs hfit
  refine ⟨{ e with
    stage := afterOptionHead ln, start := (nextSegment s e.rp).1, rp := (nextSegment s e.rp).2, wp := e.wp + 1 },
    ?_, rfl, rfl, rfl, afterOptionHead_literal, ?_, ?_⟩
  · rw [exec_opt_emitted he hs dn ln hfit, joinNibbles_eq_ofNat]
    rfl
  · rintro rfl
    rfl
  · rintro rfl
    rfl

/-- Settles O35: each of the three is one emission at its stage. -/
theorem emittedExtensionAndValueItems : Obligations.EmittedExtensionAndValueItems :=
  fun _ _ he =>
    ⟨fun hs hfit x => exec_ext8_emitted he hs x hfit, fun hs hfit h l => exec_ext16_emitted he hs h l hfit,
      fun hs _ hfit => exec_value_emitted he hs hfit⟩

/-! ## One step of a running MSGENC -/

section Step

variable {s : State} {e : EncRun} (he : s.engine = .msgenc e)
include he

/-- A running MSGENC executes the item it fetches. -/
theorem step_msgenc_emits {i : Instr} (hf : fetchMsgenc e s = .emit i) : step s = exec i s :=
  step_emits (by simp [he]) (by simp [fetch, he, hf])

/-- The header is emitted. -/
theorem step_header_emitted (hs : e.stage = .header)
    (hfit : e.wp + (encode (.gethdr s.encTkl s.midSrc)).length ≤ s.cfg.txMax) :
    step s = .next (emitted (encode (.gethdr s.encTkl s.midSrc)) { e with stage := .token } s) :=
  (step_msgenc_emits he (by simp [fetchMsgenc, hs])).trans (exec_gethdr_emitted he hs hfit)

/-- The token is emitted. -/
theorem step_token_emitted (hs : e.stage = .token) (hfit : e.wp + s.tokenSource.length ≤ s.cfg.txMax) :
    step s = .next (emitted s.tokenSource { e with stage := .options } s) :=
  (step_msgenc_emits he (by simp [fetchMsgenc, hs])).trans (exec_token_emitted he hs hfit)

/-- The head of the next segment's option is emitted. -/
theorem step_optionHead_emitted (hs : e.stage = .options) (hlt : (nextSegment s e.rp).1 < s.pathLen) {dn ln : Nibble}
    {dext lext : List Byte} (hd : uvarEncode (11 - e.prev) = some (dn, dext))
    (hl : uvarEncode ((nextSegment s e.rp).2 - (nextSegment s e.rp).1) = some (ln, lext)) (hfit : e.wp + 1 ≤ s.cfg.txMax) :
    step s =
      .next (emitted [joinNibbles dn ln]
        { e with stage := afterOptionHead ln, start := (nextSegment s e.rp).1, rp := (nextSegment s e.rp).2 } s) :=
  (step_msgenc_emits he (by simp [fetchMsgenc, hs, hlt, optionHeadItem, hd, hl])).trans (exec_opt_emitted he hs dn ln hfit)

/-- The path ends. -/
theorem step_packetEnd (hs : e.stage = .options) (hend : ¬ (nextSegment s e.rp).1 < s.pathLen) :
    step s = .next (finishMsgenc e.wp s) := by
  simp [step_running, engineStep, fetch, fetchMsgenc, endPacket, he, hs, hend]

/-- One extension byte is emitted. -/
theorem step_ext8_emitted (hs : e.stage = .ext false) {nib : Nibble} {x : Byte}
    (hl : uvarEncode (e.rp - e.start) = some (nib, [x])) (hfit : e.wp + 1 ≤ s.cfg.txMax) : step s = .next (emitted [x] { e with stage := .value } s) :=
  (step_msgenc_emits he (by simp [fetchMsgenc, hs, lengthExtItem, hl])).trans (exec_ext8_emitted he hs x hfit)

/-- Two extension bytes are emitted. -/
theorem step_ext16_emitted (hs : e.stage = .ext true) {nib : Nibble} {h l : Byte}
    (hl : uvarEncode (e.rp - e.start) = some (nib, [h, l])) (hfit : e.wp + 2 ≤ s.cfg.txMax) :
    step s = .next (emitted [h, l] { e with stage := .value } s) :=
  (step_msgenc_emits he (by simp [fetchMsgenc, hs, lengthExtItem, hl])).trans (exec_ext16_emitted he hs h l hfit)

/-- The segment's bytes are emitted. -/
theorem step_value_emitted (hs : e.stage = .value) (hfit : e.wp + (e.rp - e.start) ≤ s.cfg.txMax) :
    step s =
      .next (emitted (bytesFrom s.pathByte e.start (e.rp - e.start)) { e with stage := .options, prev := 11 } s) :=
  (step_msgenc_emits he (by simp [fetchMsgenc, hs])).trans (exec_value_emitted he hs (by rwa [bytesFrom_length]))

end Step

/-! ## The run over the segments -/

section Run

variable {s : State} {e : EncRun} (he : s.engine = .msgenc e)
include he

/-- After an option header byte: the length extension, if there is one, and the segment's bytes (R155). -/
theorem run_option_tail {ln : Nibble} {lext : List Byte} (hs : e.stage = afterOptionHead ln)
    (hl : uvarEncode (e.rp - e.start) = some (ln, lext)) (hfit : e.wp + lext.length + (e.rp - e.start) ≤ s.cfg.txMax) :
    ∃ k, k ≤ 2 ∧ ∀ n, core.run (n + k) s =
      core.run n
        (emitted (lext ++ bytesFrom s.pathByte e.start (e.rp - e.start)) { e with stage := .options, prev := 11 } s) := by
  rcases uvarEncode_cases hl with ⟨hlt, hnib, -, rfl⟩ | ⟨-, -, rfl, x, rfl, -⟩ | ⟨-, -, rfl, h, l, rfl, -⟩
  · rw [afterOptionHead_literal (by omega)] at hs
    exact ⟨1, by omega, run_succ (step_value_emitted he hs hfit)⟩
  · refine ⟨2, Nat.le_refl 2, fun n => ?_⟩
    rw [run_succ (step_ext8_emitted he hs hl (Nat.le_of_add_right_le hfit)), run_succ (step_value_emitted rfl rfl hfit),
      emitted_emitted rfl]
    rfl
  · refine ⟨2, Nat.le_refl 2, fun n => ?_⟩
    rw [run_succ (step_ext16_emitted he hs hl (Nat.le_of_add_right_le hfit)), run_succ (step_value_emitted rfl rfl hfit),
      emitted_emitted rfl]
    rfl

/-- The option of the next segment, in at most three steps (R155, R156): its delta is at most 11 and so takes no
extension byte. -/
theorem run_option (hs : e.stage = .options) {start stop : Nat} (hnext : nextSegment s e.rp = (start, stop))
    (hlt : start < s.pathLen) {item : List Byte}
    (hitem : optionBytes e.prev (bytesFrom s.pathByte start (stop - start)) = some item)
    (hfit : e.wp + item.length ≤ s.cfg.txMax) :
    ∃ k, k ≤ 3 ∧ ∀ n, core.run (n + k) s =
      core.run n (emitted item { e with prev := 11, start := start, rp := stop } s) := by
  rw [optionBytes, optionItem, bytesFrom_length] at hitem
  split at hitem
  · rename_i dn dext ln lext hd hl
    obtain rfl : dext = [] := by
      obtain ⟨-, -, -, hnil⟩ | ⟨hge, -⟩ | ⟨hge, -⟩ := uvarEncode_cases hd
      · exact hnil
      · omega
      · omega
    cases hitem
    simp only [List.nil_append, List.length_cons, List.length_append, bytesFrom_length] at hfit
    have hhead := step_optionHead_emitted he hs (by rwa [hnext]) hd (by rwa [hnext]) (by omega)
    rw [hnext] at hhead
    obtain ⟨k, hk, htail⟩ := run_option_tail
      (s := emitted [joinNibbles dn ln] { e with stage := afterOptionHead ln, start := start, rp := stop } s) rfl rfl hl
      (by simp only [List.length_singleton, emitted]; omega)
    refine ⟨k + 1, by omega, fun n => ?_⟩
    rw [← Nat.add_assoc, run_succ hhead, htail, emitted_emitted rfl, hs]
    rfl
  · cases hitem

end Run

/-- From the head of the segment loop: the options of the segments to come, then the results (R150, R154 to R158). -/
theorem run_options {segs : List (List Byte)} {s : State} {e : EncRun} (he : s.engine = .msgenc e) (hs : e.stage = .options)
    (hrp : e.rp ≤ s.pathLen) (hsegs : segments (bytesFrom s.pathByte e.rp (s.pathLen - e.rp)) = segs) {opts : List Byte}
    (hopts : optionsBytes e.prev segs = some opts) (hfit : e.wp + opts.length ≤ s.cfg.txMax) :
    ∃ k, k ≤ 3 * segs.length + 1 ∧ core.run k s = .next (finishMsgenc (e.wp + opts.length) (emitted opts e s)) := by
  induction segs generalizing s e opts with
  | nil =>
    cases hopts
    obtain ⟨-, -, -, -, hcons⟩ := nextSegment_spec s e.rp hrp
    refine ⟨1, by simp, run_one (step_packetEnd he hs fun hlt => ?_)⟩
    simp [hcons hlt] at hsegs
  | cons seg segs ih =>
    obtain ⟨-, hstop, -, hnil, hcons⟩ := nextSegment_spec s e.rp hrp
    generalize hnext : nextSegment s e.rp = next at hstop hnil hcons
    obtain ⟨start, stop⟩ := next
    have hlt : start < s.pathLen := by
      by_contra hend
      simp [hnil hend] at hsegs
    obtain ⟨rfl, hrest⟩ := List.cons.inj ((hcons hlt).symm.trans hsegs)
    rw [optionsBytes] at hopts
    split at hopts
    · rename_i item rest hitem htail
      cases hopts
      rw [List.length_append] at hfit
      obtain ⟨k, hk, hrun⟩ := run_option he hs hnext hlt hitem (by omega)
      obtain ⟨n, hn, hrun'⟩ := ih (s := emitted item { e with prev := 11, start := start, rp := stop } s) rfl hs hstop
        hrest htail (by simp only [emitted]; omega)
      refine ⟨n + k, by rw [List.length_cons]; omega, ?_⟩
      rw [hrun, hrun', emitted_emitted rfl, List.length_append, ← Nat.add_assoc]
      rfl
    · cases hopts

/-- A MSGENC at the segment loop with nothing read of its path; its write index is yet to move past the header and the
token. -/
def EncRun.unread : EncRun := { stage := .options, rp := 0, wp := 0, prev := 0, start := 0 }

/-- The first two steps of a MSGENC emit the header and the token (R152, R153). -/
theorem run_header_token {s : State} (hfit : 4 + s.tokenSource.length ≤ s.cfg.txMax) (n : Nat) :
    core.run (n + 2) (startMsgenc s) =
      core.run n (emitted (encode (.gethdr s.encTkl s.midSrc) ++ s.tokenSource) EncRun.unread s) := by
  have hheader : (0 : Nat) + (encode (.gethdr s.encTkl s.midSrc)).length ≤ s.cfg.txMax := (Nat.le_add_right 4 _).trans hfit
  rw [run_succ (step_header_emitted (s := startMsgenc s) rfl rfl hheader), run_succ (step_token_emitted rfl rfl hfit),
    emitted_emitted rfl]
  rfl

/-- MSGENC run item by item (R150): header, token, at most three items a segment, and the end. -/
theorem run_startMsgenc {s : State} {packet : List Byte}
    (hpacket : packetBytes s.encTkl s.midSrc s.tokenSource s.pathBytes = some packet) (hfit : packet.length ≤ s.cfg.txMax) :
    ∃ k, k ≤ 3 * s.pathLen + 3 ∧
      core.run k (startMsgenc s) = .next (finishMsgenc packet.length { s with tx := s.tx.writeBytes 0 packet }) := by
  unfold packetBytes at hpacket
  split at hpacket
  · rename_i opts hopts
    cases hpacket
    generalize hhead : encode (.gethdr s.encTkl s.midSrc) ++ s.tokenSource = head at hfit ⊢
    have hlen : head.length = 4 + s.tokenSource.length := by
      rw [← hhead, List.length_append]
      rfl
    rw [List.length_append] at hfit
    obtain ⟨k, hk, hrun⟩ := run_options (s := emitted head EncRun.unread s) rfl rfl (Nat.zero_le _) rfl hopts
      (by simp only [EncRun.unread, emitted]; omega)
    have hcount : (segments s.pathBytes).length ≤ s.pathLen := pathBytes_length s ▸ segments_count s.pathBytes
    refine ⟨k + 2, ?_, ?_⟩
    · change k ≤ 3 * (segments s.pathBytes).length + 1 at hk
      omega
    · rw [run_header_token (by omega), hhead, hrun, emitted_emitted rfl, List.length_append]
      simp only [EncRun.unread, Nat.zero_add]
      rfl
  · cases hpacket

/-- Settles O43: the options of the segments that the read index finds are the ones that the command emits at once, and
there are at most as many as path bytes. -/
theorem msgencItemRunEqualsCommand : Obligations.MsgencItemRunEqualsCommand := by
  intro s t _ htkl hpath hexec
  cases msgenc_effect hexec with
  | bad hl _ => simp [msgencLegal_iff.mpr ⟨htkl, hpath⟩] at hl
  | ends packet _ hpacket hfit ht => exact ht ▸ run_startMsgenc hpacket hfit

end Sys2Proof.Machine

namespace Sys2Proof.Machine

/-! # MessageDecoder

MSGDEC as a whole: a header that is refused, an option that fails, and how every MSGDEC ends. -/

/-! ## The header stage -/

/-- The version is the first header byte divided by 64 (R92). -/
theorem verOf_toNat (b : Byte) : (verOf b).toNat = b.toNat / 64 := by
  simp [verOf, Nat.shiftRight_eq_div_pow]
  omega

/-- The token length is its remainder by 16 (R92). -/
theorem tklOf_toNat (b : Byte) : (tklOf b).toNat = b.toNat % 16 := by
  simp [tklOf]

/-- A version other than 1 is refused first (R173). -/
theorem headerCheck_badVersion {ver : BitVec 2} (h : ver ≠ 1#2) (tkl : BitVec 4) (len : Nat) :
    headerCheck ver tkl len = some .invalidVersion :=
  if_pos h

/-- Then a token length above 8 (R174). -/
theorem headerCheck_badTokenLength {tkl : BitVec 4} (h : 8 < tkl.toNat) (len : Nat) :
    headerCheck 1#2 tkl len = some .invalidTokenLength := by
  rw [headerCheck, if_neg (not_not.mpr rfl), if_pos h]

/-- Then a token that is not there (R176). -/
theorem headerCheck_shortToken {tkl : BitVec 4} {len : Nat} (h8 : tkl.toNat ≤ 8) (h : len - 4 < tkl.toNat) :
    headerCheck 1#2 tkl len = some .truncatedBuffer := by
  rw [headerCheck, if_neg (not_not.mpr rfl), if_neg (Nat.not_lt.mpr h8), if_pos h]

/-- A datagram too short for a header (R172). -/
theorem decodeDatagram_short {s : State} (h : s.rxLen < 4) :
    decodeDatagram s = raise (.msgdec 0 0) .truncatedBuffer 0 { s with trace := [] } :=
  if_pos h

/-- A header that is refused (R173, R174, R176). -/
theorem decodeDatagram_badHeader {s : State} {k : ErrKind} (h4 : 4 ≤ s.rxLen)
    (h : headerCheck (verOf (s.rxByte 0)) (tklOf (s.rxByte 0)) s.rxLen = some k) :
    decodeDatagram s = raise (.msgdec 0 0) k 4 { s with trace := [] } := by
  rw [decodeDatagram, if_neg (Nat.not_lt.mpr h4)]
  simp only [h]
  rfl

/-- What MSGDEC captures of the header and the token (R175, R177). -/
def State.captured (s : State) : Captured where
  ver := verOf (s.rxByte 0)
  typ := typOf (s.rxByte 0)
  tkl := tklOf (s.rxByte 0)
  code := s.rxByte 1
  mid := be16 (s.rxByte 2) (s.rxByte 3)
  token := bytesFrom s.rxByte 4 (tklOf (s.rxByte 0)).toNat

/-- The end of a MSGDEC that has captured `c`, by the end of its walk (R188, R258). -/
def Walked.finish (c : Captured) (s : State) : Walked → State
  | .reached w => finishMsgdec c w (bytesFrom s.rxByte w.cur (s.rxLen - w.cur)) s
  | .failed k pos w => failMsgdec k pos w s

/-- A header that is accepted: the option walk decides (R175 to R188). -/
theorem decodeDatagram_of_header {s : State} (h4 : 4 ≤ s.rxLen)
    (h : headerCheck (verOf (s.rxByte 0)) (tklOf (s.rxByte 0)) s.rxLen = none) :
    decodeDatagram s = (walkFrom s.rxByte s.rxLen (4 + (tklOf (s.rxByte 0)).toNat)).finish s.captured s := by
  rw [decodeDatagram, if_neg (Nat.not_lt.mpr h4)]
  simp only [h]
  cases walkFrom s.rxByte s.rxLen (4 + (tklOf (s.rxByte 0)).toNat) <;> rfl

/-- Settles O16: RXLEN is looked at first, and nothing is decoded (R171). -/
theorem msgdecRefusesIllegalLength : Obligations.MsgdecRefusesIllegalLength := by
  intro s hmax
  exact ⟨_, exec_msgdec_of_not_le (Nat.not_le.mpr hmax), err_raise _ _ _ _, rfl, rfl, valid_raise_same rfl _ _ _, rfl, rfl,
    rfl, rfl, ⟨rfl, rfl, rfl, rfl, rfl, rfl, rfl⟩, rfl, rfl⟩

/-- Settles O17: a header that cannot be read, then the three checks in their order. -/
theorem msgdecHeaderFailures : Obligations.MsgdecHeaderFailures := by
  intro s hmax
  dsimp only
  simp only [exec_msgdec_of_le hmax, ← verOf_toNat, ← tklOf_toNat]
  have hver : (verOf (s.rxByte 0)).toNat = 1 ↔ verOf (s.rxByte 0) = 1#2 := BitVec.toNat_inj (y := 1#2)
  rw [ne_eq, hver]
  refine ⟨fun h => by rw [decodeDatagram_short h], fun h4 hv => ?version, fun h4 hv h8 => ?tokenLength,
    fun h4 hv h8 h => ?token⟩
  case version => rw [decodeDatagram_badHeader h4 (headerCheck_badVersion hv _ _)]
  case tokenLength => rw [decodeDatagram_badHeader h4 (hv ▸ headerCheck_badTokenLength h8 _)]
  case token => rw [decodeDatagram_badHeader h4 (hv ▸ headerCheck_shortToken h8 h)]

/-! ## Well-formed options -/

/-- Every delta is at most 65804 (R100). -/
theorem optsLast_le {os : List Opt} (hos : os.all Opt.wf = true) : optsLast 0 os ≤ 65804 * os.length := by
  have hdelta : ∀ n ∈ os.map Opt.delta, n ≤ 65804 := by
    simp only [List.all_eq_true, Opt.wf, Bool.and_eq_true, decide_eq_true_eq] at hos
    simp only [List.mem_map, forall_exists_index, and_imp, forall_apply_eq_imp_iff₂]
    exact fun o ho => (hos o ho).1
  have hsum := List.sum_le_card_nsmul _ _ hdelta
  rw [List.length_map, smul_eq_mul] at hsum
  rw [optsLast, Nat.zero_add, Nat.mul_comm]
  exact hsum

/-- Options in a legal RXBUF, and a delta after them, do not exceed OPT_LAST (R58). -/
theorem optsLast_lt {p : Config.Params} (hp : p.legal = true) {os : List Opt} (hos : os.all Opt.wf = true)
    (hlen : (optsBytes os).length ≤ p.rxMax) {delta : Nat} (hdelta : delta ≤ 65804) : optsLast 0 os + delta < 2 ^ 32 := by
  obtain ⟨hmax, -, -⟩ := legal_bounds hp
  have hlast := optsLast_le hos
  have hcount := length_le_optsBytes hos
  omega

/-- What well-formedness of a datagram says. -/
theorem Datagram.wf_iff {d : Datagram} : d.wf = true ↔ d.token.length ≤ 8 ∧ d.opts.all Opt.wf = true := by
  simp [Datagram.wf]

/-- Settles O18: the walk takes the options one by one and stops at the payload. -/
theorem msgdecDecodesWellFormedDatagrams : Obligations.MsgdecDecodesWellFormedDatagrams := by
  intro s d hwf hd hmax
  refine ⟨fun bs hbs => hbs.datagram_eq, fun hlegal => ?width, ?result⟩
  case width =>
    obtain ⟨hlen, -⟩ := HoldsAt.of_bytesFrom hd
    rw [Datagram.bytes_length, List.length_append] at hlen
    exact optsLast_lt hlegal (Datagram.wf_iff.mp hwf).2 (by omega) (Nat.zero_le _)
  case result => rw [exec_msgdec_of_le hmax, decodeDatagram_of_bytes hwf hd]

/-! ## One option of the walk, case by case -/

/-- The walk ends at the end of the buffer (R178). -/
theorem walkOptions_end {len : Nat} {w : WalkState} (h : len ≤ w.cur) (rd : Nat → Byte) (n : Nat) :
    walkOptions rd len n w = .reached w := by
  cases n with
  | zero => rfl
  | succ n => exact if_neg (Nat.not_lt.mpr h)

/-- The walk ends past a MARK (R179). -/
theorem walkOptions_mark {rd : Nat → Byte} {len : Nat} {w : WalkState} (hlt : w.cur < len) (hmark : rd w.cur = 0xFF#8)
    (n : Nat) : walkOptions rd len (n + 1) w = .reached { w with cur := w.cur + 1 } := by
  rw [walkOptions, if_pos hlt, if_pos hmark]

section OneOption

variable {rd : Nat → Byte} {len : Nat} {w : WalkState} (hlt : w.cur < len) (hmark : rd w.cur ≠ 0xFF#8)
include hlt hmark

/-- The walk ends where a delta fails (R181, R182). -/
theorem walkOptions_deltaFails {k : ErrKind} (hd : uvarDecode (hiNibble (rd w.cur)) rd (w.cur + 1) len = .error k) (n : Nat) :
    walkOptions rd len (n + 1) w = .failed k (w.cur + 1) w := by
  simp only [walkOptions, if_pos hlt, if_neg hmark, hd]

section Delta

variable {delta c1 : Nat} (hd : uvarDecode (hiNibble (rd w.cur)) rd (w.cur + 1) len = .ok (delta, c1))
include hd

/-- The walk ends where a length fails, its delta not added (R183). -/
theorem walkOptions_lengthFails {k : ErrKind} (hl : uvarDecode (loNibble (rd w.cur)) rd c1 len = .error k) (n : Nat) :
    walkOptions rd len (n + 1) w = .failed k c1 w := by
  simp only [walkOptions, if_pos hlt, if_neg hmark, hd, hl]

variable {length c2 : Nat} (hl : uvarDecode (loNibble (rd w.cur)) rd c1 len = .ok (length, c2))
include hl

/-- The walk ends where a value does not fit, its delta added (R184, R185). -/
theorem walkOptions_valueFails (hv : len - c2 < length) (n : Nat) :
    walkOptions rd len (n + 1) w = .failed .truncatedBuffer c2 { w with last := w.last + delta } := by
  simp only [walkOptions, if_pos hlt, if_neg hmark, hd, hl, if_pos hv]

/-- The walk goes on behind a value that fits (R186, R187). -/
theorem walkOptions_accepts (hv : ¬ len - c2 < length) (n : Nat) :
    walkOptions rd len (n + 1) w =
      walkOptions rd len n
        { cur := c2 + length, last := w.last + delta, cnt := w.cnt + 1,
          trace := w.trace ++ [{ num := w.last + delta, off := c2, length := length }] } := by
  simp only [walkOptions, if_pos hlt, if_neg hmark, hd, hl, if_neg hv]

end Delta

end OneOption

/-! ## The first option that fails -/

/-- A byte that stands at an index. -/
theorem HoldsAt.getD {rd : Nat → Byte} {c fin : Nat} {bs : List Byte} (h : HoldsAt rd c fin bs) {i : Nat}
    (hi : i < bs.length) : rd (c + i) = bs.getD i 0 := by
  have hbyte := bytesFrom_getElem? rd c bs.length i hi
  rw [h.1] at hbyte
  rw [List.getD, hbyte, Option.getD_some]

/-- An extended value depends on the extension bytes of its class alone (R98, R100). -/
theorem extValue_congr {nib : Nibble} {a b a' b' : Byte} (ha : 0 < (nibClass nib).extBytes → a = a')
    (hb : 1 < (nibClass nib).extBytes → b = b') : extValue nib a b = extValue nib a' b' := by
  unfold extValue
  split
  · rfl
  · rename_i hc
    rw [ha (by rw [hc]; decide)]
  · rename_i hc
    rw [ha (by rw [hc]; decide), hb (by rw [hc]; decide)]
  · rfl

/-- An extended value is at most 65804 (R100). -/
theorem extValue_getD_le (nib : Nibble) (a b : Byte) : (extValue nib a b).getD 0 ≤ 65804 := by
  have hab := (be16 a b).isLt
  unfold extValue
  split <;> simp only [Option.getD_some, Option.getD_none] <;> omega

/-- UvarDecode among bytes that stand in the buffer: the value of the nibble and the bytes after it (R131). -/
theorem uvarDecode_of_holdsAt {rd : Nat → Byte} {c fin : Nat} {bs : List Byte} (h : HoldsAt rd c fin bs) {nib : Nibble}
    (hne : nib ≠ 15#4) {i : Nat} (hfit : ¬ bs.length < i + (nibClass nib).extBytes) :
    uvarDecode nib rd (c + i) fin =
      .ok ((extValue nib (bs.getD i 0) (bs.getD (i + 1) 0)).getD 0, c + (i + (nibClass nib).extBytes)) := by
  have hle := h.2
  have hvalue : extValue nib (rd (c + i)) (rd (c + i + 1)) = extValue nib (bs.getD i 0) (bs.getD (i + 1) 0) :=
    extValue_congr (fun _ => h.getD (by omega)) (fun _ => h.getD (i := i + 1) (by omega))
  rw [uvarDecode_eq, if_neg hne, if_neg (by omega), hvalue, Nat.add_assoc]

/-- The walk ends where an option fails, its delta added if both nibbles had decoded (R181 to R185, R251). -/
theorem walkOptions_optionFailure {rd : Nat → Byte} {len : Nat} {w : WalkState} {rest : List Byte}
    (h : HoldsAt rd w.cur len rest) (hend : w.cur + rest.length = len) {k : ErrKind} {off delta : Nat}
    (hfail : optionFailure rest = some (k, off, delta)) (n : Nat) :
    walkOptions rd len (n + 1) w = .failed k (w.cur + off) { w with last := w.last + delta } := by
  cases rest with
  | nil => cases hfail
  | cons head more =>
    obtain ⟨rfl, hlt, hmore⟩ := h.cons
    rw [List.length_cons] at hend
    have hdelta := uvarDecode_of_holdsAt hmore (nib := hiNibble (rd w.cur)) (i := 0)
    have hlength := uvarDecode_of_holdsAt hmore (nib := loNibble (rd w.cur)) (i := (nibClass (hiNibble (rd w.cur))).extBytes)
    simp only [Nat.zero_add, Nat.add_zero] at hdelta
    simp only [optionFailure] at hfail
    split_ifs at hfail with hmark hdres hdshort hlres hlshort hvalue
    all_goals
      simp only [Option.some.injEq, Prod.mk.injEq] at hfail
      obtain ⟨rfl, rfl, rfl⟩ := hfail
    · exact walkOptions_deltaFails hlt hmark (by rw [hdres, uvarDecode_reserved]) n
    · exact walkOptions_deltaFails hlt hmark (uvarDecode_truncated (by omega) rd) n
    · rw [walkOptions_lengthFails hlt hmark (hdelta hdres hdshort) (by rw [hlres, uvarDecode_reserved]), Nat.add_assoc]
      rfl
    · rw [walkOptions_lengthFails hlt hmark (hdelta hdres hdshort) (uvarDecode_truncated (by omega) rd), Nat.add_assoc]
      rfl
    · rw [walkOptions_valueFails hlt hmark (hdelta hdres hdshort) (hlength hlres hlshort) (by omega), Nat.add_assoc,
        Nat.add_assoc 1]

/-- How large a delta an option that fails can have added (R100). -/
theorem optionFailure_delta_le {rest : List Byte} {k : ErrKind} {off delta : Nat}
    (h : optionFailure rest = some (k, off, delta)) : delta ≤ 65804 := by
  cases rest with
  | nil => cases h
  | cons head more =>
    simp only [optionFailure] at h
    split_ifs at h
    all_goals
      simp only [Option.some.injEq, Prod.mk.injEq] at h
      obtain ⟨-, -, rfl⟩ := h
    · exact Nat.zero_le _
    · exact Nat.zero_le _
    · exact Nat.zero_le _
    · exact Nat.zero_le _
    · exact extValue_getD_le _ _ _

/-- The walk over well-formed options and then one that fails (R178 to R187). -/
theorem walkFrom_optionFailure {rd : Nat → Byte} {start len : Nat} {os : List Opt} {rest : List Byte}
    (hos : os.all Opt.wf = true) (h : HoldsAt rd start len (optsBytes os ++ rest))
    (hend : start + (optsBytes os ++ rest).length = len) (hstart : 0 < start)
    {k : ErrKind} {off delta : Nat} (hfail : optionFailure rest = some (k, off, delta)) :
    walkFrom rd len start =
      .failed k (start + (optsBytes os).length + off)
        { cur := start + (optsBytes os).length, last := optsLast 0 os + delta, cnt := os.length,
          trace := optsTrace start 0 os } := by
  obtain ⟨hopts, hrest⟩ := h.append
  rw [List.length_append] at hend
  have hle := length_le_optsBytes hos
  have hfuel : len - os.length - 1 + 1 + os.length = len := by omega
  have hwalk := walkOptions_opts hos (w := { cur := start, last := 0, cnt := 0, trace := [] }) hopts (len - os.length - 1 + 1)
  rw [hfuel, walkOptions_optionFailure hrest (by simp only [WalkState.after]; omega) hfail] at hwalk
  simpa [walkFrom, WalkState.after] using hwalk

/-- Settles O19: the walk takes the options before it, and ends at the one that fails. -/
theorem msgdecOptionFailures : Obligations.MsgdecOptionFailures := by
  intro s d rest k off delta hwf hnone hd hmax hfail
  obtain ⟨htoken, hopts⟩ := Datagram.wf_iff.mp hwf
  have htkl := Datagram.tkl_toNat htoken
  have hbytes : d.bytes = encode (.hdr d.typ d.tkl d.code d.mid) ++ d.token ++ optsBytes d.opts := by
    rw [Datagram.bytes, hnone, tailBytes, List.append_nil]
  have hdlen : d.bytes.length = 4 + d.token.length + (optsBytes d.opts).length := by
    rw [hbytes, List.length_append, List.length_append]
    rfl
  obtain ⟨hlen, hholds⟩ := HoldsAt.of_bytesFrom hd
  rw [List.length_append] at hlen
  obtain ⟨⟨h0, -⟩, -, -⟩ := hholds.append.1.datagram
  rw [hbytes, List.append_assoc, List.append_assoc] at hholds
  refine ⟨fun hlegal => optsLast_lt hlegal hopts (by omega) (optionFailure_delta_le hfail), ?_⟩
  have hcheck : headerCheck 1#2 d.tkl s.rxLen = none := headerCheck_eq_none (by omega) (by omega)
  have hrest : HoldsAt s.rxByte (4 + d.token.length) s.rxLen (optsBytes d.opts ++ rest) := hholds.append.2.append.2
  have hwalk := walkFrom_optionFailure hopts hrest (by rw [List.length_append]; omega) (by omega) hfail
  rw [exec_msgdec_of_le hmax, decodeDatagram_of_header (by omega) (by rwa [h0, verOf_pack, tklOf_pack]), h0, tklOf_pack, htkl,
    hwalk, hdlen]
  rfl

/-! ## How MSGDEC ends -/

/-- The codes of the kinds MSGDEC raises at a cursor (R240). -/
theorem ErrKind.AtCursor.code_mem {k : ErrKind} (h : k.AtCursor) : k.code ∈ [1#4, 2#4, 3#4, 4#4, 5#4] := by
  obtain ⟨hcmd, hparam, hrange⟩ := h
  cases k with
  | badCommand => exact absurd rfl hcmd
  | badParam => exact absurd rfl hparam
  | uvarRange => exact absurd rfl hrange
  | _ => decide

/-- A success ends with DONE (R259). -/
theorem done_succeed (f : ValidFlag) (s : State) : (succeed f s).done = true := (statusSucceed_bits f s.status).1

/-- So does a failure (R255). -/
theorem done_raise (c : Failing) (k : ErrKind) (pos : Nat) (s : State) : (raise c k pos s).done = true :=
  (statusFail_report c.flag s.status).1

/-- Where the option walk stops at the payload (R178, R179, R187). -/
theorem walkFrom_reached {rd : Nat → Byte} {len start : Nat} {w : WalkState} (hstart : start ≤ len)
    (h : walkFrom rd len start = .reached w) : start ≤ w.cur ∧ w.cur ≤ len ∧ w.cnt = w.trace.length := by
  have hok := walkOptions_ok rd len len { cur := start, last := 0, cnt := 0, trace := [] } hstart rfl
  rw [← walkFrom, h] at hok
  exact hok

/-- Settles O20: the effect of MSGDEC is a decode failure or a full result. -/
theorem msgdecIsTotal : Obligations.MsgdecIsTotal := by
  intro s hmax
  have hexec := exec_msgdec_of_le hmax
  refine ⟨decodeDatagram s, hexec, ?_⟩
  cases msgdec_effect hexec with
  | bad hl _ => omega
  | fails k pos w _ hcnt hpos hk ht =>
    rw [ht, failMsgdec]
    exact ⟨rfl, done_raise _ _ _ _, .inr ⟨err_raise _ _ _ _, valid_raise_same rfl _ _ _, hk.code_mem, hpos⟩,
      by simpa [zeroResults] using hcnt⟩
  | ends w _ hver htkl hfit hwalk ht =>
    obtain ⟨hlo, hhi, hcnt⟩ := walkFrom_reached hfit hwalk
    rw [ht, finishMsgdec]
    exact ⟨rfl, done_succeed _ _, .inl ⟨err_succeed _ _, valid_succeed_same _ _, rfl, hver, htkl, hlo,
      Nat.add_sub_cancel' hhi, bytesFrom_length _ _ _⟩, hcnt⟩

end Sys2Proof.Machine

namespace Sys2Proof.Machine

/-! # MessageDecoder, item by item

What a running MSGDEC fetches at each stage and what the item does; then that the items of the option loop together do
what the walk does. -/

/-! ## The items -/

section Msgdec

variable {s : State} {d : DecRun} (he : s.engine = .msgdec d)
include he

/-- A header that is accepted is captured, and the token comes next (R175). -/
theorem takeHeader_of_none (hs : d.stage = .header) {ver typ : BitVec 2} {tkl : BitVec 4} (code : BitVec 8) (mid : BitVec 16)
    (h : headerCheck ver tkl s.rxLen = none) :
    takeHeader ver typ tkl code mid s =
      .next
        { s with
          engine :=
            .msgdec { d with stage := .token, cur := 4, ver := ver, typ := typ, tkl := tkl, code := code, mid := mid } } := by
  simp only [takeHeader, he, hs, h]

/-- A header that is refused ends MSGDEC (R173, R174, R176). -/
theorem takeHeader_of_some (hs : d.stage = .header) {ver typ : BitVec 2} {tkl : BitVec 4} (code : BitVec 8) (mid : BitVec 16)
    {k : ErrKind} (h : headerCheck ver tkl s.rxLen = some k) :
    takeHeader ver typ tkl code mid s = .next (raise (.msgdec d.last d.cnt) k 4 s) := by
  simp only [takeHeader, he, hs, h, failRun]

/-- TOKEN taken (R177). -/
theorem exec_token_taken (hs : d.stage = .token) (bytes : List Byte) :
    exec (.token bytes) s =
      .next { s with engine := .msgdec { d with stage := .option, token := bytes, cur := d.cur + bytes.length } } := by
  simp only [exec, execToken, he, takeToken, hs]

/-- MARK taken (R179). -/
theorem exec_mark (hs : d.stage = .option) :
    exec .mark s = .next { s with engine := .msgdec { d with stage := .payload, cur := d.cur + 1 } } := by
  simp only [exec, execMark, he, hs]

/-- A well-formed option header byte taken (R180, R182). -/
theorem exec_opt_taken (hs : d.stage = .option) (dn ln : Nibble) :
    exec (.opt dn ln) s = .next { s with engine := .msgdec { d with stage := .delta dn ln, cur := d.cur + 1 } } := by
  simp only [exec, execOpt, he, takeOptionHead, hs]

/-- One with length nibble 15 is taken too: its delta is decoded first (R182, R183). -/
theorem exec_optLrsvd (hs : d.stage = .option) (dn : Nibble) :
    exec (.optLrsvd dn) s = .next { s with engine := .msgdec { d with stage := .delta dn 15#4, cur := d.cur + 1 } } := by
  simp only [exec, execOptLrsvd, he, takeOptionHead, hs]

/-- One with delta nibble 15 ends MSGDEC (R181). -/
theorem exec_optDrsvd (hs : d.stage = .option) (ln : Nibble) :
    exec (.optDrsvd ln) s = .next (raise (.msgdec d.last d.cnt) .reservedNibble (d.cur + 1) s) := by
  simp only [exec, execOptDrsvd, he, hs, failRun]

/-- A value that fits is skipped, and its option accepted (R186). -/
theorem exec_value_of_fits (hs : d.stage = .value) (hfit : ¬ s.rxLen - d.cur < d.length) (bytes : List Byte) :
    exec (.value bytes) s =
      .next
        { s with
          trace := s.trace ++ [{ num := d.last, off := d.cur, length := d.length }],
          engine := .msgdec { d with stage := .option, cur := d.cur + d.length, cnt := d.cnt + 1 } } := by
  simp only [exec, execValue, he, takeValue, hs, if_neg hfit]

/-- A value that does not fit ends MSGDEC (R185). -/
theorem exec_value_of_short (hs : d.stage = .value) (hshort : s.rxLen - d.cur < d.length) (bytes : List Byte) :
    exec (.value bytes) s = .next (raise (.msgdec d.last d.cnt) .truncatedBuffer d.cur s) := by
  simp only [exec, execValue, he, takeValue, hs, if_pos hshort, failRun]

/-- What a running MSGDEC has captured. -/
def DecRun.captured (d : DecRun) : Captured where
  ver := d.ver
  typ := d.typ
  tkl := d.tkl
  code := d.code
  mid := d.mid
  token := d.token

/-- How far the option walk of a running MSGDEC is (R190). -/
def DecRun.walk (d : DecRun) (s : State) : WalkState where
  cur := d.cur
  last := d.last
  cnt := d.cnt
  trace := s.trace

/-- PAYLOAD ends MSGDEC in success (R188). -/
theorem exec_payload (hs : d.stage = .payload) (bytes : List Byte) :
    exec (.payload bytes) s = .next (finishMsgdec d.captured (d.walk s) bytes s) := by
  simp only [exec, execPayload, he, hs]
  rfl

end Msgdec

/-- Settles O28: the item's own fields decide which of the three checks refuses the header. -/
theorem headerItems : Obligations.HeaderItems := by
  intro s d ver typ tkl code mid he hs
  exact ⟨fun h8 hfit => takeHeader_of_none he hs _ _ (headerCheck_eq_none h8 hfit),
    fun h8 hshort _ => takeHeader_of_some he hs _ _ (headerCheck_shortToken h8 (by omega)),
    fun hver => takeHeader_of_some he hs _ _ (headerCheck_badVersion hver _ _),
    fun h8 => takeHeader_of_some he hs _ _ (headerCheck_badTokenLength h8 _)⟩

/-- Settles O30: MSGDEC keeps the bytes, MSGENC emits them. -/
theorem tokenItem : Obligations.TokenItem :=
  fun _ bytes => ⟨fun _ he hs => exec_token_taken he hs bytes, fun _ he hs hfit => exec_token_emitted he hs hfit⟩

/-- Settles O31: the four items at an option header position. -/
theorem optionHeadItems : Obligations.OptionHeadItems :=
  fun _ _ dn ln he hs => ⟨exec_mark he hs, exec_opt_taken he hs dn ln, exec_optLrsvd he hs dn, exec_optDrsvd he hs ln⟩

/-- Settles O36: whether the value fits decides; the payload is what it is given. -/
theorem valueAndPayloadItems : Obligations.ValueAndPayloadItems :=
  fun _ _ bytes he =>
    ⟨fun hs hfit => exec_value_of_fits he hs (Nat.not_lt.mpr hfit) bytes,
      fun hs hshort => exec_value_of_short he hs hshort bytes, fun hs => exec_payload he hs bytes⟩

/-! ## What is fetched -/

section Fetch

variable {s : State} {d : DecRun} (he : s.engine = .msgdec d)
include he

/-- A running MSGDEC fetches what its stage asks. -/
theorem fetch_msgdec : fetch s = fetchMsgdec d s := by
  simp only [fetch, he]

/-- A header that is there is fetched (R172). -/
theorem fetch_header (hs : d.stage = .header) (h4 : 4 ≤ s.rxLen) :
    fetch s = .bytes .header [s.rxByte 0, s.rxByte 1, s.rxByte 2, s.rxByte 3] := by
  rw [fetch_msgdec he]
  simp only [fetchMsgdec, hs, if_neg (Nat.not_lt.mpr h4)]
  rfl

/-- The token is fetched (R177). -/
theorem fetch_token (hs : d.stage = .token) :
    fetch s = .bytes (.token d.tkl.toNat) (bytesFrom s.rxByte d.cur d.tkl.toNat) := by
  rw [fetch_msgdec he]
  simp only [fetchMsgdec, hs]

/-- The byte at an option header position is fetched (R178). -/
theorem fetch_option (hs : d.stage = .option) (hlt : d.cur < s.rxLen) : fetch s = .bytes .optionHead [s.rxByte d.cur] := by
  rw [fetch_msgdec he]
  simp only [fetchMsgdec, hs, if_pos hlt]

/-- The nibble of a delta is fetched from the option header byte (R182). -/
theorem fetch_delta {dn ln : Nibble} (hs : d.stage = .delta dn ln) : fetch s = .bytes .nibble [joinNibbles 0#4 dn] := by
  rw [fetch_msgdec he]
  simp only [fetchMsgdec, hs]

/-- And so is that of a length (R183). -/
theorem fetch_length {ln : Nibble} (hs : d.stage = .length ln) : fetch s = .bytes .nibble [joinNibbles 0#4 ln] := by
  rw [fetch_msgdec he]
  simp only [fetchMsgdec, hs]

/-- The bytes of a value are fetched, as many as are there (R185, R186). -/
theorem fetch_value (hs : d.stage = .value) :
    fetch s =
      .bytes (.value (min d.length (s.rxLen - d.cur))) (bytesFrom s.rxByte d.cur (min d.length (s.rxLen - d.cur))) := by
  rw [fetch_msgdec he]
  simp only [fetchMsgdec, hs]

/-- The payload is fetched (R188). -/
theorem fetch_payload (hs : d.stage = .payload) : fetch s = .bytes .payload (bytesFrom s.rxByte d.cur (s.rxLen - d.cur)) := by
  rw [fetch_msgdec he]
  simp only [fetchMsgdec, hs]

/-- At the end of the buffer the option loop ends without an item (R178). -/
theorem step_optionsEnd (hs : d.stage = .option) (hend : s.rxLen ≤ d.cur) :
    step s = .next { s with engine := .msgdec { d with stage := .payload } } := by
  have hfetch : fetch s = .optionsEnd := by
    rw [fetch_msgdec he]
    simp only [fetchMsgdec, hs, if_neg (Nat.not_lt.mpr hend)]
  simp only [step_running (s := s) (by simp [he]), engineStep, hfetch, endOptions, he]

/-- A header that is not there ends MSGDEC (R172). -/
theorem step_headerShort (hs : d.stage = .header) (hshort : s.rxLen < 4) :
    step s = .next (raise (.msgdec d.last d.cnt) .truncatedBuffer 0 s) := by
  have hfetch : fetch s = .headerShort := by
    rw [fetch_msgdec he]
    simp only [fetchMsgdec, hs, if_pos hshort]
  simp only [step_running (s := s) (by simp [he]), engineStep, hfetch, shortHeader, he, failRun]

end Fetch

/-- A nibble as a byte whose high half is 0. -/
theorem joinNibbles_zero (nib : Nibble) : joinNibbles 0#4 nib = BitVec.ofNat 8 nib.toNat := by
  rw [joinNibbles_eq_ofNat, BitVec.toNat_ofNat, Nat.zero_mod, Nat.mul_zero, Nat.zero_add]

/-- Settles O39: stage by stage; at the extension stages a UvarDecode waits for its extension. -/
theorem fetchReadsTheDatagramAtTheCursor : Obligations.FetchReadsTheDatagramAtTheCursor := by
  intro s d he
  simp only [← joinNibbles_zero]
  exact ⟨fetch_header he, fetch_option he, step_optionsEnd he, fun _ _ hs => fetch_delta he hs,
    fun _ hs => fetch_length he hs,
    fun _ hs => fetch_ext (uvarPos_deltaExt he hs), fun _ hs => fetch_ext (uvarPos_deltaExt he hs),
    fun hs => fetch_ext (uvarPos_lengthExt he hs), fun hs => fetch_ext (uvarPos_lengthExt he hs), fetch_token he,
    fun _ hn hs => hn ▸ fetch_value he hs, fetch_payload he, step_headerShort he⟩

end Sys2Proof.Machine

namespace Sys2Proof.Machine

/-! ## Runs of steps -/

/-- `s` runs to `t` in at most `m` steps. -/
def RunsIn (m : Nat) (s t : State) : Prop := ∃ k, k ≤ m ∧ core.run k s = .next t

/-- One step. -/
theorem RunsIn.of_step {s t : State} (h : step s = .next t) : RunsIn 1 s t := ⟨1, Nat.le_refl 1, run_one h⟩

/-- A run that has reached `t` goes on as one from `t`. -/
theorem run_add_of_run {k : Nat} {s t : State} (h : core.run k s = .next t) (n : Nat) : core.run (n + k) s = core.run n t := by
  induction k generalizing s with
  | zero => rw [Nat.add_zero, next_inj h]
  | succ k ih =>
    simp only [Host.Core.run] at h ⊢
    split at h
    · exact ih h
    · cases h
    · cases h

/-- One run after another. -/
theorem RunsIn.trans {m n : Nat} {s t u : State} (hst : RunsIn m s t) (htu : RunsIn n t u) : RunsIn (m + n) s u := by
  obtain ⟨k, hk, hst⟩ := hst
  obtain ⟨l, hl, htu⟩ := htu
  exact ⟨l + k, by omega, (run_add_of_run hst l).trans htu⟩

/-- A looser bound. -/
theorem RunsIn.mono {m n : Nat} {s t : State} (h : RunsIn m s t) (hmn : m ≤ n) : RunsIn n s t := by
  obtain ⟨k, hk, h⟩ := h
  exact ⟨k, hk.trans hmn, h⟩

/-! ## One step of a running MSGDEC -/

section Step

variable {s : State} {d : DecRun} (he : s.engine = .msgdec d)
include he

/-- A running MSGDEC executes what it fetches. -/
theorem step_msgdec_takes {slot : Slot} {bs rest : List Byte} {i : Instr} (hf : fetch s = .bytes slot bs)
    (hd : decode slot bs = .ok i rest) : step s = exec i s :=
  step_takes (by simp [he]) hf hd

/-- The header of a datagram is taken (R175). -/
theorem step_header (hs : d.stage = .header) (h4 : 4 ≤ s.rxLen) :
    step s =
      takeHeader (verOf (s.rxByte 0)) (typOf (s.rxByte 0)) (tklOf (s.rxByte 0)) (s.rxByte 1)
        (be16 (s.rxByte 2) (s.rxByte 3)) s :=
  (step_msgdec_takes he (fetch_header he hs h4) rfl).trans (exec_decodeHdr _ _ _ _ s)

/-- The token is taken (R177). -/
theorem step_token (hs : d.stage = .token) (h8 : d.tkl.toNat ≤ 8) :
    step s =
      .next
        { s with
          engine :=
            .msgdec
              { d with stage := .option, token := bytesFrom s.rxByte d.cur d.tkl.toNat, cur := d.cur + d.tkl.toNat } } := by
  have hdecode := decode_token (bs := bytesFrom s.rxByte d.cur d.tkl.toNat) (by rwa [bytesFrom_length])
  rw [bytesFrom_length] at hdecode
  rw [step_msgdec_takes he (fetch_token he hs) hdecode, exec_token_taken he hs, bytesFrom_length]

/-- A MARK is taken (R179). -/
theorem step_mark (hs : d.stage = .option) (hlt : d.cur < s.rxLen) (hmark : s.rxByte d.cur = 0xFF#8) :
    step s = .next { s with engine := .msgdec { d with stage := .payload, cur := d.cur + 1 } } := by
  rw [step_msgdec_takes he (fetch_option he hs hlt) rfl, decodeOpth, if_pos hmark, exec_mark he hs]

/-- An option header byte is taken, unless its delta nibble is 15 (R180 to R182). -/
theorem step_optionHead (hs : d.stage = .option) (hlt : d.cur < s.rxLen) (hmark : s.rxByte d.cur ≠ 0xFF#8) :
    step s =
      if hiNibble (s.rxByte d.cur) = 15#4 then .next (raise (.msgdec d.last d.cnt) .reservedNibble (d.cur + 1) s)
      else
        .next
          { s with
            engine :=
              .msgdec
                { d with stage := .delta (hiNibble (s.rxByte d.cur)) (loNibble (s.rxByte d.cur)), cur := d.cur + 1 } } := by
  rw [step_msgdec_takes he (fetch_option he hs hlt) rfl, decodeOpth, if_neg hmark]
  split
  · rw [exec_optDrsvd he hs]
  · split
    · rename_i hln
      rw [exec_optLrsvd he hs, hln]
    · rw [exec_opt_taken he hs]

/-- A value is looked at (R185, R186). -/
theorem step_value (hs : d.stage = .value) (hlength : d.length ≤ 65804) :
    ∃ bytes, step s = exec (.value bytes) s := by
  have hdecode := decode_value (bs := bytesFrom s.rxByte d.cur (min d.length (s.rxLen - d.cur)))
    (by rw [bytesFrom_length]; exact (Nat.min_le_left _ _).trans hlength)
  rw [bytesFrom_length] at hdecode
  exact ⟨_, step_msgdec_takes he (fetch_value he hs) hdecode⟩

/-- The payload is taken (R188). -/
theorem step_payload (hs : d.stage = .payload) :
    step s = .next ((Walked.reached (d.walk s)).finish d.captured s) :=
  (step_msgdec_takes he (fetch_payload he hs) rfl).trans (exec_payload he hs _)

end Step

/-! ## The run over the options -/

section Run

variable {s : State} {d : DecRun} (he : s.engine = .msgdec d)
include he

/-- The items of a delta do what its UvarDecode does (R182). -/
theorem run_delta {dn ln : Nibble} (hs : d.stage = .delta dn ln) {v c : Nat}
    (h : uvarDecode dn s.rxByte d.cur s.rxLen = .ok (v, c)) :
    RunsIn 2 s { s with engine := .msgdec { d with delta := v, cur := c, stage := .length ln } } := by
  have hrun := run_uvarDecode_ok (uvarPos_msgdec_nibble he (.inl ⟨dn, ln, hs⟩)) (fetch_delta he hs) h
  rwa [deliver_delta he (.inl ⟨dn, hs⟩)] at hrun

/-- A delta that fails ends MSGDEC. -/
theorem run_delta_fails {dn ln : Nibble} (hs : d.stage = .delta dn ln) {k : ErrKind}
    (h : uvarDecode dn s.rxByte d.cur s.rxLen = .error k) : RunsIn 1 s (raise (.msgdec d.last d.cnt) k d.cur s) := by
  have hrun := run_uvarDecode_error (uvarPos_msgdec_nibble he (.inl ⟨dn, ln, hs⟩)) (fetch_delta he hs) h
  rw [uvarRaise_msgdec he] at hrun
  exact ⟨1, Nat.le_refl 1, hrun⟩

/-- The items of a length do what its UvarDecode does (R183, R184). -/
theorem run_length {ln : Nibble} (hs : d.stage = .length ln) {v c : Nat}
    (h : uvarDecode ln s.rxByte d.cur s.rxLen = .ok (v, c)) :
    RunsIn 2 s { s with engine := .msgdec { d with length := v, cur := c, last := d.last + d.delta, stage := .value } } := by
  have hrun := run_uvarDecode_ok (uvarPos_msgdec_nibble he (.inr ⟨ln, hs⟩)) (fetch_length he hs) h
  rwa [deliver_length he (.inl ⟨ln, hs⟩)] at hrun

/-- A length that fails ends MSGDEC, its delta not added. -/
theorem run_length_fails {ln : Nibble} (hs : d.stage = .length ln) {k : ErrKind}
    (h : uvarDecode ln s.rxByte d.cur s.rxLen = .error k) : RunsIn 1 s (raise (.msgdec d.last d.cnt) k d.cur s) := by
  have hrun := run_uvarDecode_error (uvarPos_msgdec_nibble he (.inr ⟨ln, hs⟩)) (fetch_length he hs) h
  rw [uvarRaise_msgdec he] at hrun
  exact ⟨1, Nat.le_refl 1, hrun⟩

/-- A value that fits is skipped (R186). -/
theorem run_value (hs : d.stage = .value) (hlen : d.length ≤ 65804) (hfit : ¬ s.rxLen - d.cur < d.length) :
    RunsIn 1 s
      { s with
        trace := s.trace ++ [{ num := d.last, off := d.cur, length := d.length }],
        engine := .msgdec { d with stage := .option, cur := d.cur + d.length, cnt := d.cnt + 1 } } := by
  obtain ⟨bytes, hstep⟩ := step_value he hs hlen
  exact .of_step (hstep.trans (exec_value_of_fits he hs hfit bytes))

/-- A value that does not fit ends MSGDEC (R185). -/
theorem run_value_fails (hs : d.stage = .value) (hlen : d.length ≤ 65804) (hshort : s.rxLen - d.cur < d.length) :
    RunsIn 1 s (raise (.msgdec d.last d.cnt) .truncatedBuffer d.cur s) := by
  obtain ⟨bytes, hstep⟩ := step_value he hs hlen
  exact .of_step (hstep.trans (exec_value_of_short he hs hshort bytes))

/-- The end of the buffer in the option loop, and the payload, which is empty (R178, R188). -/
theorem run_optionsEnd (hs : d.stage = .option) (hend : s.rxLen ≤ d.cur) :
    RunsIn 2 s ((Walked.reached (d.walk s)).finish d.captured s) :=
  (RunsIn.of_step (step_optionsEnd he hs hend)).trans (.of_step (step_payload rfl rfl))

/-- A MARK, and the payload (R179, R188). -/
theorem run_mark (hs : d.stage = .option) (hlt : d.cur < s.rxLen) (hmark : s.rxByte d.cur = 0xFF#8) :
    RunsIn 2 s ((Walked.reached { d.walk s with cur := d.cur + 1 }).finish d.captured s) :=
  (RunsIn.of_step (step_mark he hs hlt hmark)).trans (.of_step (step_payload rfl rfl))

end Run

/-- The run over the options ends as the walk does, each option taking at most six steps and at least one byte
(R178 to R188). -/
theorem run_walk {n : Nat} {s : State} {d : DecRun} (he : s.engine = .msgdec d) (hs : d.stage = .option)
    (hcur : d.cur ≤ s.rxLen) (hn : s.rxLen - d.cur ≤ n) :
    RunsIn (6 * (s.rxLen - d.cur) + 2) s ((walkOptions s.rxByte s.rxLen n (d.walk s)).finish d.captured s) := by
  induction n generalizing s d with
  | zero => exact (run_optionsEnd he hs (by omega)).mono (by omega)
  | succ n ih =>
    by_cases hend : s.rxLen ≤ d.cur
    · rw [walkOptions_end hend]
      exact (run_optionsEnd he hs hend).mono (by omega)
    have hlt : d.cur < s.rxLen := Nat.not_le.mp hend
    by_cases hmark : s.rxByte d.cur = 0xFF#8
    · rw [walkOptions_mark hlt hmark]
      exact (run_mark he hs hlt hmark).mono (by omega)
    have hhead := step_optionHead he hs hlt hmark
    split at hhead
    · rename_i hres
      have hd : uvarDecode (hiNibble (s.rxByte d.cur)) s.rxByte (d.cur + 1) s.rxLen = .error .reservedNibble := by
        rw [hres, uvarDecode_reserved]
      rw [walkOptions_deltaFails (w := d.walk s) hlt hmark hd]
      have hrun := RunsIn.of_step hhead
      exact hrun.mono (by omega)
    have hhead := RunsIn.of_step hhead
    cases hd : uvarDecode (hiNibble (s.rxByte d.cur)) s.rxByte (d.cur + 1) s.rxLen with
    | error k =>
      rw [walkOptions_deltaFails (w := d.walk s) hlt hmark hd]
      have hrun := hhead.trans (run_delta_fails rfl rfl hd)
      exact hrun.mono (by omega)
    | ok p =>
      obtain ⟨delta, c1⟩ := p
      have hdelta := hhead.trans (run_delta rfl rfl hd)
      cases hl : uvarDecode (loNibble (s.rxByte d.cur)) s.rxByte c1 s.rxLen with
      | error k =>
        rw [walkOptions_lengthFails (w := d.walk s) hlt hmark hd hl]
        have hrun := hdelta.trans (run_length_fails rfl rfl hl)
        exact hrun.mono (by omega)
      | ok p =>
        obtain ⟨length, c2⟩ := p
        have hlength := hdelta.trans (run_length rfl rfl hl)
        obtain ⟨hc1, hc1', -⟩ := uvarDecode_le hd hlt
        obtain ⟨hc2, hc2', hlen⟩ := uvarDecode_le hl hc1'
        by_cases hv : s.rxLen - c2 < length
        · rw [walkOptions_valueFails (w := d.walk s) hlt hmark hd hl hv]
          have hrun := hlength.trans (run_value_fails rfl rfl hlen hv)
          exact hrun.mono (by omega)
        · rw [walkOptions_accepts (w := d.walk s) hlt hmark hd hl hv]
          have hvalue := hlength.trans (run_value rfl rfl hlen hv)
          have hrun := hvalue.trans (ih rfl rfl (by dsimp only; omega) (by dsimp only; omega))
          exact hrun.mono (by dsimp only; omega)

/-- A MSGDEC that begins runs to the datagram's end: the header, the token, the options and the payload (R190). -/
theorem run_startMsgdec (s : State) : RunsIn (6 * s.rxLen + 8) (startMsgdec s) (decodeDatagram s) := by
  by_cases h4 : s.rxLen < 4
  · rw [decodeDatagram_short h4]
    have hrun := RunsIn.of_step (step_headerShort (s := startMsgdec s) rfl rfl h4)
    exact hrun.mono (by omega)
  have hstep := step_header (s := startMsgdec s) rfl rfl (Nat.not_lt.mp h4)
  cases hcheck : headerCheck (verOf (s.rxByte 0)) (tklOf (s.rxByte 0)) s.rxLen with
  | some k =>
    rw [decodeDatagram_badHeader (Nat.not_lt.mp h4) hcheck]
    have hrun := RunsIn.of_step (hstep.trans (takeHeader_of_some rfl rfl _ _ hcheck))
    exact hrun.mono (by omega)
  | none =>
    obtain ⟨-, h8, hfit⟩ := headerCheck_none hcheck
    rw [decodeDatagram_of_header (Nat.not_lt.mp h4) hcheck]
    have hheader := RunsIn.of_step (hstep.trans (takeHeader_of_none rfl rfl _ _ hcheck))
    have htoken := hheader.trans (.of_step (step_token rfl rfl h8))
    have hstart : 4 + (tklOf (s.rxByte 0)).toNat ≤ s.rxLen := by omega
    have hrun := htoken.trans (run_walk (n := s.rxLen) rfl rfl hstart (Nat.sub_le _ _))
    exact hrun.mono (show 1 + 1 + (6 * (s.rxLen - _) + 2) ≤ 6 * s.rxLen + 8 by omega)

/-- Settles O41: the command, for a legal RXLEN, is the decoding of the datagram, to which the items run. -/
theorem msgdecItemRunEqualsCommand : Obligations.MsgdecItemRunEqualsCommand := by
  intro s t hmax hexec
  rw [exec_msgdec_of_le hmax] at hexec
  exact next_inj hexec ▸ run_startMsgdec s

end Sys2Proof.Machine

namespace Sys2Proof.Machine

/-! ## FMT and CODE (43_status_formatter.md)

The numbers that the fields of a code byte are (R210), and the
digits that tell them (R211, R212). -/

/-- The class is the high three bits: the code divided by 32 (R210). -/
theorem classOf_eq_ofNat_div (c : Byte) : classOf c = BitVec.ofNat 3 (c.toNat / 32) := by
  apply BitVec.eq_of_toNat_eq
  simp [classOf, Nat.shiftRight_eq_div_pow]

/-- The detail is the low five bits: the remainder modulo 32 (R210). -/
theorem detailOf_eq_ofNat_mod (c : Byte) : detailOf c = BitVec.ofNat 5 (c.toNat % 32) := by
  apply BitVec.eq_of_toNat_eq
  simp [detailOf]

@[simp] theorem toNat_classOf (c : Byte) : (classOf c).toNat = c.toNat / 32 := by
  have hlt : c.toNat / 32 < 8 := Nat.div_lt_of_lt_mul c.isLt
  rw [classOf_eq_ofNat_div, BitVec.toNat_ofNat, Nat.mod_eq_of_lt hlt]

@[simp] theorem toNat_detailOf (c : Byte) : (detailOf c).toNat = c.toNat % 32 := by
  rw [detailOf_eq_ofNat_mod, BitVec.toNat_ofNat, Nat.mod_mod]

/-- The string of a code's fields, its digits computed from the code (R211). -/
theorem formatString_of_code (c : Byte) :
    formatString (classOf c) (detailOf c) =
      #v[BitVec.ofNat 8 (0x30 + c.toNat / 32), 0x2E#8, BitVec.ofNat 8 (0x30 + c.toNat % 32 / 10),
        BitVec.ofNat 8 (0x30 + c.toNat % 32 % 10)] := by
  simp only [formatString, toNat_classOf, toNat_detailOf]

/-- A character at or above `0` tells its offset from `0`, as long as the offset fits a byte. -/
theorem digit_inj {m n : Nat} (hm : m < 208) (hn : n < 208) (h : BitVec.ofNat 8 (0x30 + m) = BitVec.ofNat 8 (0x30 + n)) :
    m = n := by
  have htoNat := congrArg BitVec.toNat h
  simp only [BitVec.toNat_ofNat] at htoNat
  omega

/-- The string tells class and detail: the detail is ten times its tens digit plus its ones digit (R211, R212). -/
theorem formatString_inj {c c' : BitVec 3} {d d' : BitVec 5} (h : formatString c d = formatString c' d') :
    c = c' ∧ d = d' := by
  simp only [formatString, Vector.mk.injEq, Array.mk.injEq, List.cons.injEq, true_and, and_true] at h
  obtain ⟨hclass, htens, hones⟩ := h
  have hc := digit_inj (by omega) (by omega) hclass
  have ht := digit_inj (by omega) (by omega) htens
  have ho := digit_inj (by omega) (by omega) hones
  exact ⟨BitVec.eq_of_toNat_eq hc, BitVec.eq_of_toNat_eq (by omega)⟩

/-- A code byte is told by its class and its detail (R108). -/
theorem code_eq_of_fields {c c' : Byte} (hclass : classOf c = classOf c') (hdetail : detailOf c = detailOf c') : c = c' := by
  rw [← pack_class_detail c, hclass, hdetail, pack_class_detail]

/-- FMT formats the fields of FMT_CODE (R210). -/
theorem exec_fmt (s : State) : exec .fmt s = .next (formatCode (classOf s.fmtCode) (detailOf s.fmtCode) s) := rfl

/-- The string FMT leaves (R210). -/
theorem fmtStr_of_exec_fmt {s t : State} (h : exec .fmt s = .next t) :
    t.fmtStr = formatString (classOf s.fmtCode) (detailOf s.fmtCode) := by
  obtain rfl := next_inj h
  rfl

/-- CODE at a running FMT formats the fields it carries (R108, R210). -/
theorem exec_code {s : State} (he : s.engine = .fmt) (cls : BitVec 3) (detail : BitVec 5) :
    exec (.code cls detail) s = .next (formatCode cls detail s) := by
  simp only [exec, execCode, he]

/-- Settles O23: the fields of FMT_CODE are its quotient and remainder by 32, and so are the numbers the digits show. -/
theorem fmtFormatsTheCode : Obligations.FmtFormatsTheCode := by
  intro s
  rw [exec_fmt, formatCode, formatString_of_code, classOf_eq_ofNat_div, detailOf_eq_ofNat_mod]

/-- Settles O24: the string tells the two fields, and they tell the code. -/
theorem formattedCodesAreDistinct : Obligations.FormattedCodesAreDistinct := by
  intro s t s' t' hs ht hstr
  rw [fmtStr_of_exec_fmt hs, fmtStr_of_exec_fmt ht] at hstr
  obtain ⟨hclass, hdetail⟩ := formatString_inj hstr
  exact code_eq_of_fields hclass hdetail

/-- Settles O37: CODE is the formatting of its fields where FMT runs. -/
theorem codeItem : Obligations.CodeItem :=
  fun _ cls detail he => exec_code he cls detail

end Sys2Proof.Machine

namespace Sys2Proof.Machine

/-! # Control (44_control.md)

The host's transactions, what a command and a wire item leave unchanged, and CLEAR. -/

/-! ## No command depends on the report (R228)

A command ends by `succeed` or `raise` alone, and both overwrite the report but for the STATUS bits they keep. -/

/-- `s` with another report before the next command. -/
def State.withReport (s : State) (status : BitVec 8) (kind : BitVec 4) (pos : Nat) : State :=
  { s with status := status, errKind := kind, errPos := pos }

/-- What a command of the unit of `f` does to STATUS (R255, R259). -/
def EndsStatus (f : ValidFlag) (e : BitVec 8 → BitVec 8) : Prop := e = statusSucceed f ∨ e = statusFail (some f)

/-- An end of a command gives DONE, ERR and the unit's own flag values that do not depend on STATUS before. -/
theorem EndsStatus.getLsbD_eq {f : ValidFlag} {e : BitVec 8 → BitVec 8} (he : EndsStatus f e) (v w : BitVec 8) {n : Nat}
    (hn : n = doneBit ∨ n = errBit ∨ n = f.bit) : (e v).getLsbD n = (e w).getLsbD n := by
  rcases he with rfl | rfl
  · obtain ⟨hdone, herr, hown, -⟩ := statusSucceed_bits f v
    obtain ⟨hdone', herr', hown', -⟩ := statusSucceed_bits f w
    rcases hn with rfl | rfl | rfl <;> simp only [doneBit, errBit, *]
  · obtain ⟨hdone, herr, hown, -⟩ := statusFail_bits f v
    obtain ⟨hdone', herr', hown', -⟩ := statusFail_bits f w
    rcases hn with rfl | rfl | rfl <;> simp only [doneBit, errBit, *]

/-- `t` and `t'` are one end of a command, with STATUS `v` and `w` before it. -/
def EndsAlike (f : ValidFlag) (v w : BitVec 8) (t t' : State) : Prop :=
  ∃ e, EndsStatus f e ∧ t.status = e v ∧ t' = { t with status := e w }

section Report

variable (s : State) (status : BitVec 8) (kind : BitVec 4) (pos : Nat)

/-- A success overwrites the report (R259). -/
theorem EndsAlike.succeed (f : ValidFlag) :
    EndsAlike f s.status status (succeed f s) (succeed f (s.withReport status kind pos)) :=
  ⟨statusSucceed f, .inl rfl, rfl, rfl⟩

/-- A failure overwrites the report (R255). -/
theorem EndsAlike.raise {c : Failing} {f : ValidFlag} (hc : c.flag = some f) (k : ErrKind) (p : Nat) :
    EndsAlike f s.status status (raise c k p s) (raise c k p (s.withReport status kind pos)) := by
  refine ⟨statusFail (some f), .inr rfl, by rw [raise_status, hc], ?_⟩
  rw [← hc]
  cases c <;> rfl

/-- Decoding a datagram looks at no report register. -/
theorem EndsAlike.decodeDatagram :
    EndsAlike .decv s.status status (decodeDatagram s) (decodeDatagram (s.withReport status kind pos)) := by
  have hfails (k : ErrKind) (p : Nat) (w : WalkState) :
      EndsAlike .decv s.status status (failMsgdec k p w s) (failMsgdec k p w (s.withReport status kind pos)) :=
    EndsAlike.raise { s with trace := w.trace } status kind pos rfl k p
  have hlen : (s.withReport status kind pos).rxLen = s.rxLen := rfl
  have hbyte : (s.withReport status kind pos).rxByte = s.rxByte := rfl
  simp only [Machine.decodeDatagram, hlen, hbyte]
  split
  · exact hfails _ _ _
  · split
    · exact hfails _ _ _
    · split
      · exact hfails _ _ _
      · exact .succeed _ status kind pos .decv

/-- With another report before it, a working command comes to the same end. -/
theorem exec_withReport {i : Instr} {f : ValidFlag} {t : State} (hf : ownFlag i = some f) (h : exec i s = .next t) :
    ∃ t', exec i (s.withReport status kind pos) = .next t' ∧ EndsAlike f s.status status t t' := by
  cases i with
  | uvenc =>
    cases hf
    simp only [exec, execUvenc] at h
    cases hu : uvarEncode s.uvVal.toNat with
    | none =>
      rw [hu] at h
      obtain rfl := next_inj h
      exact ⟨_, by simp only [exec, execUvenc, State.withReport, hu], .raise s status kind pos rfl _ _⟩
    | some v =>
      rw [hu] at h
      obtain rfl := next_inj h
      exact ⟨_, by simp only [exec, execUvenc, State.withReport, hu], .succeed _ status kind pos _⟩
  | uvdec =>
    cases hf
    cases uvdec_effect h with
    | bad hl ht => exact ⟨_, UvdecEffect.exec (.bad hl rfl), ht ▸ .raise s status kind pos rfl _ _⟩
    | fails k hl hd ht => exact ⟨_, UvdecEffect.exec (.fails k hl hd rfl), ht ▸ .raise s status kind pos rfl _ _⟩
    | ends v c hl hd ht => exact ⟨_, UvdecEffect.exec (.ends v c hl hd rfl), ht ▸ .succeed _ status kind pos _⟩
  | msgenc =>
    cases hf
    cases msgenc_effect h with
    | bad hl ht => exact ⟨_, MsgencEffect.exec (.bad hl rfl), ht ▸ .raise s status kind pos rfl _ _⟩
    | ends p hl hp hm ht => exact ⟨_, MsgencEffect.exec (.ends p hl hp hm rfl), ht ▸ .succeed _ status kind pos _⟩
  | msgdec =>
    cases hf
    by_cases hlen : s.rxLen ≤ s.cfg.rxMax
    · rw [exec_msgdec_of_le hlen] at h
      obtain rfl := next_inj h
      exact ⟨_, exec_msgdec_of_le hlen, .decodeDatagram s status kind pos⟩
    · rw [exec_msgdec_of_not_le hlen] at h
      obtain rfl := next_inj h
      exact ⟨_, exec_msgdec_of_not_le hlen, .raise { s with trace := [] } status kind pos rfl _ _⟩
  | fmt =>
    cases hf
    obtain rfl := next_inj h
    exact ⟨_, rfl, .succeed _ status kind pos _⟩
  | _ => cases hf

end Report

/-- The five working commands have a unit of their own (R23). -/
theorem exists_ownFlag {i : Instr} (hi : i ∈ [Instr.uvenc, .uvdec, .msgenc, .msgdec, .fmt]) : ∃ f, ownFlag i = some f := by
  simp only [List.mem_cons, List.not_mem_nil, or_false] at hi
  rcases hi with rfl | rfl | rfl | rfl | rfl <;> exact ⟨_, rfl⟩

/-- Settles O51: the same end with another report, whose own STATUS bits do not depend on STATUS before and whose others
are kept. -/
theorem noCommandDependsOnTheReport : Obligations.NoCommandDependsOnTheReport := by
  intro i s t status kind pos hi h
  obtain ⟨f, hf⟩ := exists_ownFlag hi
  obtain ⟨t', h', e, he, hs, ht'⟩ := exec_withReport s status kind pos hf h
  have hs' : t'.status = e status := by rw [ht']
  have hbit (n : Nat) (hn : n = doneBit ∨ n = errBit ∨ n = f.bit) : t'.status.getLsbD n = t.status.getLsbD n := by
    rw [hs, hs', he.getLsbD_eq _ _ hn]
  refine ⟨t', h', by rw [ht'], hbit _ (.inl rfl), hbit _ (.inr (.inl rfl)), ?own, ?others⟩
  case own =>
    intro g hg
    obtain rfl := Option.some.inj (hf.symm.trans hg)
    exact hbit _ (.inr (.inr rfl))
  case others =>
    intro n hdone herr hown
    exact ⟨status_other_of_ownFlag hf h' n hdone herr (hown f hf), status_other_of_ownFlag hf h n hdone herr (hown f hf)⟩

/-! ## What a wire item leaves unchanged (R228, R229) -/

/-- The fields a wire item may change, by the command that runs: the results of its unit and the report, or TXBUF. -/
inductive ItemFrame (i : Instr) (s t : State) : Prop
  | uvdec (u : UvRun) (he : s.engine = .uvdec u)
      (ht : t = { s with
        uvVal := t.uvVal, uvExtLen := t.uvExtLen, uvExt := t.uvExt, uvCur := t.uvCur, status := t.status,
        errKind := t.errKind, errPos := t.errPos, engine := t.engine })
  | msgenc (e : EncRun) (he : s.engine = .msgenc e)
      (ht : t = { s with tx := s.tx.writeBytes e.wp (encode i), engine := t.engine })
  | msgdec (d : DecRun) (he : s.engine = .msgdec d)
      (ht : t = { s with
        decVer := t.decVer, decType := t.decType, decTkl := t.decTkl, decCode := t.decCode, decMid := t.decMid,
        decToken := t.decToken, payOff := t.payOff, payLen := t.payLen, payload := t.payload, optLast := t.optLast,
        optCnt := t.optCnt, trace := t.trace, status := t.status, errKind := t.errKind, errPos := t.errPos,
        engine := t.engine })
  | fmt (he : s.engine = .fmt)
      (ht : t = { s with
        fmtClass := t.fmtClass, fmtDetail := t.fmtDetail, fmtStr := t.fmtStr, status := t.status,
        errKind := t.errKind, errPos := t.errPos, engine := t.engine })

/-- An item's frame is read off its effect. -/
theorem ItemEffect.frame {i : Instr} {s t : State} (h : ItemEffect i s t) : ItemFrame i s t := by
  cases h with
  | uvdecGoes u u' he ht => exact .uvdec u he (ht ▸ rfl)
  | uvdecEnds u value cur ext he ht => exact .uvdec u he (ht ▸ rfl)
  | uvdecFails u k he _ ht => exact .uvdec u he (ht ▸ rfl)
  | msgencGoes e e' he _ _ _ ht => exact .msgenc e he (ht ▸ rfl)
  | msgdecGoes d d' he _ ht => exact .msgdec d he (ht ▸ rfl)
  | msgdecAccepts d d' he _ _ _ ht => exact .msgdec d he (ht ▸ rfl)
  | msgdecEnds d bytes he ht => exact .msgdec d he (ht ▸ rfl)
  | msgdecFails d k pos he _ ht => exact .msgdec d he (ht ▸ rfl)
  | fmtEnds cls detail he ht => exact .fmt he (ht ▸ rfl)

namespace ItemFrame

variable {i : Instr} {s t : State} (h : ItemFrame i s t)
include h

/-- No wire item writes an input register or a result of MessageEncoder: MSGENC writes its own when it ends (R158). -/
theorem registers :
    t.cmd = s.cmd ∧ t.uvNib = s.uvNib ∧ t.encTkl = s.encTkl ∧ t.midSrc = s.midSrc ∧ t.pathLen = s.pathLen ∧
      t.rxLen = s.rxLen ∧ t.fmtCode = s.fmtCode ∧ t.tokSrc = s.tokSrc ∧ t.txLen = s.txLen ∧ t.midOut = s.midOut ∧
      t.tokOut = s.tokOut := by
  cases h <;> rename_i ht <;> rw [ht] <;> exact ⟨rfl, rfl, rfl, rfl, rfl, rfl, rfl, rfl, rfl, rfl, rfl⟩

/-- No wire item writes RXBUF or PATHBUF (R66, R71), or touches what is not the block's. -/
theorem surroundings : t.rx = s.rx ∧ t.path = s.path ∧ t.cfg = s.cfg ∧ t.host = s.host ∧ t.reply = s.reply := by
  cases h <;> rename_i ht <;> rw [ht] <;> exact ⟨rfl, rfl, rfl, rfl, rfl⟩

/-- TXBUF is written while a MSGENC runs, with the item's bytes at the write index (R150). -/
theorem tx_of_msgenc {e : EncRun} (he : s.engine = .msgenc e) : t.tx = s.tx.writeBytes e.wp (encode i) := by
  cases h with
  | msgenc e' he' ht =>
    obtain rfl := Engine.msgenc.inj (he.symm.trans he')
    rw [ht]
  | uvdec _ he' => cases he.symm.trans he'
  | msgdec _ he' => cases he.symm.trans he'
  | fmt he' => cases he.symm.trans he'

/-- TXBUF is written while a MSGENC runs only. -/
theorem tx_of_noMsgenc (hn : s.noMsgenc) : t.tx = s.tx := by
  cases h with
  | msgenc e he => exact absurd hn (by simp [State.noMsgenc, he])
  | uvdec _ _ ht => rw [ht]
  | msgdec _ _ ht => rw [ht]
  | fmt _ ht => rw [ht]

/-- The UV registers are written while a UVDEC runs only. -/
theorem uvar (hn : ∀ u, s.engine ≠ .uvdec u) :
    t.uvVal = s.uvVal ∧ t.uvExtLen = s.uvExtLen ∧ t.uvCur = s.uvCur ∧ t.uvExt = s.uvExt := by
  cases h with
  | uvdec u he => exact absurd he (hn u)
  | msgenc _ _ ht => rw [ht]; exact ⟨rfl, rfl, rfl, rfl⟩
  | msgdec _ _ ht => rw [ht]; exact ⟨rfl, rfl, rfl, rfl⟩
  | fmt _ ht => rw [ht]; exact ⟨rfl, rfl, rfl, rfl⟩

/-- The results of MessageDecoder and the option trace are written while a MSGDEC runs only. -/
theorem decoder (hn : s.noMsgdec) :
    t.decVer = s.decVer ∧ t.decType = s.decType ∧ t.decTkl = s.decTkl ∧ t.decCode = s.decCode ∧ t.decMid = s.decMid ∧
      t.decToken = s.decToken ∧ t.payOff = s.payOff ∧ t.payLen = s.payLen ∧ t.payload = s.payload ∧
      t.optLast = s.optLast ∧ t.optCnt = s.optCnt ∧ t.trace = s.trace := by
  cases h with
  | msgdec d he => exact absurd hn (by simp [State.noMsgdec, he])
  | uvdec _ _ ht => rw [ht]; exact ⟨rfl, rfl, rfl, rfl, rfl, rfl, rfl, rfl, rfl, rfl, rfl, rfl⟩
  | msgenc _ _ ht => rw [ht]; exact ⟨rfl, rfl, rfl, rfl, rfl, rfl, rfl, rfl, rfl, rfl, rfl, rfl⟩
  | fmt _ ht => rw [ht]; exact ⟨rfl, rfl, rfl, rfl, rfl, rfl, rfl, rfl, rfl, rfl, rfl, rfl⟩

/-- The results of StatusFormatter are written while a FMT runs only. -/
theorem formatter (hn : s.engine ≠ .fmt) : t.fmtClass = s.fmtClass ∧ t.fmtDetail = s.fmtDetail ∧ t.fmtStr = s.fmtStr := by
  cases h with
  | fmt he => exact absurd he hn
  | uvdec _ _ ht => rw [ht]; exact ⟨rfl, rfl, rfl⟩
  | msgenc _ _ ht => rw [ht]; exact ⟨rfl, rfl, rfl⟩
  | msgdec _ _ ht => rw [ht]; exact ⟨rfl, rfl, rfl⟩

end ItemFrame

/-- Settles O52: the frame of the command that runs, with TXBUF read outside and inside the bytes emitted. -/
theorem wireItemFrames : Obligations.WireItemFrames := by
  intro s t i hi h
  have hframe := (item_effect hi h).frame
  refine ⟨hframe.registers, hframe.surroundings, hframe.tx_of_noMsgenc, fun e he => ?tx, hframe.uvar, hframe.decoder,
    hframe.formatter⟩
  case tx =>
    rw [hframe.tx_of_msgenc he]
    exact ⟨fun _ ha => Memory.read_writeBytes_outside s.tx e.wp _ ha,
      fun _ hj => Memory.read_writeBytes_inside s.tx e.wp _ hj⟩

/-! ## While a command goes on (R228, R56) -/

/-- An item that does not end its command changes TXBUF, the option trace and the transient state alone: the results and
the report are written at the end (R255, R259). -/
theorem ItemEffect.goes {i : Instr} {s t : State} (h : ItemEffect i s t) (hgoes : t.engine ≠ .idle) :
    t = { s with tx := t.tx, trace := t.trace, engine := t.engine } := by
  cases h with
  | uvdecGoes u u' _ ht => exact ht ▸ rfl
  | msgencGoes e e' _ _ _ _ ht => exact ht ▸ rfl
  | msgdecGoes d d' _ _ ht => exact ht ▸ rfl
  | msgdecAccepts d d' _ _ _ _ ht => exact ht ▸ rfl
  | uvdecEnds u value cur ext _ ht => exact absurd (ht ▸ rfl) hgoes
  | uvdecFails u k _ _ ht => exact absurd (ht ▸ rfl) hgoes
  | msgdecEnds d bytes _ ht => exact absurd (ht ▸ rfl) hgoes
  | msgdecFails d k pos _ _ ht => exact absurd (ht ▸ rfl) hgoes
  | fmtEnds cls detail _ ht => exact absurd (ht ▸ rfl) hgoes

/-- Settles O53: an item's effect, while the command goes on. -/
theorem noPartialResultIsVisible : Obligations.NoPartialResultIsVisible :=
  fun _ _ _ hi h hgoes => (item_effect hi h).goes hgoes

/-! ## Register space (R221, R223)

The registers as one list, by number: a read is an access to the list and a write to a RW register sets one entry. -/

/-- The registers of R21 by rising number. -/
def State.registers (s : State) : List Nat :=
  [s.cmd.toNat, s.status.toNat, s.errKind.toNat, s.errPos, s.uvVal.toNat, s.uvNib.toNat, s.uvExtLen.toNat, s.uvCur,
    s.encTkl.toNat, s.midSrc.toNat, s.pathLen, s.txLen, s.midOut.toNat, s.rxLen, s.decVer.toNat, s.decType.toNat,
    s.decTkl.toNat, s.decCode.toNat, s.decMid.toNat, s.payOff, s.payLen, s.optLast.toNat, s.optCnt, s.fmtCode.toNat,
    s.fmtClass.toNat, s.fmtDetail.toNat]

@[simp] theorem length_registers (s : State) : s.registers.length = 26 := rfl

/-- A read gives the register of that number, 0 for a reserved one. -/
theorem readRegister_eq_getD (s : State) (no : BitVec 6) : readRegister s no = s.registers.getD no.toNat 0 := by
  by_cases hno : no.toNat < 26
  · unfold readRegister
    interval_cases no.toNat <;> rfl
  · rw [List.getD_eq_default _ _ (by rw [length_registers]; omega)]
    unfold readRegister
    split <;> omega

/-- A reserved number reads 0 (R223). -/
theorem readRegister_of_reserved {no : BitVec 6} (h : 26 ≤ no.toNat) (s : State) : readRegister s no = 0 := by
  rw [readRegister_eq_getD, List.getD_eq_default _ _ h]

/-- The RW registers of R21. -/
theorem writable_iff : ∀ no : BitVec 6, writable no = true ↔ no ∈ [4#6, 5#6, 7#6, 8#6, 9#6, 10#6, 13#6, 23#6] := by
  decide

/-- A RW register is no reserved number. -/
theorem toNat_lt_of_writable {no : BitVec 6} (h : writable no = true) : no.toNat < 26 := by
  revert no
  decide

/-- A write to a RW register sets its entry, cut to the register's width (R221, log entry 5). -/
theorem registers_writeRegister {no : BitVec 6} (h : writable no = true) (s : State) (v : Nat) :
    (writeRegister s no v).registers = s.registers.set no.toNat (v % 2 ^ registerWidth s.cfg no) := by
  rw [writable_iff] at h
  fin_cases h <;> rfl

/-- A write to a register that is not RW is ignored (R221). -/
theorem writeRegister_of_not_writable {no : BitVec 6} (h : writable no = false) (s : State) (v : Nat) :
    writeRegister s no v = s := by
  unfold writeRegister
  split
  case h_9 => rfl
  all_goals simp [writable, *] at h

/-- A RW register reads the value written, if it has the register's width (R221). -/
theorem readRegister_writeRegister_same {s : State} {no : BitVec 6} {v : Nat} (h : writable no = true)
    (hv : v < 2 ^ registerWidth s.cfg no) : readRegister (writeRegister s no v) no = v := by
  have hno : no.toNat < s.registers.length := toNat_lt_of_writable h
  rw [readRegister_eq_getD, registers_writeRegister h, Nat.mod_eq_of_lt hv, List.getD_eq_getElem?_getD,
    List.getElem?_set_self hno, Option.getD_some]

/-- A write leaves every other register alone (R221). -/
theorem readRegister_writeRegister_other {no no' : BitVec 6} (h : no' ≠ no) (s : State) (v : Nat) :
    readRegister (writeRegister s no v) no' = readRegister s no' := by
  cases hw : writable no with
  | false => rw [writeRegister_of_not_writable hw]
  | true =>
    have hne : no.toNat ≠ no'.toNat := fun heq => h (BitVec.eq_of_toNat_eq heq.symm)
    simp only [readRegister_eq_getD, registers_writeRegister hw, List.getD_eq_getElem?_getD, List.getElem?_set_ne hne]

/-- A register write touches no byte. -/
theorem byteAtSpace_writeRegister (s : State) (no : BitVec 6) (v id idx : Nat) :
    byteAtSpace (writeRegister s no v) id idx = byteAtSpace s id idx := by
  rw [writeRegister_eq]
  rfl

/-- A WriteReg to any number but CMD's runs no command (R221, R224). -/
theorem perform_writeReg {no : BitVec 6} (h : no ≠ 0#6) (v : Nat) (s : State) :
    perform (.writeReg no v) s = .next (writeRegister { s with reply := none } no v) :=
  if_neg h

/-- Settles O54: what a write does to the list of registers, and to the fields a write may touch. -/
theorem registerWrites : Obligations.RegisterWrites := by
  intro s no v hcmd hv
  refine ⟨_, perform_writeReg hcmd v s, fun hw => ?stores, fun hro => ?ignored,
    fun no' hne => readRegister_writeRegister_other hne { s with reply := none } v,
    byteAtSpace_writeRegister { s with reply := none } no v, ?rest⟩
  case stores => exact readRegister_writeRegister_same hw (by simpa [hw] using hv)
  case ignored =>
    rw [writeRegister_of_not_writable hro]
    rfl
  case rest =>
    rw [writeRegister_eq]
    exact ⟨rfl, rfl, rfl, rfl⟩

/-- A reserved number is no RW register. -/
theorem not_writable_of_reserved {no : BitVec 6} (h : 26 ≤ no.toNat) : writable no = false := by
  by_contra hw
  exact absurd (toNat_lt_of_writable (Bool.eq_true_of_not_eq_false hw)) (by omega)

/-- Settles O55: a reserved number is beyond the list of registers, and no RW register. -/
theorem reservedRegistersAndReads : Obligations.ReservedRegistersAndReads := by
  refine fun s no => ⟨rfl, fun hres => ⟨readRegister_of_reserved hres s, fun v => ?_⟩⟩
  have hcmd : no ≠ 0#6 := by
    rintro rfl
    exact absurd hres (by decide)
  rw [perform_writeReg hcmd, writeRegister_of_not_writable (not_writable_of_reserved hres)]

/-! ## Byte space (R222, R72) -/

/-- No byte space has an id above 7 (R72). -/
theorem capacity_of_gt {id : Nat} (h : 7 < id) (p : Config.Params) : capacity p id = 0 := by
  rw [capacity] <;> omega

/-- A ReadBuf outside the capacity returns 0. -/
theorem readBuffer_outside {s : State} {id idx : Nat} (h : capacity s.cfg id ≤ idx) :
    readBuffer s id idx = { s with reply := some 0 } :=
  if_neg (by omega)

/-- A ReadBuf of a written byte returns it. -/
theorem readBuffer_written {s : State} {id idx : Nat} {x : Byte} (h : idx < capacity s.cfg id)
    (hx : byteAtSpace s id idx = some x) : readBuffer s id idx = { s with reply := some x.toNat } := by
  simp only [readBuffer, if_pos h, hx]

/-- A ReadBuf of a never-written byte returns its free value (log entry 2). -/
theorem readBuffer_unwritten {s : State} {id idx : Nat} (h : idx < capacity s.cfg id)
    (hx : byteAtSpace s id idx = none) :
    readBuffer s id idx = { s with reply := some (Config.freeByte s.draws id idx).toNat } := by
  simp only [readBuffer, if_pos h, hx]

/-- A never-written byte reads as its free value. -/
theorem byteOr_of_none {m : Memory} {i : Nat} (h : m.read i = none) (draw id : Nat) :
    byteOr m draw id i = Config.freeByte draw id i := by
  simp only [byteOr, h]

/-- A ReadBuf at another state returns the same, if the parameters, the draw and the byte are the same. -/
theorem readBuffer_congr {s u : State} {id idx : Nat} (hc : u.cfg = s.cfg) (hd : u.draws = s.draws)
    (hb : byteAtSpace u id idx = byteAtSpace s id idx) :
    readBuffer u id idx = { u with reply := (readBuffer s id idx).reply } := by
  rw [readBuffer_eq, readBuffer_reply_congr hc hd hb]

/-- A second ReadBuf changes nothing (R65). -/
theorem readBuffer_idem (s : State) (id idx : Nat) : readBuffer (readBuffer s id idx) id idx = readBuffer s id idx := by
  have heq := readBuffer_eq s id idx
  exact readBuffer_congr (by rw [heq]) (by rw [heq]) (by rw [heq]; rfl)

/-- A WriteBuf outside the capacity is ignored. -/
theorem writeBuffer_outside {s : State} {id idx : Nat} (h : capacity s.cfg id ≤ idx) (b : Byte) :
    writeBuffer s id idx b = s :=
  if_neg (by omega)

/-- A WriteBuf to a byte space the host may not write is ignored. -/
theorem writeBuffer_of_not_writable {id : Nat} (h : id ∉ [0, 2, 3]) (s : State) (idx : Nat) (b : Byte) :
    writeBuffer s id idx b = s := by
  unfold writeBuffer
  split
  · split
    case h_4 => rfl
    all_goals exact absurd (by decide) h
  · rfl

/-- A WriteBuf stores exactly the byte given. -/
theorem byteAtSpace_writeBuffer_same {s : State} {id idx : Nat} (hid : id ∈ [0, 2, 3]) (h : idx < capacity s.cfg id)
    (b : Byte) : byteAtSpace (writeBuffer s id idx b) id idx = some b := by
  simp only [List.mem_cons, List.not_mem_nil, or_false] at hid
  rcases hid with rfl | rfl | rfl <;> simp only [writeBuffer, if_pos h, byteAtSpace]
  · exact Memory.read_write_same s.rx idx b
  · exact Memory.read_write_same s.path idx b
  · have hlength : idx < s.tokSrc.toList.length := by rw [Vector.length_toList]; exact h
    rw [Vector.toList_setIfInBounds, List.getElem?_set_self hlength]

/-- Of what the host may write, a byte space reads its own memory or array alone. -/
theorem byteAtSpace_congr {s : State} {rx path : Memory} {tok : Vector Byte 8} {id : Nat} (idx : Nat)
    (hrx : id = 0 → rx.read idx = s.rx.read idx) (hpath : id = 2 → path.read idx = s.path.read idx)
    (htok : id = 3 → tok.toList[idx]? = s.tokSrc.toList[idx]?) :
    byteAtSpace { s with rx := rx, path := path, tokSrc := tok } id idx = byteAtSpace s id idx := by
  unfold byteAtSpace
  split
  case h_1 => exact hrx rfl
  case h_3 => exact hpath rfl
  case h_4 => exact htok rfl
  all_goals rfl

/-- A WriteBuf leaves every other byte alone. -/
theorem byteAtSpace_writeBuffer_other {s : State} {id idx id' idx' : Nat} (h : id' ≠ id ∨ idx' ≠ idx) (b : Byte) :
    byteAtSpace (writeBuffer s id idx b) id' idx' = byteAtSpace s id' idx' := by
  unfold writeBuffer
  split
  · split
    · exact byteAtSpace_congr idx' (fun _ => Memory.read_write_other _ _ (by omega)) (fun _ => rfl) (fun _ => rfl)
    · exact byteAtSpace_congr idx' (fun _ => rfl) (fun _ => Memory.read_write_other _ _ (by omega)) (fun _ => rfl)
    · refine byteAtSpace_congr idx' (fun _ => rfl) (fun _ => rfl) (fun _ => ?_)
      rw [Vector.toList_setIfInBounds, List.getElem?_set_ne (by omega)]
    · rfl
  · rfl

/-- Settles O56: the cases of a read and of a write, and that no instruction changes what a read depends on but the byte
(R65). -/
theorem bufferTransactions : Obligations.BufferTransactions := by
  intro s id idx b
  refine ⟨fun hout => ?outside, fun x hidx hx => ?written, fun hidx hx => ?unwritten, fun t ht => ?reads,
    fun hid hidx => ?stores, fun hid => ?ignored⟩
  case outside =>
    have hcap : capacity s.cfg id ≤ idx := by
      rcases hout with hid | hidx
      · exact (capacity_of_gt hid s.cfg).trans_le (Nat.zero_le idx)
      · exact hidx
    exact ⟨congrArg Host.Outcome.next (readBuffer_outside hcap),
      congrArg Host.Outcome.next (writeBuffer_outside (s := { s with reply := none }) hcap b)⟩
  case written => exact congrArg Host.Outcome.next (readBuffer_written hidx hx)
  case unwritten =>
    refine ⟨_, congrArg Host.Outcome.next (readBuffer_unwritten hidx hx), ?_, ?_⟩
    all_goals
      rintro rfl
      exact (byteOr_of_none hx _ _).symm
  case reads =>
    obtain rfl := next_inj ht
    refine ⟨readBuffer_eq s id idx, congrArg Host.Outcome.next (readBuffer_idem s id idx), fun i u h hb => ?_⟩
    obtain ⟨hcfg, hdraws⟩ := exec_keeps h
    exact congrArg Host.Outcome.next (readBuffer_congr hcfg hdraws hb)
  case stores =>
    exact ⟨_, rfl, byteAtSpace_writeBuffer_same (s := { s with reply := none }) hid hidx b,
      fun _ _ h => byteAtSpace_writeBuffer_other (s := { s with reply := none }) h b, writeBuffer_eq _ id idx b⟩
  case ignored => exact congrArg Host.Outcome.next (writeBuffer_of_not_writable hid { s with reply := none } idx b)

/-! ## CLEAR (R227) -/

/-- An array has the same length whatever the parameters are (R8, R222). -/
theorem capacity_of_array {id : Nat} (h3 : 3 ≤ id) (h7 : id ≤ 7) (p q : Config.Params) : capacity p id = capacity q id := by
  interval_cases id <;> rfl

/-- CLEAR leaves the arrays of the state after reset. -/
theorem byteAtSpace_clearedRegisters {id : Nat} (h3 : 3 ≤ id) (h7 : id ≤ 7) (s : State) (idx : Nat) :
    byteAtSpace (clearedRegisters s) id idx = byteAtSpace State.reset id idx := by
  interval_cases id <;> rfl

/-- Settles O25: registers and arrays are those of the state after reset, which are 0 (R57). -/
theorem clearRestoresAllButBuffers : Obligations.ClearRestoresAllButBuffers := by
  obtain ⟨hregisters, harrays, -, -, -⟩ := resetStateIsAllZero
  refine fun s => ⟨clearedRegisters s, rfl, hregisters, fun id idx h3 h7 hidx => ?arrays, rfl, rfl, rfl, rfl, rfl, rfl, rfl⟩
  case arrays =>
    rw [byteAtSpace_clearedRegisters h3 h7]
    exact harrays id idx h3 h7 (capacity_of_array h3 h7 _ _ ▸ hidx)

/-! ## A step runs the decoded instruction (R224, R190) -/

/-- An idle engine takes the host's next transaction. -/
theorem step_idle {s : State} {x : HostTxn} {rest : List HostTxn} (he : s.engine = .idle) (hh : s.host = x :: rest) :
    step s = perform x { s with host := rest } := by
  simp only [step, he, hh]

/-- A WriteReg of a byte to CMD's number runs the command with that opcode (R224). -/
theorem perform_writeCmd (v : BitVec 8) (s : State) :
    perform (.writeReg 0#6 v.toNat) s = exec (decodeCmd v) { s with reply := none, cmd := v } := by
  simp only [perform, writeCmd, if_true, BitVec.ofNat_toNat, BitVec.setWidth_eq]

/-- An idle engine fetches nothing. -/
theorem running_of_fetch {s : State} (h : fetch s ≠ .nothing) : s.engine ≠ .idle := by
  intro he
  exact h (by simp only [fetch, he])

/-- Settles O38: an idle engine performs the CMD write, a running one fetches. -/
theorem stepRunsTheDecodedInstruction : Obligations.StepRunsTheDecodedInstruction := by
  refine ⟨fun s v rest he hh => ?command, fun s slot bs more i hf hd => ?takes, fun s i hf => ?emits⟩
  case command => rw [step_idle he hh]; exact perform_writeCmd v _
  case takes => exact step_takes (running_of_fetch (by rw [hf]; nofun)) hf hd
  case emits => exact step_emits (running_of_fetch (by rw [hf]; nofun)) hf

end Sys2Proof.Machine

namespace Sys2Proof.Machine

/-! ## How a command ends (R255 to R259)

The laws of STATUS and the valid flags say what the two ends do to the report; what each writes besides is in its definition. -/

/-- The reserved bits of STATUS after a success (R23, R259). -/
theorem statusSucceed_reserved (f : ValidFlag) (v : BitVec 8) :
    (statusSucceed f v).getLsbD 2 = v.getLsbD 2 ∧ (statusSucceed f v).getLsbD 3 = v.getLsbD 3 := by
  have hf : 2 ≠ f.bit ∧ 3 ≠ f.bit := by cases f <;> decide
  exact ⟨statusSucceed_other f v 2 (by decide) (by decide) hf.1, statusSucceed_other f v 3 (by decide) (by decide) hf.2⟩

/-- Settles O4: the bits of STATUS from its laws, the other fields from `succeed` itself. -/
theorem successReport : Obligations.SuccessReport := fun f s =>
  ⟨done_succeed f s, err_succeed f s, rfl, rfl, valid_succeed_same f s, fun _ hg => valid_succeed_other hg.symm s,
    statusSucceed_reserved f s.status, rfl⟩

/-- Settles O5: the report from the laws of STATUS, and each unit's results from `zeroResults`. -/
theorem failureReport : Obligations.FailureReport := by
  refine ⟨fun c k pos s => ?report, fun k pos s => ?results, rfl, rfl, rfl, rfl, rfl, rfl, rfl, rfl⟩
  case report =>
    obtain ⟨-, -, hreserved⟩ := statusFail_report c.flag s.status
    exact ⟨done_raise c k pos s, err_raise c k pos s, rfl, rfl, rfl, fun _ hf => valid_raise_same hf k pos s,
      fun _ hg => valid_raise_other hg k pos s, hreserved, by simp, by simp⟩
  case results =>
    refine ⟨⟨rfl, rfl, rfl, rfl⟩, ⟨rfl, rfl, rfl, rfl⟩, ⟨rfl, rfl, rfl⟩, ?msgdec⟩
    case msgdec =>
      rintro last cnt t rfl
      exact ⟨⟨rfl, rfl, rfl, rfl, rfl, rfl, rfl, rfl⟩, rfl, rfl, rfl⟩

/-- UvarEncode is undefined above 65804 (R130, R134). -/
theorem uvarEncode_eq_none {n : Nat} (h : 65804 < n) : uvarEncode n = none :=
  Option.eq_none_iff_forall_ne_some.mpr fun _ henc => Nat.not_le_of_lt h (uvarEncode_le henc)

/-- UVENC of a value UvarEncode does not cover (R134, R248). -/
theorem exec_uvenc_large {s : State} (h : 65804 < s.uvVal.toNat) : exec .uvenc s = .next (raise .uvenc .uvarRange 0 s) := by
  simp only [exec, execUvenc, uvarEncode_eq_none h]

/-- Settles O7: UvarEncode is undefined there. -/
theorem uvencRefusesLargeValues : Obligations.UvencRefusesLargeValues := fun _ h => ⟨exec_uvenc_large h, rfl⟩

/-- Settles O15: the operands are illegal, and `raise` writes these fields for MSGENC. -/
theorem msgencRefusesIllegalOperands : Obligations.MsgencRefusesIllegalOperands :=
  fun _ h => exec_msgenc_of_illegal (by omega)

/-! ## The kinds each command raises (R250)

Read off what the command can do: a success writes 0 to ERRKIND, a failure the code of its kind. -/

/-- The codes UVENC leaves in ERRKIND. -/
theorem uvenc_errKind {s t : State} (h : exec .uvenc s = .next t) : t.errKind ∈ [0#4, 10#4] := by
  obtain rfl | ⟨nib, ext, -, rfl⟩ := uvenc_effect h
  · simp [ErrKind.code]
  · simp

/-- The codes of the kinds UvarDecode raises (R131). -/
theorem uvarDecode_errKind {nib : Nibble} {rd : Nat → Byte} {c fin : Nat} {k : ErrKind} (h : uvarDecode nib rd c fin = .error k) :
    k.code = 4#4 ∨ k.code = 5#4 := by
  obtain rfl | rfl := uvarDecode_error h
  · exact .inl rfl
  · exact .inr rfl

/-- The codes UVDEC leaves in ERRKIND. -/
theorem uvdec_errKind {s t : State} (h : exec .uvdec s = .next t) : t.errKind ∈ [0#4, 4#4, 5#4, 9#4] := by
  cases uvdec_effect h with
  | bad _ ht => simp [ht, ErrKind.code]
  | fails k _ hd ht => obtain hk | hk := uvarDecode_errKind hd <;> simp [ht, hk]
  | ends v c _ _ ht => simp [ht, finishUvdec]

/-- The codes MSGENC leaves in ERRKIND. -/
theorem msgenc_errKind {s t : State} (h : exec .msgenc s = .next t) : t.errKind ∈ [0#4, 9#4] := by
  cases msgenc_effect h with
  | bad _ ht => simp [ht, ErrKind.code]
  | ends p _ _ _ ht => simp [ht, finishMsgenc]

/-- The codes MSGDEC leaves in ERRKIND. -/
theorem msgdec_errKind {s t : State} (h : exec .msgdec s = .next t) : t.errKind ∈ [0#4, 1#4, 2#4, 3#4, 4#4, 5#4, 9#4] := by
  cases msgdec_effect h with
  | bad _ ht => simp [ht, ErrKind.code]
  | fails k pos w _ _ _ hk ht =>
    have hsub : [1#4, 2#4, 3#4, 4#4, 5#4] ⊆ [0#4, 1#4, 2#4, 3#4, 4#4, 5#4, 9#4] := by decide
    rw [ht, failMsgdec, raise_errKind]
    exact hsub hk.code_mem
  | ends w _ _ _ _ _ ht => simp [ht, finishMsgdec]

/-- Settles O27: each command's own codes; FMT, CLEAR and BADCMD have one outcome each. -/
theorem kindsEachCommandRaises : Obligations.KindsEachCommandRaises := by
  refine fun s t => ⟨uvenc_errKind, uvdec_errKind, msgenc_errKind, msgdec_errKind, fun h => ?fmt, fun h => ?clear, fun v h => ?badcmd⟩
  all_goals
    obtain rfl := next_inj h
    rfl

end Sys2Proof.Machine

namespace Sys2Proof.Machine

/-! # Reset, and the turns of the engine and the host -/

/-! ## The reset transaction (R280)

What R57 speaks of does not depend on what a reset keeps, which is the parameters and the host's list. -/

/-- A reset leaves the bytes of the state after reset. -/
theorem byteAtSpace_resetBlock (s : State) (id idx : Nat) :
    byteAtSpace (resetBlock s) id idx = byteAtSpace State.reset id idx := rfl

/-- A reset has exactly the effect of R57: an array has the same length under any parameters. -/
theorem afterReset_resetBlock (s : State) : AfterReset (resetBlock s) := by
  obtain ⟨hregisters, harrays, hbuffers, htrace, hengine⟩ := resetStateIsAllZero
  refine ⟨hregisters, fun id idx h3 h7 hidx => ?arrays, hbuffers, htrace, hengine⟩
  case arrays =>
    rw [byteAtSpace_resetBlock]
    exact harrays id idx h3 h7 (capacity_of_array h3 h7 _ _ ▸ hidx)

/-- Settles O2: the transaction answers `resetBlock`, which keeps the parameters and the host's list. -/
theorem resetTransactionResetsTheBlock : Obligations.ResetTransactionResetsTheBlock :=
  fun s => ⟨resetBlock s, rfl, afterReset_resetBlock s, rfl, rfl⟩

/-! ## The commands straight after reset (R282)

Every operand is 0: the value and the nibble are literals, the path is empty, no byte of a datagram is there, and the code
is 0.00. So no command reads a buffer. -/

/-- The first success sets DONE and its own unit's flag (R23, R259). -/
theorem statusSucceed_zero :
    statusSucceed .uvv 0#8 = 0x11#8 ∧ statusSucceed .encv 0#8 = 0x21#8 ∧ statusSucceed .fmtv 0#8 = 0x81#8 := by decide

/-- The first failure sets DONE and ERR alone (R23, R255). -/
theorem statusFail_zero : statusFail (some .decv) 0#8 = 0x03#8 := by decide

/-- The request without token and path, of message id 0, is its header (R112). -/
theorem State.packet_of_zero {s : State} (htkl : s.encTkl = 0#4) (hmid : s.midSrc = 0#16) (hpath : s.pathLen = 0) :
    s.packet = [0x40#8, 0x01#8, 0x00#8, 0x00#8] := by
  rw [State.packet, State.tokenSource, State.pathBytes, htkl, hmid, hpath, bytesFrom_zero]
  rfl

/-- MSGENC at operands that are 0 emits that header (R150). -/
theorem exec_msgenc_of_zero {s : State} (hcfg : s.cfg.legal = true) (htkl : s.encTkl = 0#4) (hmid : s.midSrc = 0#16)
    (hpath : s.pathLen = 0) :
    exec .msgenc s = .next (finishMsgenc 4 { s with tx := s.tx.writeBytes 0 [0x40#8, 0x01#8, 0x00#8, 0x00#8] }) := by
  rw [exec_msgenc_of_legal hcfg (by simp [htkl]) (by simp [hpath]), State.packet_of_zero htkl hmid hpath]
  rfl

/-- MSGDEC of a datagram too short for a header (R172). -/
theorem exec_msgdec_short {s : State} (hmax : s.rxLen ≤ s.cfg.rxMax) (h : s.rxLen < 4) :
    exec .msgdec s = .next (raise (.msgdec 0 0) .truncatedBuffer 0 { s with trace := [] }) := by
  rw [exec_msgdec_of_le hmax, decodeDatagram_short h]

/-- The characters of code 0.00 (R210). -/
theorem formatString_zero : formatString (classOf 0#8) (detailOf 0#8) = #v[0x30#8, 0x2E#8, 0x30#8, 0x30#8] := by decide

/-- Settles O3: each command's own rule at operands that are 0. -/
theorem commandsStraightAfterReset : Obligations.CommandsStraightAfterReset := by
  rintro rx path s rfl
  obtain ⟨huvv, hencv, hfmtv⟩ := statusSucceed_zero
  have hlegal : State.reset.cfg.legal = true := by decide
  exact ⟨⟨_, exec_uvenc (uvarEncode_literal (nib := 0#4) (Nat.zero_le _)), huvv, rfl, rfl⟩,
    ⟨_, exec_uvdec_of_ok (Nat.zero_le _) (Nat.zero_le _) (uvarDecode_literal (nib := 0#4) (Nat.zero_le _) _ _ _), huvv, rfl⟩,
    ⟨_, exec_msgenc_of_zero hlegal rfl rfl rfl, hencv, rfl, rfl⟩,
    ⟨_, exec_msgdec_short (Nat.zero_le _) (Nat.zero_lt_succ 3), statusFail_zero, rfl, rfl⟩,
    ⟨_, exec_fmt _, hfmtv, formatString_zero⟩⟩

/-! ## The engine and the host take turns (R225, R281) -/

/-- With nothing asked the idle engine stays as it is. -/
theorem step_idle_of_nil {s : State} (he : s.engine = .idle) (hh : s.host = []) : step s = .next s := by
  simp only [step, he, hh]

/-- What a step of a running command may not touch: the host's list, its reply and the parameters. -/
def State.SameSurroundings (s t : State) : Prop := t.host = s.host ∧ t.reply = s.reply ∧ t.cfg = s.cfg

/-- A wire item keeps the surroundings. -/
theorem ItemEffect.sameSurroundings {i : Instr} {s t : State} (h : ItemEffect i s t) : s.SameSurroundings t := by
  obtain ⟨-, -, hcfg, hhost, hreply⟩ := h.frame.surroundings
  exact ⟨hhost, hreply, hcfg⟩

/-- So does a header that cannot be read. -/
theorem sameSurroundings_shortHeader (s : State) : s.SameSurroundings (shortHeader s) := by
  unfold shortHeader
  split <;> exact ⟨rfl, rfl, rfl⟩

/-- So does the end of the options. -/
theorem sameSurroundings_endOptions (s : State) : s.SameSurroundings (endOptions s) := by
  unfold endOptions
  split <;> exact ⟨rfl, rfl, rfl⟩

/-- So does the end of the packet. -/
theorem sameSurroundings_endPacket (s : State) : s.SameSurroundings (endPacket s) := by
  unfold endPacket
  split <;> exact ⟨rfl, rfl, rfl⟩

/-- A step of a running command keeps the surroundings: only an idle engine takes a transaction. -/
theorem step_sameSurroundings {s t : State} (he : s.engine ≠ .idle) (h : step s = .next t) : s.SameSurroundings t := by
  cases step_effect h with
  | stays hidle => exact absurd hidle he
  | txn _ _ hidle => exact absurd hidle he
  | takes _ _ _ _ _ _ _ hi => exact hi.sameSurroundings
  | emits _ _ _ hi => exact hi.sameSurroundings
  | headerShort _ ht => exact ht ▸ sameSurroundings_shortHeader s
  | optionsEnd _ ht => exact ht ▸ sameSurroundings_endOptions s
  | packetEnd _ ht => exact ht ▸ sameSurroundings_endPacket s

/-- Settles O40: the idle engine's step and the running command's. -/
theorem engineAndHostTakeTurns : Obligations.EngineAndHostTakeTurns :=
  ⟨fun _ he hh => step_idle_of_nil he hh, fun _ _ he h => step_sameSurroundings he h⟩

end Sys2Proof.Machine
